-- ==== Sys2Proof/Word.lean ====
section
/-! DEFINITION. The word types of the core: a 32-bit word (00_scope R10, 92 D1), the byte a memory cell holds, a
general register's number (10_state R20) and a line of program text as its characters (30_encoding R82). -/

namespace Sys2Proof

/-- A 32-bit word: register values, data words, immediates in the pipeline, addresses and the pc (92 D1). -/
abbrev Word := BitVec 32

/-- One byte, the unit of `Host.Cell`. The core itself has no byte access (20_memory R61). -/
abbrev Byte := BitVec 8

/-- A general register's number, 0 to 31 (10_state R20). -/
abbrev RegNum := Fin 32

/-- Program text: a line, or one of its pieces, as a list of characters. -/
abbrev Text := List Char

end Sys2Proof
end

