-- ==== Sys2Proof/Config.lean ====
section
/-! DEFINITION. What is fixed for the life of an instance (00_scope R8, 47 R260; 93 I3, I9, I10), and the one free
value: what an absent word reads as in a pipeline state that no run reaches. -/

namespace Sys2Proof

/-- The four configurations (47 R260). -/
inductive ConfigName where
  | basic | noHazards | noPredictor | full
  deriving DecidableEq, Repr

/-- Where forwarded operands are selected (00 R8 `FWD_POINT`; `execute` is the alternative reading of 45 R231). -/
inductive FwdPoint where
  | decode | execute
  deriving DecidableEq, Repr

/-- The configuration of an instance (00 R8; `shiftMask` is the parameter `SHIFT_MASK` of 93 I3). -/
structure Config where
  name      : ConfigName
  fwdPoint  : FwdPoint
  imemWords : Nat
  dmemWords : Nat
  shiftMask : Word
  deriving DecidableEq, Repr

/-- The hazard unit is present (00 R8 `HAS_HU`, 47 R260). -/
def Config.hasHazardUnit (c : Config) : Bool :=
  match c.name with
  | .basic | .noHazards => false
  | .noPredictor | .full => true

/-- The predictor is the real one, not the null one (00 R8 `BP_KIND`, 46 R240). -/
def Config.realPredictor (c : Config) : Bool :=
  match c.name with
  | .basic | .noPredictor => false
  | .noHazards | .full => true

/-- Both memories have at least 1 and at most 2^30 words (00 R9). -/
abbrev Config.Wf (c : Config) : Prop :=
  1 ≤ c.imemWords ∧ c.imemWords ≤ 2 ^ 30 ∧ 1 ≤ c.dmemWords ∧ c.dmemWords ≤ 2 ^ 30

/-- The configuration of the state right after reset: Full, decode, 1024 words each, shift mask 31. The sizes, the
forwarding point and the mask are the spec's defaults (00 R8, 93 I3).
DESIGN CHOICE (log entry 1), unsafe where a claim rests on the value: that CONFIG is Full. -/
def Config.default : Config :=
  { name := .full, fwdPoint := .decode, imemWords := 1024, dmemWords := 1024, shiftMask := 31 }

/-- The word fields of a snapshot that a stage reads as a value. -/
inductive WordField where
  | rs1Val | rs2Val | imm | predictedTarget | aluResult | targetAddress | memData
  deriving DecidableEq, Repr

/-- What a stage reads when a word field it needs is absent. The spec never says, because no run from reset gets
there. A free value (log entry 2): nothing in Lean can prove which word it is. Safe. -/
opaque Config.absentWord : WordField → Word

end Sys2Proof
end

