-- ==== Sys2Proof/Syntax.lean ====
section
/-! DEFINITION. The instructions: one constructor per row of spec/opcode_table.json (30_encoding R81, R97), with the
operand fields its format populates. Immediates are the signed integers of R80. -/

namespace Sys2Proof

/-- The 28 instructions of 30_encoding R81 and the synthetic `nop` of R88. -/
inductive Instr where
  | add (rd rs1 rs2 : RegNum)
  | sub (rd rs1 rs2 : RegNum)
  | and (rd rs1 rs2 : RegNum)
  | or (rd rs1 rs2 : RegNum)
  | xor (rd rs1 rs2 : RegNum)
  | slt (rd rs1 rs2 : RegNum)
  | sll (rd rs1 rs2 : RegNum)
  | srl (rd rs1 rs2 : RegNum)
  | sra (rd rs1 rs2 : RegNum)
  | addi (rd rs1 : RegNum) (imm : Int)
  | andi (rd rs1 : RegNum) (imm : Int)
  | ori (rd rs1 : RegNum) (imm : Int)
  | slti (rd rs1 : RegNum) (imm : Int)
  | slli (rd rs1 : RegNum) (imm : Int)
  | srli (rd rs1 : RegNum) (imm : Int)
  | srai (rd rs1 : RegNum) (imm : Int)
  | lui (rd : RegNum) (imm : Int)
  | auipc (rd : RegNum) (imm : Int)
  | beq (rs1 rs2 : RegNum) (imm : Int)
  | bne (rs1 rs2 : RegNum) (imm : Int)
  | blt (rs1 rs2 : RegNum) (imm : Int)
  | bge (rs1 rs2 : RegNum) (imm : Int)
  | bltu (rs1 rs2 : RegNum) (imm : Int)
  | bgeu (rs1 rs2 : RegNum) (imm : Int)
  | jal (rd : RegNum) (imm : Int)
  | jalr (rd rs1 : RegNum) (imm : Int)
  | lw (rd rs1 : RegNum) (imm : Int)
  | sw (rs2 rs1 : RegNum) (imm : Int)
  | nop
  deriving DecidableEq, Repr

end Sys2Proof
end

