-- ==== Sys2Proof/WellFormed.lean ====
section
/-! DEFINITION. Which instruction terms the loader can produce (30_encoding R85, R88, R91) and which of them have a
binary word (R95, R96). -/

namespace Sys2Proof

/-- The immediate range of 30_encoding R85. -/
def immInRange (n : Int) : Bool := decide (-2 ^ 31 ≤ n) && decide (n ≤ 2 ^ 31 - 1)

/-- The immediate, where there is one, lies in the range of 30_encoding R85. Register numbers are in range by their
type. -/
def Instr.wellFormed : Instr → Bool
  | .add _ _ _ | .sub _ _ _ | .and _ _ _ | .or _ _ _ | .xor _ _ _ | .slt _ _ _ => true
  | .sll _ _ _ | .srl _ _ _ | .sra _ _ _ => true
  | .addi _ _ n | .andi _ _ n | .ori _ _ n | .slti _ _ n | .slli _ _ n | .srli _ _ n | .srai _ _ n => immInRange n
  | .lui _ n | .auipc _ n => immInRange n
  | .beq _ _ n | .bne _ _ n | .blt _ _ n | .bge _ _ n | .bltu _ _ n | .bgeu _ _ n => immInRange n
  | .jal _ n | .jalr _ _ n | .lw _ _ n | .sw _ _ n => immInRange n
  | .nop => true

/-- A program may contain it: well formed and not the synthetic nop (30_encoding R88, R91). -/
def Instr.loadable (i : Instr) : Bool := i.wellFormed && decide (i ≠ .nop)

/-- A signed field of `bits` bits can hold `n`. -/
def fitsSigned (bits : Nat) (n : Int) : Bool :=
  decide (-2 ^ (bits - 1) ≤ n) && decide (n < 2 ^ (bits - 1))

/-- An unsigned field of `bits` bits can hold `n`. -/
def fitsUnsigned (bits : Nat) (n : Int) : Bool := decide (0 ≤ n) && decide (n < 2 ^ bits)

/-- The instruction has an RV32I word: its immediate fits its field, and it is not nop (30_encoding R95, R96). -/
def Instr.encodable : Instr → Bool
  | .add _ _ _ | .sub _ _ _ | .and _ _ _ | .or _ _ _ | .xor _ _ _ | .slt _ _ _ => true
  | .sll _ _ _ | .srl _ _ _ | .sra _ _ _ => true
  | .addi _ _ n | .andi _ _ n | .ori _ _ n | .slti _ _ n => fitsSigned 12 n
  | .slli _ _ n | .srli _ _ n | .srai _ _ n => fitsUnsigned 5 n
  | .lui _ n | .auipc _ n => fitsUnsigned 20 n
  | .beq _ _ n | .bne _ _ n | .blt _ _ n | .bge _ _ n | .bltu _ _ n | .bgeu _ _ n =>
      fitsSigned 13 n && decide (n % 2 = 0)
  | .jal _ n => fitsSigned 21 n && decide (n % 2 = 0)
  | .jalr _ _ n | .lw _ _ n | .sw _ _ n => fitsSigned 12 n
  | .nop => false

end Sys2Proof
end

