-- ==== Sys2Proof/Decode.lean ====
section
/-! DEFINITION. The Instruction record's opcode, kind and fields (30_encoding R80, R81); the core's decoder, from a
line of program text (R82 to R89), with the text of an instruction beside it; and the informative RV32I word decoder
of R95, with its encoder. -/

namespace Sys2Proof

/-! ## Opcode, kind and fields (30_encoding R80, R81) -/

/-- The 28 mnemonics and the synthetic nop (30_encoding R81, R88). -/
inductive Opcode where
  | add | sub | and | or | xor | slt | sll | srl | sra
  | addi | andi | ori | slti | slli | srli | srai
  | lui | auipc
  | beq | bne | blt | bge | bltu | bgeu
  | jal | jalr | lw | sw | nop
  deriving DecidableEq, Repr

/-- The kinds of 30_encoding R80. -/
inductive Kind where
  | R | I | S | B | J | U | invalid
  deriving DecidableEq, Repr

/-- The opcode of an instruction (30_encoding R80). -/
def Instr.opcode : Instr → Opcode
  | .add _ _ _ => .add
  | .sub _ _ _ => .sub
  | .and _ _ _ => .and
  | .or _ _ _ => .or
  | .xor _ _ _ => .xor
  | .slt _ _ _ => .slt
  | .sll _ _ _ => .sll
  | .srl _ _ _ => .srl
  | .sra _ _ _ => .sra
  | .addi _ _ _ => .addi
  | .andi _ _ _ => .andi
  | .ori _ _ _ => .ori
  | .slti _ _ _ => .slti
  | .slli _ _ _ => .slli
  | .srli _ _ _ => .srli
  | .srai _ _ _ => .srai
  | .lui _ _ => .lui
  | .auipc _ _ => .auipc
  | .beq _ _ _ => .beq
  | .bne _ _ _ => .bne
  | .blt _ _ _ => .blt
  | .bge _ _ _ => .bge
  | .bltu _ _ _ => .bltu
  | .bgeu _ _ _ => .bgeu
  | .jal _ _ => .jal
  | .jalr _ _ _ => .jalr
  | .lw _ _ _ => .lw
  | .sw _ _ _ => .sw
  | .nop => .nop

/-- Opcode classification (30_encoding R81). -/
def Opcode.kind : Opcode → Kind
  | .add | .sub | .and | .or | .xor | .slt | .sll | .srl | .sra => .R
  | .addi | .andi | .ori | .slti | .slli | .srli | .srai => .I
  | .lw | .jalr => .I
  | .sw => .S
  | .beq | .bne | .blt | .bge | .bltu | .bgeu => .B
  | .jal => .J
  | .lui | .auipc => .U
  | .nop => .invalid

/-- The kind field of the record (30_encoding R80). -/
def Instr.kind (i : Instr) : Kind := i.opcode.kind

/-- `is_valid()` (30_encoding R91). -/
def Instr.isValid (i : Instr) : Bool := decide (i.kind ≠ .invalid)

/-- The rd field, or absent (30_encoding R81). -/
def Instr.rd : Instr → Option RegNum
  | .add rd _ _ | .sub rd _ _ | .and rd _ _ | .or rd _ _ | .xor rd _ _ | .slt rd _ _ => some rd
  | .sll rd _ _ | .srl rd _ _ | .sra rd _ _ => some rd
  | .addi rd _ _ | .andi rd _ _ | .ori rd _ _ | .slti rd _ _ => some rd
  | .slli rd _ _ | .srli rd _ _ | .srai rd _ _ => some rd
  | .lui rd _ | .auipc rd _ | .jal rd _ | .jalr rd _ _ | .lw rd _ _ => some rd
  | .beq _ _ _ | .bne _ _ _ | .blt _ _ _ | .bge _ _ _ | .bltu _ _ _ | .bgeu _ _ _ => none
  | .sw _ _ _ | .nop => none

/-- The rs1 field, or absent (30_encoding R81). -/
def Instr.rs1 : Instr → Option RegNum
  | .add _ rs1 _ | .sub _ rs1 _ | .and _ rs1 _ | .or _ rs1 _ | .xor _ rs1 _ | .slt _ rs1 _ => some rs1
  | .sll _ rs1 _ | .srl _ rs1 _ | .sra _ rs1 _ => some rs1
  | .addi _ rs1 _ | .andi _ rs1 _ | .ori _ rs1 _ | .slti _ rs1 _ => some rs1
  | .slli _ rs1 _ | .srli _ rs1 _ | .srai _ rs1 _ => some rs1
  | .beq rs1 _ _ | .bne rs1 _ _ | .blt rs1 _ _ | .bge rs1 _ _ | .bltu rs1 _ _ | .bgeu rs1 _ _ => some rs1
  | .jalr _ rs1 _ | .lw _ rs1 _ | .sw _ rs1 _ => some rs1
  | .lui _ _ | .auipc _ _ | .jal _ _ | .nop => none

/-- The rs2 field, or absent (30_encoding R81). -/
def Instr.rs2 : Instr → Option RegNum
  | .add _ _ rs2 | .sub _ _ rs2 | .and _ _ rs2 | .or _ _ rs2 | .xor _ _ rs2 | .slt _ _ rs2 => some rs2
  | .sll _ _ rs2 | .srl _ _ rs2 | .sra _ _ rs2 => some rs2
  | .beq _ rs2 _ | .bne _ rs2 _ | .blt _ rs2 _ | .bge _ rs2 _ | .bltu _ rs2 _ | .bgeu _ rs2 _ => some rs2
  | .sw rs2 _ _ => some rs2
  | .addi _ _ _ | .andi _ _ _ | .ori _ _ _ | .slti _ _ _ | .slli _ _ _ | .srli _ _ _ | .srai _ _ _ => none
  | .lui _ _ | .auipc _ _ | .jal _ _ | .jalr _ _ _ | .lw _ _ _ | .nop => none

/-- The imm field, or absent (30_encoding R81). -/
def Instr.imm : Instr → Option Int
  | .add _ _ _ | .sub _ _ _ | .and _ _ _ | .or _ _ _ | .xor _ _ _ | .slt _ _ _ => none
  | .sll _ _ _ | .srl _ _ _ | .sra _ _ _ | .nop => none
  | .addi _ _ n | .andi _ _ n | .ori _ _ n | .slti _ _ n | .slli _ _ n | .srli _ _ n | .srai _ _ n => some n
  | .lui _ n | .auipc _ n | .jal _ n | .jalr _ _ n | .lw _ _ n | .sw _ _ n => some n
  | .beq _ _ n | .bne _ _ n | .blt _ _ n | .bge _ _ n | .bltu _ _ n | .bgeu _ _ n => some n

/-! ## The core's decoder: a line of program text (30_encoding R82 to R89) -/

/-- The mnemonic, in lower case as the source spells it (30_encoding R83). -/
def Opcode.text : Opcode → Text
  | .add => ['a', 'd', 'd']
  | .sub => ['s', 'u', 'b']
  | .and => ['a', 'n', 'd']
  | .or => ['o', 'r']
  | .xor => ['x', 'o', 'r']
  | .slt => ['s', 'l', 't']
  | .sll => ['s', 'l', 'l']
  | .srl => ['s', 'r', 'l']
  | .sra => ['s', 'r', 'a']
  | .addi => ['a', 'd', 'd', 'i']
  | .andi => ['a', 'n', 'd', 'i']
  | .ori => ['o', 'r', 'i']
  | .slti => ['s', 'l', 't', 'i']
  | .slli => ['s', 'l', 'l', 'i']
  | .srli => ['s', 'r', 'l', 'i']
  | .srai => ['s', 'r', 'a', 'i']
  | .lui => ['l', 'u', 'i']
  | .auipc => ['a', 'u', 'i', 'p', 'c']
  | .beq => ['b', 'e', 'q']
  | .bne => ['b', 'n', 'e']
  | .blt => ['b', 'l', 't']
  | .bge => ['b', 'g', 'e']
  | .bltu => ['b', 'l', 't', 'u']
  | .bgeu => ['b', 'g', 'e', 'u']
  | .jal => ['j', 'a', 'l']
  | .jalr => ['j', 'a', 'l', 'r']
  | .lw => ['l', 'w']
  | .sw => ['s', 'w']
  | .nop => ['n', 'o', 'p']

/-- The 28 opcodes a program line may have: nop is not among them (30_encoding R81, R88). -/
def programOpcodes : List Opcode :=
  [.add, .sub, .and, .or, .xor, .slt, .sll, .srl, .sra,
   .addi, .andi, .ori, .slti, .slli, .srli, .srai, .lui, .auipc,
   .beq, .bne, .blt, .bge, .bltu, .bgeu, .jal, .jalr, .lw, .sw]

/-- Why a line is no instruction; every one of them is the DecodeError of 60 R301. -/
inductive LineReject where
  | unknownOpcode      -- not one of the 28, `nop` and the empty line included (R81, R88, R89)
  | operandCount       -- the operand count does not match the opcode's row (R83)
  | badRegister        -- not `x0` to `x31` (R84)
  | badImmediate       -- not an optionally signed decimal or `0x` hexadecimal integer (R85)
  | immediateRange     -- outside [-2^31, 2^31 - 1] (R85)
  | badMemoryOperand   -- not `imm(reg)` (R87)
  deriving DecidableEq, Repr

/-- Commas and white space separate the pieces of a line (30_encoding R82). DESIGN CHOICE (log entry 3): white space
is the blank, the tab, the line feed and the carriage return. -/
def isSeparator (c : Char) : Bool :=
  c == ',' || c == ' ' || c == '\t' || c == '\n' || c == '\r'

/-- The pieces of a line, empty ones discarded; `piece` is the piece being read, last character first. -/
def splitLineFrom (piece : Text) : Text → List Text
  | [] => if piece.isEmpty then [] else [piece.reverse]
  | c :: rest =>
    if isSeparator c then
      (if piece.isEmpty then splitLineFrom [] rest else piece.reverse :: splitLineFrom [] rest)
    else splitLineFrom (c :: piece) rest

/-- A line split at every run of commas and white space (30_encoding R82). -/
def splitLine (line : Text) : List Text := splitLineFrom [] line

/-- The value of a decimal digit. -/
def decDigit (c : Char) : Option Nat :=
  if '0' ≤ c ∧ c ≤ '9' then some (c.toNat - '0'.toNat) else none

/-- The value of a hexadecimal digit. DESIGN CHOICE (log entry 3): letters of either case. -/
def hexDigit (c : Char) : Option Nat :=
  if '0' ≤ c ∧ c ≤ '9' then some (c.toNat - '0'.toNat)
  else if 'a' ≤ c ∧ c ≤ 'f' then some (c.toNat - 'a'.toNat + 10)
  else if 'A' ≤ c ∧ c ≤ 'F' then some (c.toNat - 'A'.toNat + 10)
  else none

/-- The number a text of digits stands for, after the digits read so far made `acc`. -/
def digitsFrom (base : Nat) (digit : Char → Option Nat) (acc : Nat) : Text → Option Nat
  | [] => some acc
  | c :: rest =>
    match digit c with
    | some d => digitsFrom base digit (acc * base + d) rest
    | none => none

/-- A natural number of one digit or more. DESIGN CHOICE (log entry 3): leading zeros are allowed. -/
def parseNat (base : Nat) (digit : Char → Option Nat) (t : Text) : Option Nat :=
  if t.isEmpty then none else digitsFrom base digit 0 t

/-- An unsigned immediate: hexadecimal after `0x`, else decimal (30_encoding R85). -/
def parseMagnitude : Text → Option Nat
  | '0' :: 'x' :: rest => parseNat 16 hexDigit rest
  | t => parseNat 10 decDigit t

/-- An optionally signed immediate (30_encoding R85), of any size. -/
def parseInt : Text → Option Int
  | '-' :: rest => (parseMagnitude rest).map fun n => -(n : Int)
  | '+' :: rest => (parseMagnitude rest).map fun n => (n : Int)
  | t => (parseMagnitude t).map fun n => (n : Int)

/-- An immediate operand and its range (30_encoding R85). -/
def parseImm (t : Text) : Except LineReject Int :=
  match parseInt t with
  | none => .error .badImmediate
  | some n => if immInRange n then .ok n else .error .immediateRange

/-- A register operand: `x` and a decimal number 0 to 31 with no leading zero (30_encoding R84). -/
def parseReg (t : Text) : Except LineReject RegNum :=
  match t with
  | ['x', d] =>
    match decDigit d with
    | some n => if h : n < 32 then .ok ⟨n, h⟩ else .error .badRegister
    | none => .error .badRegister
  | ['x', d, e] =>
    match decDigit d, decDigit e with
    | some m, some n =>
      if m = 0 then .error .badRegister
      else if h : 10 * m + n < 32 then .ok ⟨10 * m + n, h⟩ else .error .badRegister
    | _, _ => .error .badRegister
  | _ => .error .badRegister

/-- The text before the first `(` and the text after it. -/
def cutAtParen : Text → Option (Text × Text)
  | [] => none
  | '(' :: rest => some ([], rest)
  | c :: rest => (cutAtParen rest).map fun p => (c :: p.1, p.2)

/-- A memory operand `imm(reg)`, split into its immediate and its register (30_encoding R87). -/
def parseMem (t : Text) : Except LineReject (Int × RegNum) :=
  match cutAtParen t with
  | none => .error .badMemoryOperand
  | some (before, after) =>
    match after.reverse with
    | ')' :: inner =>
      match parseImm before, parseReg inner.reverse with
      | .ok n, .ok r => .ok (n, r)
      | .error e, _ => .error e
      | _, .error e => .error e
    | _ => .error .badMemoryOperand

/-- `op rd, rs1, rs2` (30_encoding R82). -/
def parseRRR (mk : RegNum → RegNum → RegNum → Instr) : List Text → Except LineReject Instr
  | [a, b, c] => do return mk (← parseReg a) (← parseReg b) (← parseReg c)
  | _ => .error .operandCount

/-- `op r, r, imm`: I-type arithmetic, B-type, and jalr's second spelling (30_encoding R82). -/
def parseRRI (mk : RegNum → RegNum → Int → Instr) : List Text → Except LineReject Instr
  | [a, b, c] => do return mk (← parseReg a) (← parseReg b) (← parseImm c)
  | _ => .error .operandCount

/-- `op r, imm(r)`: lw, sw, and jalr's first spelling (30_encoding R82). -/
def parseRM (mk : RegNum → RegNum → Int → Instr) : List Text → Except LineReject Instr
  | [a, b] => do
    let r ← parseReg a
    let m ← parseMem b
    return mk r m.2 m.1
  | _ => .error .operandCount

/-- `op rd, imm`: jal, lui, auipc (30_encoding R82). -/
def parseRI (mk : RegNum → Int → Instr) : List Text → Except LineReject Instr
  | [a, b] => do return mk (← parseReg a) (← parseImm b)
  | _ => .error .operandCount

/-- jalr has two spellings (30_encoding R82), told apart by their operand count. -/
def parseJalr : List Text → Except LineReject Instr
  | [a, b] => parseRM .jalr [a, b]
  | args => parseRRI .jalr args

/-- The operands of an opcode (30_encoding R82, R83). -/
def parseOperands : Opcode → List Text → Except LineReject Instr
  | .add => parseRRR .add
  | .sub => parseRRR .sub
  | .and => parseRRR .and
  | .or => parseRRR .or
  | .xor => parseRRR .xor
  | .slt => parseRRR .slt
  | .sll => parseRRR .sll
  | .srl => parseRRR .srl
  | .sra => parseRRR .sra
  | .addi => parseRRI .addi
  | .andi => parseRRI .andi
  | .ori => parseRRI .ori
  | .slti => parseRRI .slti
  | .slli => parseRRI .slli
  | .srli => parseRRI .srli
  | .srai => parseRRI .srai
  | .lui => parseRI .lui
  | .auipc => parseRI .auipc
  | .beq => parseRRI .beq
  | .bne => parseRRI .bne
  | .blt => parseRRI .blt
  | .bge => parseRRI .bge
  | .bltu => parseRRI .bltu
  | .bgeu => parseRRI .bgeu
  | .jal => parseRI .jal
  | .jalr => parseJalr
  | .lw => parseRM .lw
  | .sw => parseRM .sw
  | .nop => fun _ => .error .unknownOpcode

/-- The opcode a text spells, if a program line may have it (30_encoding R83, R88). -/
def parseOpcode (t : Text) : Option Opcode := programOpcodes.find? fun o => o.text == t

/-- The core's decoder: a program line to an instruction, or the reason it is a DecodeError (30_encoding R80 to
R89). -/
def decodeLine (line : Text) : Except LineReject Instr :=
  match splitLine line with
  | [] => .error .unknownOpcode
  | op :: args =>
    match parseOpcode op with
    | none => .error .unknownOpcode
    | some o => parseOperands o args

/-! ## The text of an instruction -/

/-- The text of a register number (30_encoding R84). -/
def RegNum.text (r : RegNum) : Text := 'x' :: Nat.toDigits 10 r.val

/-- The text of an immediate: decimal, with a sign when it is negative (30_encoding R85). -/
def immText (n : Int) : Text :=
  if n < 0 then '-' :: Nat.toDigits 10 n.natAbs else Nat.toDigits 10 n.natAbs

/-- The pieces of a line joined as a program writes them. -/
def joinOperands : List Text → Text
  | [] => []
  | [t] => t
  | t :: rest => t ++ ',' :: ' ' :: joinOperands rest

/-- A memory operand's text (30_encoding R82). -/
def memText (n : Int) (r : RegNum) : Text := immText n ++ '(' :: (RegNum.text r ++ [')'])

/-- The operands of an instruction in the order of 30_encoding R82; jalr in its first spelling. -/
def Instr.operandTexts : Instr → List Text
  | .add rd a b | .sub rd a b | .and rd a b | .or rd a b | .xor rd a b | .slt rd a b =>
      [RegNum.text rd, RegNum.text a, RegNum.text b]
  | .sll rd a b | .srl rd a b | .sra rd a b => [RegNum.text rd, RegNum.text a, RegNum.text b]
  | .addi rd a n | .andi rd a n | .ori rd a n | .slti rd a n => [RegNum.text rd, RegNum.text a, immText n]
  | .slli rd a n | .srli rd a n | .srai rd a n => [RegNum.text rd, RegNum.text a, immText n]
  | .lui rd n | .auipc rd n | .jal rd n => [RegNum.text rd, immText n]
  | .beq a b n | .bne a b n | .blt a b n | .bge a b n | .bltu a b n | .bgeu a b n =>
      [RegNum.text a, RegNum.text b, immText n]
  | .jalr rd a n | .lw rd a n => [RegNum.text rd, memText n a]
  | .sw b a n => [RegNum.text b, memText n a]
  | .nop => []

/-- A line that spells the instruction (30_encoding R82): the encoder beside `decodeLine`. -/
def Instr.line (i : Instr) : Text := i.opcode.text ++ ' ' :: joinOperands i.operandTexts

/-! ## The informative RV32I words (30_encoding R95, R96) -/

/-- Why a word is no instruction of the table (30_encoding R95; opcode_table.json). -/
inductive WordReject where
  | opcode    -- bits 6..0 are no opcode of the table
  | funct3    -- bits 14..12 select no row of that opcode
  | funct7    -- bits 31..25 select no row of that opcode and funct3
  deriving DecidableEq, Repr

/-- A register field of a word. -/
def regField (w : Word) (lo : Nat) : RegNum := (w.extractLsb' lo 5).toFin

/-- I-type immediate: `sext_32(imm[11:0])`, bits 31..20 (30_encoding R95). -/
def immI (w : Word) : Int := (w.extractLsb' 20 12).toInt

/-- Shift amount: bits 24..20, unsigned (30_encoding R95). -/
def immShift (w : Word) : Int := ((w.extractLsb' 20 5).toNat : Int)

/-- S-type immediate: bits 31..25 and 11..7 (30_encoding R95). -/
def immS (w : Word) : Int := (w.extractLsb' 25 7 ++ w.extractLsb' 7 5).toInt

/-- B-type immediate: imm[12|10:5] in bits 31..25, imm[4:1|11] in bits 11..7, imm[0] = 0 (30_encoding R95). -/
def immB (w : Word) : Int :=
  (w.extractLsb' 31 1 ++ w.extractLsb' 7 1 ++ w.extractLsb' 25 6 ++ w.extractLsb' 8 4 ++ (0#1)).toInt

/-- U-type text immediate: the 20-bit value of bits 31..12 (30_encoding R95). -/
def immU (w : Word) : Int := ((w.extractLsb' 12 20).toNat : Int)

/-- J-type immediate: imm[20|10:1|11|19:12] in bits 31..12, imm[0] = 0 (30_encoding R95). -/
def immJ (w : Word) : Int :=
  (w.extractLsb' 31 1 ++ w.extractLsb' 12 8 ++ w.extractLsb' 20 1 ++ w.extractLsb' 21 10 ++ (0#1)).toInt

/-- R-type rows: opcode 0x33 (opcode_table.json). -/
def decodeOp (w : Word) : Except WordReject Instr :=
  let rd := regField w 7
  let rs1 := regField w 15
  let rs2 := regField w 20
  match (w.extractLsb' 12 3).toNat, (w.extractLsb' 25 7).toNat with
  | 0, 0x00 => .ok (.add rd rs1 rs2)
  | 0, 0x20 => .ok (.sub rd rs1 rs2)
  | 1, 0x00 => .ok (.sll rd rs1 rs2)
  | 2, 0x00 => .ok (.slt rd rs1 rs2)
  | 3, _ => .error .funct3
  | 4, 0x00 => .ok (.xor rd rs1 rs2)
  | 5, 0x00 => .ok (.srl rd rs1 rs2)
  | 5, 0x20 => .ok (.sra rd rs1 rs2)
  | 6, 0x00 => .ok (.or rd rs1 rs2)
  | 7, 0x00 => .ok (.and rd rs1 rs2)
  | _, _ => .error .funct7

/-- I-type arithmetic rows: opcode 0x13 (opcode_table.json). -/
def decodeOpImm (w : Word) : Except WordReject Instr :=
  let rd := regField w 7
  let rs1 := regField w 15
  match (w.extractLsb' 12 3).toNat with
  | 0 => .ok (.addi rd rs1 (immI w))
  | 1 => if w.extractLsb' 25 7 = 0 then .ok (.slli rd rs1 (immShift w)) else .error .funct7
  | 2 => .ok (.slti rd rs1 (immI w))
  | 5 =>
    if w.extractLsb' 25 7 = 0 then .ok (.srli rd rs1 (immShift w))
    else if w.extractLsb' 25 7 = 0x20 then .ok (.srai rd rs1 (immShift w)) else .error .funct7
  | 6 => .ok (.ori rd rs1 (immI w))
  | 7 => .ok (.andi rd rs1 (immI w))
  | _ => .error .funct3

/-- B-type rows: opcode 0x63 (opcode_table.json). -/
def decodeBranch (w : Word) : Except WordReject Instr :=
  let rs1 := regField w 15
  let rs2 := regField w 20
  match (w.extractLsb' 12 3).toNat with
  | 0 => .ok (.beq rs1 rs2 (immB w))
  | 1 => .ok (.bne rs1 rs2 (immB w))
  | 4 => .ok (.blt rs1 rs2 (immB w))
  | 5 => .ok (.bge rs1 rs2 (immB w))
  | 6 => .ok (.bltu rs1 rs2 (immB w))
  | 7 => .ok (.bgeu rs1 rs2 (immB w))
  | _ => .error .funct3

/-- The word decoder of 30_encoding R95: total, rejecting by name every word that matches no row of
opcode_table.json. The layouts are RV32I's, which the spec marks as general knowledge: PRESUMED (log entry 10). -/
def decodeWord (w : Word) : Except WordReject Instr :=
  match (w.extractLsb' 0 7).toNat with
  | 0x33 => decodeOp w
  | 0x13 => decodeOpImm w
  | 0x63 => decodeBranch w
  | 0x37 => .ok (.lui (regField w 7) (immU w))
  | 0x17 => .ok (.auipc (regField w 7) (immU w))
  | 0x6f => .ok (.jal (regField w 7) (immJ w))
  | 0x67 =>
    if w.extractLsb' 12 3 = 0 then .ok (.jalr (regField w 7) (regField w 15) (immI w)) else .error .funct3
  | 0x03 =>
    if w.extractLsb' 12 3 = 2 then .ok (.lw (regField w 7) (regField w 15) (immI w)) else .error .funct3
  | 0x23 =>
    if w.extractLsb' 12 3 = 2 then .ok (.sw (regField w 20) (regField w 15) (immS w)) else .error .funct3
  | _ => .error .opcode

/-- The bits of a register field. -/
def regBits (r : RegNum) : BitVec 5 := BitVec.ofFin r

/-- R format, and the I format of the shifts with the amount in the rs2 field (30_encoding R95). -/
def wordR (f7 : BitVec 7) (rs2 : BitVec 5) (rs1 : RegNum) (f3 : BitVec 3) (rd : RegNum) (op : BitVec 7) : Word :=
  f7 ++ rs2 ++ regBits rs1 ++ f3 ++ regBits rd ++ op

/-- I format (30_encoding R95). -/
def wordI (n : Int) (rs1 : RegNum) (f3 : BitVec 3) (rd : RegNum) (op : BitVec 7) : Word :=
  BitVec.ofInt 12 n ++ regBits rs1 ++ f3 ++ regBits rd ++ op

/-- S format (30_encoding R95). -/
def wordS (n : Int) (rs2 rs1 : RegNum) (f3 : BitVec 3) (op : BitVec 7) : Word :=
  let imm := BitVec.ofInt 12 n
  imm.extractLsb' 5 7 ++ regBits rs2 ++ regBits rs1 ++ f3 ++ imm.extractLsb' 0 5 ++ op

/-- B format (30_encoding R95). -/
def wordB (n : Int) (rs1 rs2 : RegNum) (f3 : BitVec 3) : Word :=
  let imm := BitVec.ofInt 13 n
  imm.extractLsb' 12 1 ++ imm.extractLsb' 5 6 ++ regBits rs2 ++ regBits rs1 ++ f3 ++
    imm.extractLsb' 1 4 ++ imm.extractLsb' 11 1 ++ (0x63#7)

/-- U format (30_encoding R95). -/
def wordU (n : Int) (rd : RegNum) (op : BitVec 7) : Word := BitVec.ofInt 20 n ++ regBits rd ++ op

/-- J format (30_encoding R95). -/
def wordJ (n : Int) (rd : RegNum) : Word :=
  let imm := BitVec.ofInt 21 n
  imm.extractLsb' 20 1 ++ imm.extractLsb' 1 10 ++ imm.extractLsb' 11 1 ++ imm.extractLsb' 12 8 ++
    regBits rd ++ (0x6f#7)

/-- The word of an instruction, its immediate cut to its field (30_encoding R95); nop has none. -/
def Instr.wordBits : Instr → Option Word
  | .add rd a b => some (wordR 0x00 (regBits b) a 0 rd 0x33)
  | .sub rd a b => some (wordR 0x20 (regBits b) a 0 rd 0x33)
  | .and rd a b => some (wordR 0x00 (regBits b) a 7 rd 0x33)
  | .or rd a b => some (wordR 0x00 (regBits b) a 6 rd 0x33)
  | .xor rd a b => some (wordR 0x00 (regBits b) a 4 rd 0x33)
  | .slt rd a b => some (wordR 0x00 (regBits b) a 2 rd 0x33)
  | .sll rd a b => some (wordR 0x00 (regBits b) a 1 rd 0x33)
  | .srl rd a b => some (wordR 0x00 (regBits b) a 5 rd 0x33)
  | .sra rd a b => some (wordR 0x20 (regBits b) a 5 rd 0x33)
  | .addi rd a n => some (wordI n a 0 rd 0x13)
  | .andi rd a n => some (wordI n a 7 rd 0x13)
  | .ori rd a n => some (wordI n a 6 rd 0x13)
  | .slti rd a n => some (wordI n a 2 rd 0x13)
  | .slli rd a n => some (wordR 0x00 (BitVec.ofInt 5 n) a 1 rd 0x13)
  | .srli rd a n => some (wordR 0x00 (BitVec.ofInt 5 n) a 5 rd 0x13)
  | .srai rd a n => some (wordR 0x20 (BitVec.ofInt 5 n) a 5 rd 0x13)
  | .lui rd n => some (wordU n rd 0x37)
  | .auipc rd n => some (wordU n rd 0x17)
  | .beq a b n => some (wordB n a b 0)
  | .bne a b n => some (wordB n a b 1)
  | .blt a b n => some (wordB n a b 4)
  | .bge a b n => some (wordB n a b 5)
  | .bltu a b n => some (wordB n a b 6)
  | .bgeu a b n => some (wordB n a b 7)
  | .jal rd n => some (wordJ n rd)
  | .jalr rd a n => some (wordI n a 0 rd 0x67)
  | .lw rd a n => some (wordI n a 2 rd 0x03)
  | .sw b a n => some (wordS n b a 2 0x23)
  | .nop => none

/-- The encoder: the word of an instruction that has one (30_encoding R95, R96). -/
def encodeWord (i : Instr) : Option Word := if i.encodable then i.wordBits else none

/-- What the word decoder reads from an instruction whose bits are `w`, numbered as opcode_table.json numbers them:
one 32-bit word, so a word of more than 32 bits is no instruction. The layouts of 30_encoding R95 are 32 bits wide and
say nothing of fewer bits. DESIGN CHOICE (log entry 13): bits not handed over read as 0. -/
def decodeTableWord (nbits w : Nat) : Option Instr :=
  if nbits ≤ 32 ∧ w < 2 ^ nbits then
    match decodeWord (BitVec.ofNat 32 w) with
    | .ok i => some i
    | .error _ => none
  else none

end Sys2Proof
end

