-- ==== Sys2Proof/Machine/State.lean ====
section
/-! DEFINITION. The state of the core, as plain data (10_state), the reasons a step or a host call can stop, and the
state right after reset (70 R330). -/

namespace Sys2Proof.Machine

/-- ALU operations (40_control_unit R110). -/
inductive ALUOp where
  | ADD | SUB | AND | OR | XOR | SLT | SLL | SRL | SRA | LUI | AUIPC | BRANCH | JUMP | NONE
  deriving DecidableEq, Repr

/-- Control signals (40_control_unit R110). -/
structure ControlSignals where
  regWrite : Bool
  memRead  : Bool
  memWrite : Bool
  memToReg : Bool
  aluSrc   : Bool
  branch   : Bool
  aluOp    : ALUOp
  deriving DecidableEq, Repr

/-- The Instruction record (30_encoding R80): its address, and the instruction, whose opcode, kind, rd, rs1, rs2 and
imm are functions of it (R81). -/
structure Record where
  address : Word
  op      : Instr
  deriving DecidableEq, Repr

/-- A pipeline snapshot (10_state R31). `none` is `absent`. -/
structure Snapshot where
  record          : Record
  pc              : Word
  rs1Val          : Option Word := none
  rs2Val          : Option Word := none
  imm             : Option Word := none
  rd              : Option RegNum := none
  controlSignals  : Option ControlSignals := none
  predictedTaken  : Option Bool := none
  predictedTarget : Option Word := none
  aluResult       : Option Word := none
  branchTaken     : Option Bool := none
  targetAddress   : Option Word := none
  flushRequired   : Option Bool := none
  memData         : Option Word := none
  deriving DecidableEq, Repr

/-- The bubble `NOP(p)` (10_state R33): the synthetic nop with address p, pc p, every other field absent. -/
def bubble (p : Word) : Snapshot := { record := { address := p, op := .nop }, pc := p }

/-- The metrics counters (10_state R42). -/
structure Metrics where
  cyclesTotal         : Nat
  instructionsRetired : Nat
  branchesTotal       : Nat
  branchesCorrect     : Nat
  deriving DecidableEq, Repr

/-- The fatal errors and their info (60_exceptions R300 to R304, 92 D24). The spec gives UnsupportedOperationError no
info of its own. DESIGN CHOICE (log entry 14): the text of the opcode that was asked for. -/
inductive FatalError where
  | decodeError (line : Nat) (text : Text)
  | registerError (name : Text)
  | memoryAccessError (address : Word)
  | unsupportedOperationError (opcode : Text)
  deriving DecidableEq, Repr

/-- The run status (10_state R46). -/
inductive RunStatus where
  | running
  | faulted (e : FatalError)
  deriving DecidableEq, Repr

/-- The state of the core (10_state). `cfg` is the configuration the instance was made with (00 R8): an input of the
model that no step writes (log entry 1). `bp`, `imem` and `dmem` are lists in canonical form (strictly rising keys, no
entry equal to what an unlisted key reads as): `bp` from instruction-memory word index to bit, unlisted 0; `imem` from
slot index to record, unlisted empty; `dmem` from byte address to byte, unlisted 0 (log entry 4). -/
structure State where
  cfg     : Config
  regs    : Vector Word 32
  pc      : Word
  ifId    : Snapshot
  idEx    : Snapshot
  exMem   : Snapshot
  memWb   : Snapshot
  bp      : List (Nat × Bool)
  imem    : List (Nat × Record)
  dmem    : List Host.Cell
  metrics : Metrics
  status  : RunStatus
  deriving DecidableEq, Repr

/-- Why the machine stops. -/
inductive Fault where
  /-- A cycle was asked for while the run status is `faulted`: "no further cycle runs" (47 R263). Raised by the commit
  of every cycle. Safe. -/
  | halted (e : FatalError)
  /-- A host call failed with this error (60 R300): load_program (DecodeError), preload_registers (RegisterError),
  preload_data_memory or a data dump (MemoryAccessError). Raised by Machine/Driver.lean only. Safe. -/
  | hostCallFailed (e : FatalError)
  deriving DecidableEq, Repr

/-- What the model has no meaning for. -/
inductive Refusal where
  /-- An instruction without a meaning yet. Raised by arms of `exec` only; no arm does. Safe. -/
  | notModelled (mnemonic : String)
  /-- A load or preload after the first cycle or after a fatal error, which the spec leaves out (47 R285, 92 D35, 93
  I11). Raised by Machine/Driver.lean only. Safe. -/
  | hostCallOutsideBoot (call : String)
  deriving DecidableEq, Repr

/-- The state after reset of an instance with configuration `c` (70_reset_and_hazards R330). -/
def State.resetWith (c : Config) : State :=
  { cfg := c
    regs := Vector.replicate 32 0
    pc := 0
    ifId := bubble 0
    idEx := bubble 0
    exMem := bubble 0
    memWb := bubble 0
    bp := []
    imem := []
    dmem := []
    metrics := ⟨0, 0, 0, 0⟩
    status := .running }

/-- The machine right after reset (70 R330), in the configuration `Config.default` (log entry 1). -/
def State.reset : State := State.resetWith Config.default

end Sys2Proof.Machine
end

