-- ==== Sys2Proof/Machine/Ops.lean ====
section
/-! DEFINITION. The named operations over the state: sparse memories in canonical form, the register file (10_state
R20 to R24), the data memory (20_memory R61 to R64), the instruction memory (10_state R44), the predictor table
(10_state R40), raising a fatal error (60 R300, R306) and the drained predicate (47 R265). -/

namespace Sys2Proof.Machine

/-! ## Sparse memories: lists from key to value -/

/-- The value listed at a key. -/
def lookup {α : Type} : List (Nat × α) → Nat → Option α
  | [], _ => none
  | (k, v) :: rest, a => if k = a then some v else lookup rest a

/-- The list with `v` at key `a`, keys kept in rising order. -/
def put {α : Type} : List (Nat × α) → Nat → α → List (Nat × α)
  | [], a, v => [(a, v)]
  | (k, x) :: rest, a, v =>
    if a < k then (a, v) :: (k, x) :: rest
    else if a = k then (a, v) :: rest
    else (k, x) :: put rest a v

/-- The list without key `a`. -/
def erase {α : Type} : List (Nat × α) → Nat → List (Nat × α)
  | [], _ => []
  | (k, x) :: rest, a => if k = a then rest else (k, x) :: erase rest a

/-- The value at a key, where an unlisted key reads as `d`. -/
def readAt {α : Type} (d : α) (m : List (Nat × α)) (a : Nat) : α := (lookup m a).getD d

/-- Writing a value, where writing what an unlisted key reads as removes the entry. -/
def writeAt {α : Type} [DecidableEq α] (d : α) (m : List (Nat × α)) (a : Nat) (v : α) : List (Nat × α) :=
  if v = d then erase m a else put m a v

/-- Keys strictly rising. -/
abbrev KeysRise {α : Type} (m : List (Nat × α)) : Prop := m.Pairwise fun p q => p.1 < q.1

/-- The canonical form: keys strictly rising, no entry equal to what an unlisted key reads as. -/
abbrev Canonical {α : Type} (d : α) (m : List (Nat × α)) : Prop := KeysRise m ∧ ∀ p ∈ m, p.2 ≠ d

/-! ## Registers (10_state R20 to R24) -/

/-- Read of register r: x0 always reads 0 (10_state R21). -/
def readReg (regs : Vector Word 32) (r : RegNum) : Word := if r = 0 then 0 else regs[r]

/-- Write of register r: a write to x0 is dropped (10_state R21). -/
def writeReg (regs : Vector Word 32) (r : RegNum) (v : Word) : Vector Word 32 :=
  if r = 0 then regs else regs.set r v

/-! ## Data memory (20_memory R61 to R65) -/

/-- What an unlisted byte of data memory reads as: 0, the reset contents (10_state R45). -/
def unlistedByte : Byte := 0

/-- The canonical form of the data memory. -/
abbrev Memory.Wf (m : List Host.Cell) : Prop := Canonical unlistedByte m

/-- One byte of the data memory. -/
def readByte (m : List Host.Cell) (a : Nat) : Byte := readAt unlistedByte m a

/-- The word at byte address `a`, in four cells. The core has no byte order (20_memory R66): which cell holds which
byte is unobservable. DESIGN CHOICE (log entry 4), safe: the least significant byte in the lowest cell. -/
def readWord (m : List Host.Cell) (a : Nat) : Word :=
  readByte m (a + 3) ++ readByte m (a + 2) ++ readByte m (a + 1) ++ readByte m a

/-- The word at byte address `a` replaced. -/
def writeWord (m : List Host.Cell) (a : Nat) (v : Word) : List Host.Cell :=
  let m0 := writeAt unlistedByte m a (v.extractLsb' 0 8)
  let m1 := writeAt unlistedByte m0 (a + 1) (v.extractLsb' 8 8)
  let m2 := writeAt unlistedByte m1 (a + 2) (v.extractLsb' 16 8)
  writeAt unlistedByte m2 (a + 3) (v.extractLsb' 24 8)

/-- An access at byte address `a` to a memory of `words` words is legal: aligned and in range (20_memory R62,
44 R191). -/
abbrev LegalAddress (words : Nat) (a : Word) : Prop := a.toNat % 4 = 0 ∧ a.toNat < 4 * words

/-- `MemRead(a, 4)` (20_memory R62). -/
def memRead (dmemWords : Nat) (m : List Host.Cell) (a : Word) : Except FatalError Word :=
  if LegalAddress dmemWords a then .ok (readWord m a.toNat) else .error (.memoryAccessError a)

/-- `MemWrite(a, 4, v)` (20_memory R62): an illegal access does not touch memory. -/
def memWrite (dmemWords : Nat) (m : List Host.Cell) (a v : Word) : Except FatalError (List Host.Cell) :=
  if LegalAddress dmemWords a then .ok (writeWord m a.toNat v) else .error (.memoryAccessError a)

/-! ## Instruction memory (10_state R44) -/

/-- The record in the slot at byte address `p`, or nothing. -/
def imemAt (m : List (Nat × Record)) (p : Word) : Option Record := lookup m (p.toNat / 4)

/-! ## Branch predictor table (10_state R40, 46 R241, R242) -/

/-- The predictor bit for the instruction at `p`: `BP[p/4]` (10_state R40). -/
def bpBit (bp : List (Nat × Bool)) (p : Word) : Bool := readAt false bp (p.toNat / 4)

/-- The predictor table with the bit for `p` overwritten (46 R242). -/
def bpSet (bp : List (Nat × Bool)) (p : Word) (b : Bool) : List (Nat × Bool) := writeAt false bp (p.toNat / 4) b

/-! ## Fatal errors and termination -/

/-- A fatal error raised in a cycle: nothing of the cycle commits and the run status becomes `faulted` (47 R263,
60 R300, R306). It is no trap: nothing is saved, and only reset leaves it (60 R309). DEDUCED (log entry 9): the cycle
that raises it answers a next state, and the step after it answers `halted`. -/
def raiseFatal (s : State) (e : FatalError) : State := { s with status := .faulted e }

/-- All four snapshots hold opcode `nop` (47 R265). -/
def drained (s : State) : Bool :=
  decide (s.ifId.record.op = .nop) && decide (s.idEx.record.op = .nop) &&
  decide (s.exMem.record.op = .nop) && decide (s.memWb.record.op = .nop)

end Sys2Proof.Machine
end

