-- ==== Sys2Proof/Machine/Control.lean ====
section
/-! DEFINITION. The control unit (40_control_unit): a pure, total function of the opcode, and its direct call by
name. -/

namespace Sys2Proof.Machine

/-- R-type row of 40 R111. -/
def signalsR (op : ALUOp) : ControlSignals := ⟨true, false, false, false, false, false, op⟩

/-- I-type arithmetic and U-type row of 40 R111. -/
def signalsImm (op : ALUOp) : ControlSignals := ⟨true, false, false, false, true, false, op⟩

/-- B-type row of 40 R111. -/
def signalsBranch : ControlSignals := ⟨false, false, false, false, false, true, .BRANCH⟩

/-- jal and jalr row of 40 R111. -/
def signalsJump : ControlSignals := ⟨true, false, false, false, true, true, .JUMP⟩

/-- `generate_signals` (40 R111, R112). -/
def generateSignals : Opcode → ControlSignals
  | .add => signalsR .ADD
  | .sub => signalsR .SUB
  | .and => signalsR .AND
  | .or => signalsR .OR
  | .xor => signalsR .XOR
  | .slt => signalsR .SLT
  | .sll => signalsR .SLL
  | .srl => signalsR .SRL
  | .sra => signalsR .SRA
  | .addi => signalsImm .ADD
  | .andi => signalsImm .AND
  | .ori => signalsImm .OR
  | .slti => signalsImm .SLT
  | .slli => signalsImm .SLL
  | .srli => signalsImm .SRL
  | .srai => signalsImm .SRA
  | .lw => ⟨true, true, false, true, true, false, .ADD⟩
  | .sw => ⟨false, false, true, false, true, false, .ADD⟩
  | .beq => signalsBranch
  | .bne => signalsBranch
  | .blt => signalsBranch
  | .bge => signalsBranch
  | .bltu => signalsBranch
  | .bgeu => signalsBranch
  | .jal => signalsJump
  | .jalr => signalsJump
  | .lui => signalsImm .LUI
  | .auipc => signalsImm .AUIPC
  | .nop => ⟨false, false, false, false, false, false, .NONE⟩

/-- `generate_signals` called directly with an opcode's name: the 28 and `nop`, else UnsupportedOperationError (40
R113), whose info is that name: DESIGN CHOICE (log entry 14). -/
def generateSignalsOf (name : Text) : Except FatalError ControlSignals :=
  match (programOpcodes ++ [Opcode.nop]).find? fun o => o.text == name with
  | some o => .ok (generateSignals o)
  | none => .error (.unsupportedOperationError name)

/-- The control signals of a snapshot: its field, or, while that is absent, the opcode's own, of which the field is a
copy (10_state R32, R33). For a bubble they are all false (40 R112). -/
def signalsOf (e : Snapshot) : ControlSignals :=
  match e.controlSignals with
  | some c => c
  | none => generateSignals e.record.op.opcode

end Sys2Proof.Machine
end

