-- ==== Sys2Proof/Machine/Flags.lean ====
section
/-! DEFINITION. The core has NO status flags and no condition codes (10_state R28), and no ALU operation sets one (41
R127): this file holds what other machines compute flags for, the number notation of 00_scope R10 and the branch
comparisons of 42 R160 to R165. -/

namespace Sys2Proof.Machine

/-- `wrap(n)`: n mod 2^32 (00_scope R10). -/
def wrap (n : Int) : Word := BitVec.ofInt 32 n

/-- `signed(v)` (00_scope R10). -/
def signed (v : Word) : Int := if v.toNat < 2 ^ 31 then (v.toNat : Int) else (v.toNat : Int) - 2 ^ 32

/-- `unsigned(v)` (00_scope R10). -/
def unsigned (v : Word) : Int := (v.toNat : Int)

/-- beq: equal (42 R160). -/
def condEq (a b : Word) : Bool := decide (a = b)

/-- bne: not equal (42 R161). -/
def condNe (a b : Word) : Bool := decide (a ≠ b)

/-- blt: signed less than (42 R162). -/
def condLt (a b : Word) : Bool := decide (signed a < signed b)

/-- bge: signed greater or equal (42 R163). -/
def condGe (a b : Word) : Bool := decide (signed b ≤ signed a)

/-- bltu: unsigned less than (42 R164). -/
def condLtu (a b : Word) : Bool := decide (unsigned a < unsigned b)

/-- bgeu: unsigned greater or equal (42 R165). -/
def condGeu (a b : Word) : Bool := decide (unsigned b ≤ unsigned a)

end Sys2Proof.Machine
end

