-- ==== Sys2Proof/Machine/Operands.lean ====
section
/-! DEFINITION. Operand forms: the immediate word (30_encoding R86), a snapshot's fields read as values, the write-back
value (44 R200), the ALU operands (41 R125), and the snapshot that the Execute slot presents to an instruction. -/

namespace Sys2Proof.Machine

/-- The immediate in the pipeline: `wrap(imm)`, neither scaled nor shifted (30_encoding R86). -/
def immWord (i : Instr) : Option Word := i.imm.map wrap

/-- A snapshot's `rs1_val` as a value (log entry 2 for an absent one). -/
def rs1Of (e : Snapshot) : Word := e.rs1Val.getD (Config.absentWord .rs1Val)

/-- A snapshot's `rs2_val` as a value. -/
def rs2Of (e : Snapshot) : Word := e.rs2Val.getD (Config.absentWord .rs2Val)

/-- A snapshot's `imm` as a value. -/
def immOf (e : Snapshot) : Word := e.imm.getD (Config.absentWord .imm)

/-- A snapshot's `alu_result` as a value. -/
def aluResultOf (e : Snapshot) : Word := e.aluResult.getD (Config.absentWord .aluResult)

/-- A snapshot's `mem_data` as a value. -/
def memDataOf (e : Snapshot) : Word := e.memData.getD (Config.absentWord .memData)

/-- `wbval(W)`: `mem_data` if MemToReg, else `alu_result` (44 R200). -/
def wbval (w : Snapshot) : Word := if (signalsOf w).memToReg then memDataOf w else aluResultOf w

/-- The second ALU operand: `imm` when ALUSrc is 1, else `rs2_val` (41 R125, 44 R196). -/
def aluOperandB (e : Snapshot) : Word := if (signalsOf e).aluSrc then immOf e else rs2Of e

/-- The snapshot in the Execute slot as the instruction `i` sees it: the fields that are functions of the instruction
(30_encoding R81, R86, 40 R111) are i's own. When the slot holds `i` as Decode left it, this is that snapshot itself.
A nop sees a bubble. DEDUCED (log entry 5). -/
def holding (i : Instr) (e : Snapshot) : Snapshot :=
  match i with
  | .nop => if e.record.op = .nop then e else bubble e.pc
  | i =>
    { e with
      record := { e.record with op := i }
      rd := i.rd
      imm := immWord i
      controlSignals := some (generateSignals i.opcode) }

end Sys2Proof.Machine
end

