-- ==== Sys2Proof/Machine/Alu.lean ====
section
/-! DEFINITION. The ALU function (41_integer_alu R126), computed on integers and narrowed at the end. -/

namespace Sys2Proof.Machine

/-- The shift amount: the bits of `b` under the mask, which is 31 (`b[4:0]`) unless the parameter SHIFT_MASK says
otherwise (41 R126, 92 D3, 93 I3). -/
def shiftAmount (mask b : Word) : Nat := (b &&& mask).toNat

/-- `alu(op, a, b, pc)` (41 R126); BRANCH, JUMP and NONE are no ALU operations. -/
def alu (mask : Word) (op : ALUOp) (a b pc : Word) : Option Word :=
  match op with
  | .ADD => some (wrap (unsigned a + unsigned b))
  | .SUB => some (wrap (unsigned a - unsigned b))
  | .AND => some (a &&& b)
  | .OR => some (a ||| b)
  | .XOR => some (a ^^^ b)
  | .SLT => some (if signed a < signed b then 1 else 0)
  | .SLL => some (wrap (unsigned a * 2 ^ shiftAmount mask b))
  | .SRL => some (wrap (unsigned a / 2 ^ shiftAmount mask b))
  | .SRA => some (wrap (signed a / 2 ^ shiftAmount mask b))
  | .LUI => some (wrap (signed b * 2 ^ 12))
  | .AUIPC => some (wrap (unsigned pc + signed b * 2 ^ 12))
  | .BRANCH => none
  | .JUMP => none
  | .NONE => none

end Sys2Proof.Machine
end

