-- ==== Sys2Proof/Machine/Hazard.lean ====
section
/-! DEFINITION. The hazard detection unit and the forwarding multiplexer (45_hazard_forwarding). -/

namespace Sys2Proof.Machine

/-- A source's forwarding tag (45 R225). -/
inductive ForwardSource where
  | none | ex | mem
  deriving DecidableEq, Repr

/-- The hazard result `HZ` (45 R225). -/
structure Hazard where
  stall     : Bool
  rs1Source : ForwardSource
  rs2Source : ForwardSource
  deriving DecidableEq, Repr

/-- `HZ` without a hazard unit (45 R225). -/
def noHazard : Hazard := ⟨false, .none, .none⟩

/-- `dst(S)`: the destination register, when present and not x0 (45 R221). -/
def dst (e : Snapshot) : Option RegNum := e.record.op.rd.filter fun r => r ≠ 0

/-- Register `r` is one of `srcs(F)`: a present source of F that is not x0 (45 R221). -/
def isSource (f : Snapshot) (r : RegNum) : Bool :=
  decide (r ≠ 0) && (decide (f.record.op.rs1 = some r) || decide (f.record.op.rs2 = some r))

/-- The load-use stall (45 R222). -/
def loadUseStall (f e : Snapshot) : Bool :=
  decide (e.record.op.opcode = .lw) &&
    match dst e with
    | some r => isSource f r
    | none => false

/-- The forwarding tag of one source field (45 R223): the closer producer wins. -/
def forwardTag (k : Option RegNum) (x w : Snapshot) : ForwardSource :=
  match k with
  | none => .none
  | some r =>
    if r = 0 then .none
    else if dst x = some r then .ex
    else if dst w = some r then .mem
    else .none

/-- The hazard unit: a pure function of the four snapshots after the redirect phase (45 R220 to R224). -/
def hazard (f e x w : Snapshot) : Hazard :=
  { stall := loadUseStall f e
    rs1Source := forwardTag f.record.op.rs1 x w
    rs2Source := forwardTag f.record.op.rs2 x w }

/-- `fwd_EX` (45 R226): for a load, the word the Memory stage reads in the same cycle, else `alu_result`. Where that
read is illegal the cycle raises a fatal error and commits nothing, so the value is then never used. DEDUCED (log
entry 11). -/
def fwdEx (s : State) : Word :=
  if (signalsOf s.exMem).memToReg then
    match memRead s.cfg.dmemWords s.dmem (aluResultOf s.exMem) with
    | .ok v => v
    | .error _ => memDataOf s.exMem
  else aluResultOf s.exMem

/-- `fwd_MEM` (45 R226). -/
def fwdMem (s : State) : Word := wbval s.memWb

/-- `operand(r, src)` (44 R194). -/
def operand (s : State) (r : RegNum) (src : ForwardSource) : Word :=
  match src with
  | .ex => fwdEx s
  | .mem => fwdMem s
  | .none => readReg s.regs r

/-- Forwarding is applied in Execute: the alternative reading of 45 R231, in a configuration with the hazard unit. -/
def forwardsAtExecute (c : Config) : Bool := c.hasHazardUnit && decide (c.fwdPoint = .execute)

/-- Decode's read of a source under `FWD_POINT = execute` (45 R231): the same cycle's write-back is bypassed. -/
def bypassedRead (s : State) (r : RegNum) : Word :=
  if dst s.memWb = some r then wbval s.memWb else readReg s.regs r

/-- Decode's read of source `r` with tag `src` (44 R194, 45 R231). -/
def decodeOperand (s : State) (r : RegNum) (src : ForwardSource) : Word :=
  if forwardsAtExecute s.cfg then bypassedRead s r else operand s r src

/-- Execute's operand under `FWD_POINT = execute` (45 R231). -/
def executeOperand (s : State) (k : Option RegNum) (v : Option Word) : Option Word :=
  match k with
  | none => v
  | some r =>
    if r = 0 then v
    else if dst s.exMem = some r then some (aluResultOf s.exMem)
    else if dst s.memWb = some r then some (wbval s.memWb)
    else v

/-- What Execute works on: ID_EX1 as it is (45 R228), or, under `FWD_POINT = execute`, with each operand replaced (45
R231). -/
def executeInput (s : State) (e : Snapshot) : Snapshot :=
  if forwardsAtExecute s.cfg then
    { e with
      rs1Val := executeOperand s e.record.op.rs1 e.rs1Val
      rs2Val := executeOperand s e.record.op.rs2 e.rs2Val }
  else e

end Sys2Proof.Machine
end

