-- ==== Sys2Proof/Machine/Predict.lean ====
section
/-! DEFINITION. The branch predictor and the redirect phase (46_branch_prediction). -/

namespace Sys2Proof.Machine

/-- The instructions the predictor predicts, which are those the branch metrics count: B-type and jal (46 R243, 47
R270). -/
def isPredicted : Opcode → Bool
  | .beq | .bne | .blt | .bge | .bltu | .bgeu | .jal => true
  | .add | .sub | .and | .or | .xor | .slt | .sll | .srl | .sra => false
  | .addi | .andi | .ori | .slti | .slli | .srli | .srai => false
  | .lui | .auipc | .jalr | .lw | .sw | .nop => false

/-- `predict(p)` (46 R241). -/
def predict (c : Config) (bp : List (Nat × Bool)) (p : Word) : Bool := c.realPredictor && bpBit bp p

/-- `update(p, actual)` (46 R242). -/
def updatePredictor (c : Config) (bp : List (Nat × Bool)) (p : Word) (actual : Bool) : List (Nat × Bool) :=
  if c.realPredictor then bpSet bp p actual else bp

/-- `flush_required(predicted, actual)` (46 R244); an absent prediction reads as false (46 R243). -/
def flushNeeded (predicted : Option Bool) (actual : Bool) : Bool := predicted.getD false != actual

/-- What the redirect phase gives the rest of the cycle: pc1, IF_ID1 and ID_EX1 (46 R246). -/
structure Redirect where
  pc   : Word
  ifId : Snapshot
  idEx : Snapshot
  deriving DecidableEq, Repr

/-- The target of a pending flush (46 R246, 92 D10). -/
def flushTarget (x : Snapshot) : Word :=
  if x.branchTaken = some true then x.targetAddress.getD (Config.absentWord .targetAddress) else wrap (unsigned x.pc + 4)

/-- The redirect phase, step (1) of every cycle (46 R246): a pending flush first, then a predicted-taken redirect. -/
def redirect (s : State) : Redirect :=
  if s.exMem.flushRequired = some true then
    { pc := flushTarget s.exMem, ifId := bubble s.ifId.pc, idEx := bubble s.idEx.pc }
  else if s.idEx.predictedTaken = some true then
    { pc := s.idEx.predictedTarget.getD (Config.absentWord .predictedTarget)
      ifId := bubble s.ifId.pc, idEx := s.idEx }
  else { pc := s.pc, ifId := s.ifId, idEx := s.idEx }

end Sys2Proof.Machine
end

