-- ==== Sys2Proof/Machine/Cycle.lean ====
section
/-! DEFINITION. One cycle (47 R261): the stages (44_pipeline_stages) and the commit of a cycle around what Execute
computes for the instruction in its slot. The meanings of the instructions are one call of a shared Execute form of
this file each. -/

namespace Sys2Proof.Machine

/-! ## Fetch and Decode (44 R191 to R195, R202, R203) -/

/-- Fetch at `p` (44 R191): the snapshot for IF_ID. -/
def fetch (s : State) (p : Word) : Except FatalError Snapshot :=
  if LegalAddress s.cfg.imemWords p then
    match imemAt s.imem p with
    | some r => .ok { record := r, pc := p }
    | none => .ok (bubble p)
  else .error (.memoryAccessError p)

/-- The prediction at Decode (46 R243). -/
def predictedTakenAt (s : State) (f : Snapshot) : Option Bool :=
  if isPredicted f.record.op.opcode then some (predict s.cfg s.bp f.pc) else none

/-- The predicted target, filled only when the prediction is taken (46 R243). -/
def predictedTargetAt (s : State) (f : Snapshot) : Option Word :=
  if predictedTakenAt s f = some true then
    (immWord f.record.op).map fun n => wrap (unsigned f.pc + unsigned n)
  else none

/-- Decode of `f` (44 R193). A nop gets its control signals and nothing else: R190 says that it fills nothing, R193 that
it fills them. DEDUCED (log entry 8). -/
def decodeStage (s : State) (hz : Hazard) (f : Snapshot) : Snapshot :=
  if f.record.op = .nop then { f with controlSignals := some (generateSignals .nop) }
  else
    { f with
      controlSignals := some (generateSignals f.record.op.opcode)
      rd := f.record.op.rd
      imm := immWord f.record.op
      rs1Val := f.record.op.rs1.map fun r => decodeOperand s r hz.rs1Source
      rs2Val := f.record.op.rs2.map fun r => decodeOperand s r hz.rs2Source
      predictedTaken := predictedTakenAt s f
      predictedTarget := predictedTargetAt s f }

/-- The hazard result of the cycle (45 R225, 47 R261). -/
def hazardOf (s : State) (r : Redirect) : Hazard :=
  if s.cfg.hasHazardUnit then hazard r.ifId r.idEx s.exMem s.memWb else noHazard

/-- The pc and the first two pipeline registers after a stall (44 R203): no fetch, the pc kept. -/
def stalled (r : Redirect) : Redirect := { pc := r.pc, ifId := r.ifId, idEx := bubble r.ifId.pc }

/-- The pc and the first two pipeline registers after the cycle (44 R202, R203, R205). -/
def frontEnd (s : State) (r : Redirect) : Except FatalError Redirect :=
  if (hazardOf s r).stall then .ok (stalled r)
  else
    match fetch s r.pc with
    | .ok f => .ok { pc := wrap (unsigned r.pc + 4), ifId := f, idEx := decodeStage s (hazardOf s r) r.ifId }
    | .error e => .error e

/-! ## Memory and Write-Back (44 R198 to R201) -/

/-- The load part of the Memory stage (44 R198). -/
def memoryLoad (s : State) (x : Snapshot) : Except FatalError Snapshot :=
  if (signalsOf x).memRead then
    match memRead s.cfg.dmemWords s.dmem (aluResultOf x) with
    | .ok v => .ok { x with memData := some v }
    | .error e => .error e
  else .ok x

/-- The store part of the Memory stage (44 R198): the data memory after it. -/
def memoryStore (s : State) (x : Snapshot) : Except FatalError (List Host.Cell) :=
  if (signalsOf x).memWrite then memWrite s.cfg.dmemWords s.dmem (aluResultOf x) (rs2Of x)
  else .ok s.dmem

/-- What the Memory stage produces (44 R198): MEM_WB' and the data memory. -/
structure MemoryResult where
  memWb : Snapshot
  dmem  : List Host.Cell
  deriving DecidableEq, Repr

/-- The Memory stage of `x` (44 R198). -/
def memoryStage (s : State) (x : Snapshot) : Except FatalError MemoryResult :=
  match memoryLoad s x, memoryStore s x with
  | .ok w, .ok m => .ok ⟨w, m⟩
  | .error e, _ => .error e
  | _, .error e => .error e

/-- Write-Back of `w` (44 R200): the register file after it. -/
def writeBack (regs : Vector Word 32) (w : Snapshot) : Vector Word 32 :=
  if (signalsOf w).regWrite then
    match w.rd with
    | some r => writeReg regs r (wbval w)
    | none => regs
  else regs

/-- The instruction in `w` retires when it is written back (44 R200). -/
def retires (w : Snapshot) : Bool := decide (w.record.op ≠ .nop)

/-! ## Execute and the commit of a cycle -/

/-- What Execute produces (44 R196): EX_MEM', and the outcome the predictor is updated with, for the instructions that
update it (46 R247). -/
structure Executed where
  exMem : Snapshot
  train : Option Bool
  deriving DecidableEq, Repr

/-- The metrics after a committed cycle (47 R270): `e` is ID_EX1, `x` is EX_MEM'. -/
def countCycle (m : Metrics) (memWb e x : Snapshot) : Metrics :=
  { cyclesTotal := m.cyclesTotal + 1
    instructionsRetired := m.instructionsRetired + (if retires memWb then 1 else 0)
    branchesTotal := m.branchesTotal + (if isPredicted e.record.op.opcode then 1 else 0)
    branchesCorrect :=
      m.branchesCorrect + (if isPredicted e.record.op.opcode && decide (x.flushRequired = some false) then 1 else 0) }

/-- The predictor table after the cycle (46 R242, R247). -/
def trainedTable (s : State) (e : Snapshot) (train : Option Bool) : List (Nat × Bool) :=
  match train with
  | some actual => updatePredictor s.cfg s.bp e.pc actual
  | none => s.bp

/-- The redirect phase with `i` as the instruction in the Execute slot. -/
def slotsFor (i : Instr) (s : State) : Redirect :=
  let r := redirect s
  { r with idEx := holding i r.idEx }

/-- The state a cycle commits (47 R261, R262): `fe` from Fetch and Decode, `m` from Memory, `x` from Execute; every
read saw the state `s`. -/
def committed (s : State) (r fe : Redirect) (m : MemoryResult) (x : Executed) : State :=
  { s with
    regs := writeBack s.regs s.memWb
    pc := fe.pc
    ifId := fe.ifId
    idEx := fe.idEx
    exMem := x.exMem
    memWb := m.memWb
    bp := trainedTable s r.idEx x.train
    dmem := m.dmem
    metrics := countCycle s.metrics s.memWb r.idEx x.exMem }

/-- The rest of the cycle and its commit (47 R261 to R263). A fatal error commits nothing but the run status, Fetch's
before Memory's (60 R305); a faulted machine runs no cycle (47 R263). -/
def commit (s : State) (r : Redirect) (x : Executed) : Host.Outcome State Fault Refusal :=
  match s.status with
  | .faulted e => .fault (.halted e)
  | .running =>
    match frontEnd s r with
    | .error e => .next (raiseFatal s e)
    | .ok fe =>
      match memoryStage s s.exMem with
      | .error e => .next (raiseFatal s e)
      | .ok m => .next (committed s r fe m x)

/-- Execute's ALU part (44 R196, 41 R126). -/
def executeAlu (c : Config) (e : Snapshot) : Executed :=
  match alu c.shiftMask (signalsOf e).aluOp (rs1Of e) (aluOperandB e) e.pc with
  | some v => { exMem := { e with aluResult := some v }, train := none }
  | none => { exMem := e, train := none }

/-- The target of a branch or a jal: `wrap(pc + imm)` (42 R168). -/
def relativeTarget (e : Snapshot) : Word := wrap (unsigned e.pc + unsigned (immOf e))

/-- The target of a jalr: `wrap(rs1 + imm) AND 0xFFFFFFFE` (42 R168). -/
def registerTarget (e : Snapshot) : Word := wrap (unsigned (rs1Of e) + unsigned (immOf e)) &&& 0xFFFFFFFE

/-- The link value `wrap(pc + 4)` (42 R168). -/
def linkValue (e : Snapshot) : Word := wrap (unsigned e.pc + 4)

/-- Execute of a conditional branch (42 R168, 46 R247): outcome, target, prediction check, predictor update; the ALU
result stays absent. -/
def executeBranch (taken : Bool) (e : Snapshot) : Executed :=
  { exMem :=
      { e with
        branchTaken := some taken
        targetAddress := some (relativeTarget e)
        flushRequired := some (flushNeeded e.predictedTaken taken) }
    train := some taken }

/-- Execute of jal (42 R166, R168, 46 R247): always taken, the link value as the ALU result. -/
def executeJal (e : Snapshot) : Executed :=
  { exMem :=
      { e with
        aluResult := some (linkValue e)
        branchTaken := some true
        targetAddress := some (relativeTarget e)
        flushRequired := some (flushNeeded e.predictedTaken true) }
    train := some true }

/-- Execute of jalr (42 R167, R168, 46 R248): always taken, always a flush, no predictor update. -/
def executeJalr (e : Snapshot) : Executed :=
  { exMem :=
      { e with
        aluResult := some (linkValue e)
        branchTaken := some true
        targetAddress := some (registerTarget e)
        flushRequired := some true }
    train := none }

/-- Execute of a bubble: it moves on as it is (44 R196). -/
def executeNop (e : Snapshot) : Executed := { exMem := e, train := none }

/-- The cycle with `i` in the Execute slot, whose Execute stage is `stage`. -/
def cycleWith (i : Instr) (stage : Snapshot → Executed) (s : State) : Host.Outcome State Fault Refusal :=
  commit s (slotsFor i s) (stage (executeInput s (slotsFor i s).idEx))

/-- The cycle that executes an instruction whose Execute stage is the ALU: R-type, I-type arithmetic, U-type, lw, sw
(44 R196). -/
def aluCycle (i : Instr) (s : State) : Host.Outcome State Fault Refusal := cycleWith i (executeAlu s.cfg) s

/-- The cycle that executes a conditional branch with condition `cond` on its two source values (42 R168). -/
def branchCycle (i : Instr) (cond : Word → Word → Bool) (s : State) : Host.Outcome State Fault Refusal :=
  cycleWith i (fun e => executeBranch (cond (rs1Of e) (rs2Of e)) e) s

end Sys2Proof.Machine
end

