-- ==== Sys2Proof/Machine/Branch.lean ====
section
/-! DEFINITION. The conditional branches (42_control_transfer R160 to R165, R168): outcome and target in Execute, the prediction check
and the predictor update with them (46 R247); Memory and Write-Back do nothing. -/

namespace Sys2Proof.Machine

/-- `beq rs1, rs2, imm` (42 R160). -/
def execBeq (rs1 rs2 : RegNum) (imm : Int) (s : State) : Host.Outcome State Fault Refusal :=
  branchCycle (.beq rs1 rs2 imm) condEq s

/-- `bne rs1, rs2, imm` (42 R161). -/
def execBne (rs1 rs2 : RegNum) (imm : Int) (s : State) : Host.Outcome State Fault Refusal :=
  branchCycle (.bne rs1 rs2 imm) condNe s

/-- `blt rs1, rs2, imm` (42 R162). -/
def execBlt (rs1 rs2 : RegNum) (imm : Int) (s : State) : Host.Outcome State Fault Refusal :=
  branchCycle (.blt rs1 rs2 imm) condLt s

/-- `bge rs1, rs2, imm` (42 R163). -/
def execBge (rs1 rs2 : RegNum) (imm : Int) (s : State) : Host.Outcome State Fault Refusal :=
  branchCycle (.bge rs1 rs2 imm) condGe s

/-- `bltu rs1, rs2, imm` (42 R164). -/
def execBltu (rs1 rs2 : RegNum) (imm : Int) (s : State) : Host.Outcome State Fault Refusal :=
  branchCycle (.bltu rs1 rs2 imm) condLtu s

/-- `bgeu rs1, rs2, imm` (42 R165). -/
def execBgeu (rs1 rs2 : RegNum) (imm : Int) (s : State) : Host.Outcome State Fault Refusal :=
  branchCycle (.bgeu rs1 rs2 imm) condGeu s

end Sys2Proof.Machine
end

