-- ==== Sys2Proof/Machine/IType.lean ====
section
/-! DEFINITION. The I-type arithmetic instructions (41_integer_alu R140 to R146): the ALU cycle with the immediate as second operand. -/

namespace Sys2Proof.Machine

/-- `addi rd, rs1, imm` (41 R140), ALU operation ADD. -/
def execAddi (rd rs1 : RegNum) (imm : Int) (s : State) : Host.Outcome State Fault Refusal :=
  aluCycle (.addi rd rs1 imm) s

/-- `andi rd, rs1, imm` (41 R141), ALU operation AND. -/
def execAndi (rd rs1 : RegNum) (imm : Int) (s : State) : Host.Outcome State Fault Refusal :=
  aluCycle (.andi rd rs1 imm) s

/-- `ori rd, rs1, imm` (41 R142), ALU operation OR. -/
def execOri (rd rs1 : RegNum) (imm : Int) (s : State) : Host.Outcome State Fault Refusal :=
  aluCycle (.ori rd rs1 imm) s

/-- `slti rd, rs1, imm` (41 R143), ALU operation SLT. -/
def execSlti (rd rs1 : RegNum) (imm : Int) (s : State) : Host.Outcome State Fault Refusal :=
  aluCycle (.slti rd rs1 imm) s

/-- `slli rd, rs1, imm` (41 R144), ALU operation SLL: the amount is imm[4:0]. -/
def execSlli (rd rs1 : RegNum) (imm : Int) (s : State) : Host.Outcome State Fault Refusal :=
  aluCycle (.slli rd rs1 imm) s

/-- `srli rd, rs1, imm` (41 R145), ALU operation SRL: the amount is imm[4:0]. -/
def execSrli (rd rs1 : RegNum) (imm : Int) (s : State) : Host.Outcome State Fault Refusal :=
  aluCycle (.srli rd rs1 imm) s

/-- `srai rd, rs1, imm` (41 R146), ALU operation SRA: the amount is imm[4:0]. -/
def execSrai (rd rs1 : RegNum) (imm : Int) (s : State) : Host.Outcome State Fault Refusal :=
  aluCycle (.srai rd rs1 imm) s

end Sys2Proof.Machine
end

