-- ==== Sys2Proof/Machine/Jump.lean ====
section
/-! DEFINITION. The jumps (42_control_transfer R166 to R168). -/

namespace Sys2Proof.Machine

/-- `jal rd, imm` (42 R166). -/
def execJal (rd : RegNum) (imm : Int) (s : State) : Host.Outcome State Fault Refusal :=
  cycleWith (.jal rd imm) executeJal s

/-- `jalr rd, imm(rs1)` (42 R167). -/
def execJalr (rd rs1 : RegNum) (imm : Int) (s : State) : Host.Outcome State Fault Refusal :=
  cycleWith (.jalr rd rs1 imm) executeJalr s

end Sys2Proof.Machine
end

