-- ==== Sys2Proof/Machine/LoadStore.lean ====
section
/-! DEFINITION. The load and the store (43_load_store R180, R181): Execute computes the effective address; the Memory stage of the next
cycle makes the access when it finds the instruction's signals in EX_MEM (44 R198); Write-Back writes a loaded word (R200). -/

namespace Sys2Proof.Machine

/-- `lw rd, imm(rs1)` (43 R180): ALU operation ADD gives the effective address. -/
def execLw (rd rs1 : RegNum) (imm : Int) (s : State) : Host.Outcome State Fault Refusal :=
  aluCycle (.lw rd rs1 imm) s

/-- `sw rs2, imm(rs1)` (43 R181): ALU operation ADD gives the effective address; rs2_val is carried into EX_MEM. -/
def execSw (rs2 rs1 : RegNum) (imm : Int) (s : State) : Host.Outcome State Fault Refusal :=
  aluCycle (.sw rs2 rs1 imm) s

end Sys2Proof.Machine
end

