-- ==== Sys2Proof/Machine/Nop.lean ====
section
/-! DEFINITION. The synthetic nop (30_encoding R88, 40 R112): a bubble in the Execute slot. -/

namespace Sys2Proof.Machine

/-- `nop` (30 R88): the cycle in which the Execute slot is empty. -/
def execNop (s : State) : Host.Outcome State Fault Refusal :=
  cycleWith .nop executeNop s

end Sys2Proof.Machine
end

