-- ==== Sys2Proof/Machine/RType.lean ====
section
/-! DEFINITION. The R-type instructions (41_integer_alu R130 to R138). Each is the cycle in which the instruction is in the Execute slot:
Execute puts the ALU result into EX_MEM, Memory does nothing, Write-Back writes it to rd two cycles later (R200). -/

namespace Sys2Proof.Machine

/-- `add rd, rs1, rs2` (41 R130), ALU operation ADD: `wrap(rs1 + rs2)`. -/
def execAdd (rd rs1 rs2 : RegNum) (s : State) : Host.Outcome State Fault Refusal :=
  aluCycle (.add rd rs1 rs2) s

/-- `sub rd, rs1, rs2` (41 R131), ALU operation SUB: `wrap(rs1 - rs2)`. -/
def execSub (rd rs1 rs2 : RegNum) (s : State) : Host.Outcome State Fault Refusal :=
  aluCycle (.sub rd rs1 rs2) s

/-- `and rd, rs1, rs2` (41 R132), ALU operation AND. -/
def execAnd (rd rs1 rs2 : RegNum) (s : State) : Host.Outcome State Fault Refusal :=
  aluCycle (.and rd rs1 rs2) s

/-- `or rd, rs1, rs2` (41 R133), ALU operation OR. -/
def execOr (rd rs1 rs2 : RegNum) (s : State) : Host.Outcome State Fault Refusal :=
  aluCycle (.or rd rs1 rs2) s

/-- `xor rd, rs1, rs2` (41 R134), ALU operation XOR. -/
def execXor (rd rs1 rs2 : RegNum) (s : State) : Host.Outcome State Fault Refusal :=
  aluCycle (.xor rd rs1 rs2) s

/-- `slt rd, rs1, rs2` (41 R135), ALU operation SLT: 1 if signed rs1 < signed rs2, else 0. -/
def execSlt (rd rs1 rs2 : RegNum) (s : State) : Host.Outcome State Fault Refusal :=
  aluCycle (.slt rd rs1 rs2) s

/-- `sll rd, rs1, rs2` (41 R136), ALU operation SLL: the amount is rs2[4:0]. -/
def execSll (rd rs1 rs2 : RegNum) (s : State) : Host.Outcome State Fault Refusal :=
  aluCycle (.sll rd rs1 rs2) s

/-- `srl rd, rs1, rs2` (41 R137), ALU operation SRL: zeros shifted in. -/
def execSrl (rd rs1 rs2 : RegNum) (s : State) : Host.Outcome State Fault Refusal :=
  aluCycle (.srl rd rs1 rs2) s

/-- `sra rd, rs1, rs2` (41 R138), ALU operation SRA: copies of bit 31 shifted in. -/
def execSra (rd rs1 rs2 : RegNum) (s : State) : Host.Outcome State Fault Refusal :=
  aluCycle (.sra rd rs1 rs2) s

end Sys2Proof.Machine
end

