-- ==== Sys2Proof/Machine/UType.lean ====
section
/-! DEFINITION. The U-type instructions (41_integer_alu R150, R151). -/

namespace Sys2Proof.Machine

/-- `lui rd, imm` (41 R150), ALU operation LUI: `wrap(signed(imm) * 2^12)`. -/
def execLui (rd : RegNum) (imm : Int) (s : State) : Host.Outcome State Fault Refusal :=
  aluCycle (.lui rd imm) s

/-- `auipc rd, imm` (41 R151), ALU operation AUIPC: `wrap(pc + signed(imm) * 2^12)`, pc its own address. -/
def execAuipc (rd : RegNum) (imm : Int) (s : State) : Host.Outcome State Fault Refusal :=
  aluCycle (.auipc rd imm) s

end Sys2Proof.Machine
end

