-- ==== Sys2Proof/Machine/Front.lean ====
section
/-! DEFINITION. Which instruction a cycle executes, and an instruction placed so that the next cycle executes it. -/

namespace Sys2Proof.Machine

/-- The instruction in the Execute slot after the redirect phase (46 R246, 47 R261). -/
def executing (s : State) : Instr := (redirect s).idEx.record.op

/-- The slot at the pc holding `i` (44 R191, 47 R280). -/
def withSlot (s : State) (i : Instr) : State :=
  { s with imem := put s.imem (s.pc.toNat / 4) { address := s.pc, op := i } }

/-- `s` with `i` placed at the pc and taken through Fetch and Decode into ID_EX, nothing else in flight ahead of it:
the slot at the pc holds it, IF_ID holds the bubble behind it, EX_MEM holds no instruction (a pending flush there
would squash it, 46 R246), and the pc is two words on (44 R206; log entry 6). -/
def placed (s : State) (i : Instr) : State :=
  { withSlot s i with
    ifId := bubble (wrap (unsigned s.pc + 4))
    idEx := decodeStage s noHazard { record := { address := s.pc, op := i }, pc := s.pc }
    exMem := bubble s.pc
    pc := wrap (unsigned s.pc + 8) }

end Sys2Proof.Machine
end

