-- ==== Sys2Proof/Machine/Step.lean ====
section
/-! DEFINITION. One step is one cycle, `run_one_cycle()` (47 R261): the cycle of the instruction that the redirect
phase leaves in the Execute slot. -/

namespace Sys2Proof.Machine

/-- One cycle (47 R261). -/
def step (s : State) : Host.Outcome State Fault Refusal := exec (executing s) s

/-- The state in which the very next step runs the instruction whose RV32I word is `w` (30_encoding R95): its record
in the slot at the pc, and the pipeline as its Fetch and Decode cycles leave it (log entry 6). A word that is no
instruction is refused at load (30_encoding R89) and changes nothing. -/
def State.withFetchWord (s : State) (nbits w : Nat) : State :=
  match decodeTableWord nbits w with
  | some i => placed s i
  | none => s

end Sys2Proof.Machine
end

