-- ==== Sys2Proof/Machine/Driver.lean ====
section
/-! DEFINITION. The host interface (47 R265 to R271, R280 to R285; 70 R330, R332): reset, load, preload, run and the
read-only dumps. A failing host call answers a fault and no state; a load or preload outside boot is refused. -/

namespace Sys2Proof.Machine

/-- Reset, at any time (70 R330): every piece of state at its reset value, the configuration kept (00 R8). -/
def hostReset (s : State) : State := State.resetWith s.cfg

/-- After reset and before the first cycle (47 R285): no cycle has committed and none has failed. -/
def inBoot (s : State) : Bool := decide (s.metrics.cyclesTotal = 0) && decide (s.status = .running)

/-- The lines from number `n` on, decoded at byte addresses 4n, 4n + 4, …; or the first line that is none (47 R280,
60 R301). -/
def decodeLines (n : Nat) : List Text → Except FatalError (List (Nat × Record))
  | [] => .ok []
  | line :: rest =>
    match decodeLine line with
    | .error _ => .error (.decodeError n line)
    | .ok i =>
      match decodeLines (n + 1) rest with
      | .error e => .error e
      | .ok slots => .ok ((n, { address := wrap (4 * n), op := i }) :: slots)

/-- The first line that has no slot in an instruction memory of `words` words. -/
def firstLineOver (words : Nat) (lines : List Text) : Option Text := lines[words]?

/-- `load_program(lines)` (47 R280). A program of more than IMEM_WORDS lines is a load error of the same kind (92
D19); its info names the first line that has no slot: DESIGN CHOICE (log entry 7). -/
def loadProgram (lines : List Text) (s : State) : Host.Outcome State Fault Refusal :=
  if inBoot s then
    match decodeLines 0 lines with
    | .error e => .fault (.hostCallFailed e)
    | .ok slots =>
      match firstLineOver s.cfg.imemWords lines with
      | some line => .fault (.hostCallFailed (.decodeError s.cfg.imemWords line))
      | none => .next { s with imem := slots }
  else .refused (.hostCallOutsideBoot "load_program")

/-- A preloaded value fits a word, signed or unsigned (47 R281, 92 D20). -/
def preloadable (v : Int) : Bool := decide (-2 ^ 31 ≤ v) && decide (v ≤ 2 ^ 32 - 1)

/-- The register file after a preload map (47 R281). The spec's map has no order. DESIGN CHOICE (log entry 7): it is a
list of pairs, taken in turn, and the first bad pair is the one reported. -/
def preloadedRegs (regs : Vector Word 32) : List (Text × Int) → Except FatalError (Vector Word 32)
  | [] => .ok regs
  | (name, v) :: rest =>
    match parseReg name with
    | .ok r =>
      if preloadable v then preloadedRegs (writeReg regs r (wrap v)) rest else .error (.registerError name)
    | .error _ => .error (.registerError name)

/-- `preload_registers(map)` (47 R281, 60 R303). -/
def preloadRegisters (values : List (Text × Int)) (s : State) : Host.Outcome State Fault Refusal :=
  if inBoot s then
    match preloadedRegs s.regs values with
    | .error e => .fault (.hostCallFailed e)
    | .ok regs => .next { s with regs := regs }
  else .refused (.hostCallOutsideBoot "preload_registers")

/-- The data memory after a preload map (47 R282). DESIGN CHOICE (log entry 7): as for `preloadedRegs`, a list of pairs
taken in turn, the first bad pair reported with its address. -/
def preloadedMem (words : Nat) (m : List Host.Cell) : List (Word × Int) → Except FatalError (List Host.Cell)
  | [] => .ok m
  | (a, v) :: rest =>
    if preloadable v then
      match memWrite words m a (wrap v) with
      | .ok m' => preloadedMem words m' rest
      | .error e => .error e
    else .error (.memoryAccessError a)

/-- `preload_data_memory(map)` (47 R282, 60 R302). -/
def preloadDataMemory (values : List (Word × Int)) (s : State) : Host.Outcome State Fault Refusal :=
  if inBoot s then
    match preloadedMem s.cfg.dmemWords s.dmem values with
    | .error e => .fault (.hostCallFailed e)
    | .ok m => .next { s with dmem := m }
  else .refused (.hostCallOutsideBoot "preload_data_memory")

/-- `run_one_cycle()`'s answer (47 R265): the outcome of the cycle, and whether the pipeline has drained after it. -/
def runOneCycle (s : State) : Host.Outcome (State × Bool) Fault Refusal :=
  match step s with
  | .next t => .next (t, drained t)
  | .fault f => .fault f
  | .refused r => .refused r

/-- The pacing modes of 47 R284, which the core does not read. -/
inductive RunMode where
  | full | step | delay
  deriving DecidableEq, Repr

/-- How a bounded run ends. -/
inductive RunEnd where
  | drained (s : State)                   -- the first state after a cycle with the pipeline drained (47 R266)
  | failed (e : FatalError) (s : State)   -- a fatal error ended the run (47 R263)
  | unfinished (s : State)                -- the bound was reached first (93 I12)
  | notRun (f : Fault)                    -- the status was not running: no cycle (47 R285)
  | refused (r : Refusal)                 -- an instruction without a meaning
  deriving DecidableEq, Repr

/-- `run()` (47 R266) for at most `n` cycles (93 I12: the host bounds a run that does not drain; log entry 12). The first cycle is
always performed (92 D28). -/
def runBounded : Nat → State → RunEnd
  | 0, s => .unfinished s
  | n + 1, s =>
    match step s with
    | .fault f => .notRun f
    | .refused r => .refused r
    | .next t =>
      match t.status with
      | .faulted e => .failed e t
      | .running => if drained t then .drained t else runBounded n t

/-- `run(mode, delay_seconds)` (47 R284): every mode behaves as `run()`. -/
def run (_mode : RunMode) (_delaySeconds : Nat) (n : Nat) (s : State) : RunEnd := runBounded n s

/-- `dump_pipeline()`: IF_ID, ID_EX, EX_MEM, MEM_WB (47 R283). -/
def dumpPipeline (s : State) : List Snapshot := [s.ifId, s.idEx, s.exMem, s.memWb]

/-- `registers.dump()`: x0 to x31 (47 R283). -/
def dumpRegisters (s : State) : List Word := (List.finRange 32).map fun r => readReg s.regs r

/-- `n` words from byte address `a` up in steps of 4. -/
def dumpWords (s : State) : Nat → Word → Except FatalError (List Word)
  | 0, _ => .ok []
  | n + 1, a =>
    match memRead s.cfg.dmemWords s.dmem a, dumpWords s n (a + 4) with
    | .ok v, .ok rest => .ok (v :: rest)
    | .error e, _ => .error e
    | _, .error e => .error e

/-- `data_mem.dump(from, to)` (47 R283): the words at byte addresses `first`, `first` + 4, … up to `last`. DESIGN
CHOICE (log entry 7): `last` is included, nothing is dumped where it lies below `first`, and the first illegal address fails as any access
does (20_memory R62). -/
def dumpDataMemory (first last : Word) (s : State) : Except FatalError (List Word) :=
  if last < first then .ok [] else dumpWords s ((last.toNat - first.toNat) / 4 + 1) first

/-- CPI (47 R271): an exact rational, absent while nothing has retired. -/
def cpi (m : Metrics) : Option Rat :=
  if m.instructionsRetired = 0 then none else some (mkRat m.cyclesTotal m.instructionsRetired)

/-- Branch accuracy (47 R271): absent while no branch has executed. -/
def branchAccuracy (m : Metrics) : Option Rat :=
  if m.branchesTotal = 0 then none else some (mkRat m.branchesCorrect m.branchesTotal)

end Sys2Proof.Machine
end

