-- ==== Sys2Proof/Safety.lean ====
section
/-! DEFINITION. What claims say of a state: when a cycle commits, and the invariants of the core (10_state R21, R31 to
R33, R40, R41, R44; 20_memory R61; 47 R271). -/

namespace Sys2Proof.Machine

/-! ## When a cycle commits -/

/-- Fetch and Decode raise no error in a cycle with slots `r`: a stall, or a legal fetch address (44 R191, R192). -/
abbrev FrontEndOk (s : State) (r : Redirect) : Prop :=
  (hazardOf s r).stall = true ∨ LegalAddress s.cfg.imemWords r.pc

/-- The Memory stage raises no error: the instruction in EX_MEM makes no access, or a legal one (44 R198, 20_memory
R62). -/
abbrev MemoryOk (s : State) : Prop :=
  (signalsOf s.exMem).memRead = true ∨ (signalsOf s.exMem).memWrite = true →
    LegalAddress s.cfg.dmemWords (aluResultOf s.exMem)

/-- The cycle of `s` with `i` in the Execute slot raises no fatal error (60 R305). -/
abbrev CanCommit (i : Instr) (s : State) : Prop :=
  s.status = .running ∧ FrontEndOk s (slotsFor i s) ∧ MemoryOk s

/-- The next cycle of `s` raises no fatal error. -/
abbrev StepCommits (s : State) : Prop := CanCommit (executing s) s

/-- The snapshot that Execute works on in the cycle of `s` with `i` in the Execute slot. -/
def slotOf (i : Instr) (s : State) : Snapshot := executeInput s (slotsFor i s).idEx

/-- `x` holds instruction `i` with the fields that are functions of it filled as Decode fills them (44 R193). -/
abbrev HoldsDecoded (i : Instr) (x : Snapshot) : Prop :=
  x.record.op = i ∧ x.rd = i.rd ∧ x.controlSignals = some (generateSignals i.opcode)

/-- The fields only Execute and Memory fill are absent. -/
abbrev LateFieldsAbsent (e : Snapshot) : Prop :=
  e.aluResult = none ∧ e.branchTaken = none ∧ e.targetAddress = none ∧ e.flushRequired = none ∧ e.memData = none

/-- A bubble in ID_EX or further on: no field but the control signals, which are absent or all false (10_state R33, 40
R112). -/
abbrev BubbleFields (e : Snapshot) : Prop :=
  e.rs1Val = none ∧ e.rs2Val = none ∧ e.imm = none ∧ e.rd = none ∧
    (e.controlSignals = none ∨ e.controlSignals = some (generateSignals .nop)) ∧
    e.predictedTaken = none ∧ e.predictedTarget = none ∧ LateFieldsAbsent e

/-- IF_ID holds `instr` and `pc` only (10_state R32). -/
abbrev FetchedOnly (f : Snapshot) : Prop := f = { record := f.record, pc := f.pc }

/-- The pipeline is drained and nothing is pending: every register holds a bubble (10_state R33, 47 R265). -/
abbrev Quiescent (s : State) : Prop :=
  s.status = .running ∧ drained s = true ∧ FetchedOnly s.ifId ∧ BubbleFields s.idEx ∧ BubbleFields s.exMem ∧
    BubbleFields s.memWb

/-! ## The three cycles of an instruction, from its Execute slot on (44 R196, R198, R200) -/

/-- Where `ok` holds, the cycle that executes `i` completes and leaves in EX_MEM the slot's snapshot with the ALU result
`v` of it. -/
abbrev ExecutesAlu (ok : State → Prop) (i : Instr) (v : Snapshot → Word) : Prop :=
  ∀ s : State, ok s → CanCommit i s →
    ∃ t, exec i s = .next t ∧ t.exMem = { slotOf i s with aluResult := some (v (slotOf i s)) } ∧ t.status = .running

/-- Memory does nothing for `i`. -/
abbrev PassesMemory (i : Instr) : Prop :=
  ∀ s : State, StepCommits s → HoldsDecoded i s.exMem →
    ∃ t, step s = .next t ∧ t.memWb = s.exMem ∧ t.dmem = s.dmem

/-- Write-Back writes `rd`, and only `rd`, with the ALU result; a write to x0 is dropped; the instruction retires. -/
abbrev WritesBackAlu (i : Instr) (rd : RegNum) : Prop :=
  ∀ (s : State) (v : Word), StepCommits s → HoldsDecoded i s.memWb → s.memWb.aluResult = some v →
    ∃ t, step s = .next t ∧
      (∀ r, readReg t.regs r = if r = rd ∧ r ≠ 0 then v else readReg s.regs r) ∧
      t.metrics.instructionsRetired = s.metrics.instructionsRetired + 1

/-- Write-Back writes no register; the instruction retires. -/
abbrev WritesBackNothing (i : Instr) : Prop :=
  ∀ s : State, StepCommits s → HoldsDecoded i s.memWb →
    ∃ t, step s = .next t ∧ t.regs = s.regs ∧
      t.metrics.instructionsRetired = s.metrics.instructionsRetired + 1

/-- The whole path of an instruction whose result is the ALU's. -/
abbrev AluPath (ok : State → Prop) (i : Instr) (rd : RegNum) (v : Snapshot → Word) : Prop :=
  ExecutesAlu ok i v ∧ PassesMemory i ∧ WritesBackAlu i rd

/-- No condition. -/
abbrev always (_ : State) : Prop := True

/-- The shift mask has its normative value (92 D3; the parameter SHIFT_MASK of 93 I3). -/
abbrev normativeMask (s : State) : Prop := s.cfg.shiftMask = 31

/-- The low five bits of a word, `b[4:0]` (41 R126). -/
def lowFive (b : Word) : Nat := (b.extractLsb' 0 5).toNat

/-- The whole path of a conditional branch with outcome `taken` (42 R160 to R165, R168; 46 R247). -/
abbrev BranchPath (i : Instr) (imm : Int) (taken : Snapshot → Bool) : Prop :=
  (∀ s : State, CanCommit i s →
    ∃ t, exec i s = .next t ∧
      t.exMem =
        { slotOf i s with
          branchTaken := some (taken (slotOf i s))
          targetAddress := some (wrap (unsigned (slotOf i s).pc + unsigned (wrap imm)))
          flushRequired := some ((slotOf i s).predictedTaken.getD false != taken (slotOf i s)) }) ∧
    PassesMemory i ∧ WritesBackNothing i

/-- The address at which a cycle's store begins, when there is one: the effective address in EX_MEM (44 R198). -/
def storeAddress (s : State) : Option Nat :=
  if (signalsOf s.exMem).memWrite then some (aluResultOf s.exMem).toNat else none

/-- The register a cycle writes back, when there is one (44 R200). -/
def writtenReg (s : State) : Option RegNum :=
  if (signalsOf s.memWb).regWrite then s.memWb.rd.filter fun r => r ≠ 0 else none

/-- The pipeline is empty, the slot at the pc holds `i`, and the four slots behind it are empty. -/
abbrev AloneAtPc (s : State) (i : Instr) : Prop :=
  s.cfg.Wf ∧ Quiescent s ∧ s.pc.toNat % 4 = 0 ∧ s.pc.toNat + 16 < 4 * s.cfg.imemWords ∧
    imemAt s.imem s.pc = some { address := s.pc, op := i } ∧
    imemAt s.imem (s.pc + 4) = none ∧ imemAt s.imem (s.pc + 8) = none ∧
    imemAt s.imem (s.pc + 12) = none ∧ imemAt s.imem (s.pc + 16) = none

/-- The metrics after `cycles` more cycles in which one instruction retired and no branch executed. -/
def oneRetired (m : Metrics) (cycles : Nat) : Metrics :=
  { m with cyclesTotal := m.cyclesTotal + cycles, instructionsRetired := m.instructionsRetired + 1 }

/-! ## Invariants -/

/-- The memories are in canonical form, and the data memory lists no byte outside the data space (20_memory R61). -/
abbrev MemoriesCanonical (s : State) : Prop :=
  Memory.Wf s.dmem ∧ (∀ c ∈ s.dmem, c.1 < 4 * s.cfg.dmemWords) ∧ Canonical false s.bp ∧ KeysRise s.imem

/-- The cell of x0 holds 0, so a dump of it shows what reads show (10_state R21). -/
abbrev ZeroCell (s : State) : Prop := s.regs[0] = 0

/-- Every record of the instruction memory is in a slot that exists, carries that slot's address, and is an
instruction a program may contain (30_encoding R80, R91; 47 R280). -/
abbrev ProgramOk (s : State) : Prop :=
  ∀ p ∈ s.imem, p.1 < s.cfg.imemWords ∧ p.2.address = wrap (4 * p.1) ∧ p.2.op.loadable = true

/-- With the null predictor the table stays all 0 (10_state R41). -/
abbrev NullTableEmpty (s : State) : Prop := s.cfg.realPredictor = false → s.bp = []

/-- The table has an entry for instruction-memory words only (10_state R40). -/
abbrev TableInRange (s : State) : Prop := ∀ p ∈ s.bp, p.1 < s.cfg.imemWords

/-- `branches_correct <= branches_total` (47 R271), and neither branches nor retirements outnumber cycles. -/
abbrev CountersOk (m : Metrics) : Prop :=
  m.branchesCorrect ≤ m.branchesTotal ∧ m.branchesTotal ≤ m.cyclesTotal ∧ m.instructionsRetired ≤ m.cyclesTotal

/-- The fields Decode fills, filled for the instruction the snapshot holds (10_state R31, R32; 44 R193; 46 R243). -/
abbrev DecodedFields (e : Snapshot) : Prop :=
  e.rs1Val.isSome = e.record.op.rs1.isSome ∧ e.rs2Val.isSome = e.record.op.rs2.isSome ∧
    e.imm = immWord e.record.op ∧ e.rd = e.record.op.rd ∧
    e.controlSignals = some (generateSignals e.record.op.opcode) ∧
    e.predictedTaken.isSome = isPredicted e.record.op.opcode ∧
    e.predictedTarget = (if e.predictedTaken = some true then some (relativeTarget e) else none)

/-- The instruction was fetched from where its record says, a legal instruction address (44 R191, 30_encoding R80). -/
abbrev FetchedFrom (s : State) (e : Snapshot) : Prop :=
  e.record.address = e.pc ∧ (e.record.op ≠ .nop → LegalAddress s.cfg.imemWords e.pc ∧ e.record.op.loadable = true)

/-- What ID_EX holds (10_state R32). -/
abbrev IdExFields (e : Snapshot) : Prop :=
  if e.record.op = .nop then BubbleFields e else DecodedFields e ∧ LateFieldsAbsent e

/-- The fields Execute fills, filled for the instruction the snapshot holds: the ALU result for every instruction but
a branch, the outcome and the target for a branch or jump, and the prediction check (42 R168; 46 R247 to R249). -/
abbrev ExecutedFields (x : Snapshot) : Prop :=
  x.aluResult.isSome = !decide ((generateSignals x.record.op.opcode).aluOp = .BRANCH) ∧
    x.branchTaken.isSome = (generateSignals x.record.op.opcode).branch ∧
    x.targetAddress.isSome = (generateSignals x.record.op.opcode).branch ∧
    x.flushRequired.isSome = (generateSignals x.record.op.opcode).branch ∧
    (isPredicted x.record.op.opcode = true →
      x.flushRequired = some (x.predictedTaken.getD false != x.branchTaken.getD false)) ∧
    (x.record.op.opcode = .jalr → x.flushRequired = some true)

/-- What EX_MEM holds (10_state R32). -/
abbrev ExMemFields (x : Snapshot) : Prop :=
  if x.record.op = .nop then BubbleFields x else DecodedFields x ∧ ExecutedFields x ∧ x.memData = none

/-- What MEM_WB holds (10_state R32): `mem_data` is filled for a load (44 R198). -/
abbrev MemWbFields (w : Snapshot) : Prop :=
  if w.record.op = .nop then BubbleFields w
  else DecodedFields w ∧ ExecutedFields w ∧ w.memData.isSome = (generateSignals w.record.op.opcode).memRead

/-- Every pipeline register holds the fields its stage has filled for the instruction it holds, and no other (10_state
R31 to R33). -/
abbrev PipelineFilled (s : State) : Prop :=
  FetchedOnly s.ifId ∧ IdExFields s.idEx ∧ ExMemFields s.exMem ∧ MemWbFields s.memWb ∧
    FetchedFrom s s.ifId ∧ FetchedFrom s s.idEx ∧ FetchedFrom s s.exMem ∧ FetchedFrom s s.memWb

/-- The invariant of the core. -/
abbrev State.Inv (s : State) : Prop :=
  s.cfg.Wf ∧ MemoriesCanonical s ∧ ZeroCell s ∧ ProgramOk s ∧ NullTableEmpty s ∧ TableInRange s ∧
    CountersOk s.metrics ∧ PipelineFilled s

end Sys2Proof.Machine
end

