-- ==== Sys2Proof/Certificates/Slice0/Obligations.lean ====
section
/-! DEFINITION. The statements for the provers, from the numbered rules of spec/. Each docstring names the rules its
statement formalises, or the ones it rests on. -/

open Sys2Proof Sys2Proof.Machine

/-! ## The instructions: results, completion, and their later cycles -/

/-- The R-type instructions, from the Execute slot to Write-Back (41 R130 to R138): the ALU result of the two source
values, nothing in Memory, rd written two cycles later, x0 discarding. The shifts take the low five bits of rs2, the
normative value of the parameter SHIFT_MASK. -/
def Obligations.RTypeResults : Prop :=
  ∀ rd rs1 rs2 : RegNum,
    AluPath always (.add rd rs1 rs2) rd (fun e => wrap (unsigned (rs1Of e) + unsigned (rs2Of e))) ∧
    AluPath always (.sub rd rs1 rs2) rd (fun e => wrap (unsigned (rs1Of e) - unsigned (rs2Of e))) ∧
    AluPath always (.and rd rs1 rs2) rd (fun e => rs1Of e &&& rs2Of e) ∧
    AluPath always (.or rd rs1 rs2) rd (fun e => rs1Of e ||| rs2Of e) ∧
    AluPath always (.xor rd rs1 rs2) rd (fun e => rs1Of e ^^^ rs2Of e) ∧
    AluPath always (.slt rd rs1 rs2) rd (fun e => if (rs1Of e).toInt < (rs2Of e).toInt then 1 else 0) ∧
    AluPath normativeMask (.sll rd rs1 rs2) rd (fun e => wrap (unsigned (rs1Of e) * 2 ^ lowFive (rs2Of e))) ∧
    AluPath normativeMask (.srl rd rs1 rs2) rd
      (fun e => BitVec.ofNat 32 ((rs1Of e).toNat / 2 ^ lowFive (rs2Of e))) ∧
    AluPath normativeMask (.sra rd rs1 rs2) rd (fun e => wrap ((rs1Of e).toInt / 2 ^ lowFive (rs2Of e)))

/-- The I-type arithmetic instructions (41 R140 to R146), as `RTypeResults`, with the immediate word as second
operand. -/
def Obligations.ITypeResults : Prop :=
  ∀ (rd rs1 : RegNum) (imm : Int),
    AluPath always (.addi rd rs1 imm) rd (fun e => wrap (unsigned (rs1Of e) + unsigned (wrap imm))) ∧
    AluPath always (.andi rd rs1 imm) rd (fun e => rs1Of e &&& wrap imm) ∧
    AluPath always (.ori rd rs1 imm) rd (fun e => rs1Of e ||| wrap imm) ∧
    AluPath always (.slti rd rs1 imm) rd (fun e => if (rs1Of e).toInt < (wrap imm).toInt then 1 else 0) ∧
    AluPath normativeMask (.slli rd rs1 imm) rd (fun e => wrap (unsigned (rs1Of e) * 2 ^ lowFive (wrap imm))) ∧
    AluPath normativeMask (.srli rd rs1 imm) rd
      (fun e => BitVec.ofNat 32 ((rs1Of e).toNat / 2 ^ lowFive (wrap imm))) ∧
    AluPath normativeMask (.srai rd rs1 imm) rd (fun e => wrap ((rs1Of e).toInt / 2 ^ lowFive (wrap imm)))

/-- lui and auipc (41 R150, R151): the immediate shifted left by 12, alone or added to the instruction's own
address. -/
def Obligations.UTypeResults : Prop :=
  ∀ (rd : RegNum) (imm : Int),
    AluPath always (.lui rd imm) rd (fun _ => wrap ((wrap imm).toInt * 2 ^ 12)) ∧
    AluPath always (.auipc rd imm) rd (fun e => wrap (unsigned e.pc + (wrap imm).toInt * 2 ^ 12))

/-- The shifts under any value of the parameter SHIFT_MASK (93 I3; the model's parameter): the amount is the operand's
bits under the mask, and under the normative mask it is the low five bits. -/
def Obligations.ShiftsUnderAnyMask : Prop :=
  (∀ b : Word, shiftAmount 31 b = lowFive b) ∧
  ∀ (m : Word) (rd rs1 rs2 : RegNum) (imm : Int),
    ExecutesAlu (fun s => s.cfg.shiftMask = m) (.sll rd rs1 rs2)
      (fun e => wrap (unsigned (rs1Of e) * 2 ^ (rs2Of e &&& m).toNat)) ∧
    ExecutesAlu (fun s => s.cfg.shiftMask = m) (.srl rd rs1 rs2)
      (fun e => BitVec.ofNat 32 ((rs1Of e).toNat / 2 ^ (rs2Of e &&& m).toNat)) ∧
    ExecutesAlu (fun s => s.cfg.shiftMask = m) (.sra rd rs1 rs2)
      (fun e => wrap ((rs1Of e).toInt / 2 ^ (rs2Of e &&& m).toNat)) ∧
    ExecutesAlu (fun s => s.cfg.shiftMask = m) (.slli rd rs1 imm)
      (fun e => wrap (unsigned (rs1Of e) * 2 ^ (wrap imm &&& m).toNat)) ∧
    ExecutesAlu (fun s => s.cfg.shiftMask = m) (.srli rd rs1 imm)
      (fun e => BitVec.ofNat 32 ((rs1Of e).toNat / 2 ^ (wrap imm &&& m).toNat)) ∧
    ExecutesAlu (fun s => s.cfg.shiftMask = m) (.srai rd rs1 imm)
      (fun e => wrap ((rs1Of e).toInt / 2 ^ (wrap imm &&& m).toNat))

/-- The conditional branches (42 R160 to R165): outcome and target in Execute, computed whether or not taken; nothing
in Memory; no register written. -/
def Obligations.BranchOutcomes : Prop :=
  ∀ (rs1 rs2 : RegNum) (imm : Int),
    BranchPath (.beq rs1 rs2 imm) imm (fun e => decide (rs1Of e = rs2Of e)) ∧
    BranchPath (.bne rs1 rs2 imm) imm (fun e => decide (rs1Of e ≠ rs2Of e)) ∧
    BranchPath (.blt rs1 rs2 imm) imm (fun e => decide ((rs1Of e).toInt < (rs2Of e).toInt)) ∧
    BranchPath (.bge rs1 rs2 imm) imm (fun e => decide ((rs1Of e).toInt ≥ (rs2Of e).toInt)) ∧
    BranchPath (.bltu rs1 rs2 imm) imm (fun e => decide ((rs1Of e).toNat < (rs2Of e).toNat)) ∧
    BranchPath (.bgeu rs1 rs2 imm) imm (fun e => decide ((rs1Of e).toNat ≥ (rs2Of e).toNat))

/-- jal and jalr (42 R166, R167): always taken; the link value is the ALU result and is written to rd; jal's prediction
is checked and its predictor entry set; jalr always requires a flush and leaves the predictor alone. -/
def Obligations.JumpsLinkAndRedirect : Prop :=
  (∀ (rd : RegNum) (imm : Int),
    (∀ s : State, CanCommit (.jal rd imm) s →
      ∃ t, exec (.jal rd imm) s = .next t ∧
        t.exMem =
          { slotOf (.jal rd imm) s with
            aluResult := some (wrap (unsigned (slotOf (.jal rd imm) s).pc + 4))
            branchTaken := some true
            targetAddress := some (wrap (unsigned (slotOf (.jal rd imm) s).pc + unsigned (wrap imm)))
            flushRequired := some ((slotOf (.jal rd imm) s).predictedTaken.getD false != true) } ∧
        t.bp = if s.cfg.realPredictor then bpSet s.bp (slotOf (.jal rd imm) s).pc true else s.bp) ∧
    PassesMemory (.jal rd imm) ∧ WritesBackAlu (.jal rd imm) rd) ∧
  (∀ (rd rs1 : RegNum) (imm : Int),
    (∀ s : State, CanCommit (.jalr rd rs1 imm) s →
      ∃ t, exec (.jalr rd rs1 imm) s = .next t ∧
        t.exMem =
          { slotOf (.jalr rd rs1 imm) s with
            aluResult := some (wrap (unsigned (slotOf (.jalr rd rs1 imm) s).pc + 4))
            branchTaken := some true
            targetAddress :=
              some (wrap (unsigned (rs1Of (slotOf (.jalr rd rs1 imm) s)) + unsigned (wrap imm)) &&& 0xFFFFFFFE)
            flushRequired := some true } ∧
        t.bp = s.bp) ∧
    PassesMemory (.jalr rd rs1 imm) ∧ WritesBackAlu (.jalr rd rs1 imm) rd)

/-- lw (43 R180): the effective address in Execute; the word at it in Memory, or a fatal error that writes nothing; the
word to rd at Write-Back; and, with the hazard unit, a stall of the consumer in the next slot. -/
def Obligations.LoadResult : Prop :=
  ∀ (rd rs1 : RegNum) (imm : Int),
    ExecutesAlu always (.lw rd rs1 imm) (fun e => wrap (unsigned (rs1Of e) + unsigned (wrap imm))) ∧
    (∀ (s : State) (ea : Word), StepCommits s → HoldsDecoded (.lw rd rs1 imm) s.exMem → s.exMem.aluResult = some ea →
      ∃ t, step s = .next t ∧ t.memWb = { s.exMem with memData := some (readWord s.dmem ea.toNat) } ∧
        t.dmem = s.dmem) ∧
    (∀ (s : State) (ea : Word), s.status = .running → FrontEndOk s (slotsFor (executing s) s) →
      HoldsDecoded (.lw rd rs1 imm) s.exMem → s.exMem.aluResult = some ea → ¬ LegalAddress s.cfg.dmemWords ea →
      step s = .next { s with status := .faulted (.memoryAccessError ea) }) ∧
    (∀ (s : State) (v : Word), StepCommits s → HoldsDecoded (.lw rd rs1 imm) s.memWb → s.memWb.memData = some v →
      ∃ t, step s = .next t ∧ (∀ r, readReg t.regs r = if r = rd ∧ r ≠ 0 then v else readReg s.regs r) ∧
        t.metrics.instructionsRetired = s.metrics.instructionsRetired + 1) ∧
    (∀ s : State, s.cfg.hasHazardUnit = true → CanCommit (.lw rd rs1 imm) s → rd ≠ 0 →
      ((redirect s).ifId.record.op.rs1 = some rd ∨ (redirect s).ifId.record.op.rs2 = some rd) →
      ∃ t, exec (.lw rd rs1 imm) s = .next t ∧ t.pc = (redirect s).pc ∧ t.ifId = (redirect s).ifId ∧
        t.idEx = bubble (redirect s).ifId.pc)

/-- sw (43 R181): the effective address in Execute, rs2_val carried unchanged; the word stored in Memory, and no byte
outside it, or a fatal error that changes no memory; nothing at Write-Back. -/
def Obligations.StoreResult : Prop :=
  ∀ (rs2 rs1 : RegNum) (imm : Int),
    ExecutesAlu always (.sw rs2 rs1 imm) (fun e => wrap (unsigned (rs1Of e) + unsigned (wrap imm))) ∧
    (∀ (s : State) (ea v : Word), StepCommits s → Memory.Wf s.dmem → HoldsDecoded (.sw rs2 rs1 imm) s.exMem →
      s.exMem.aluResult = some ea → s.exMem.rs2Val = some v →
      ∃ t, step s = .next t ∧ memRead s.cfg.dmemWords t.dmem ea = .ok v ∧
        (∀ b : Nat, b < ea.toNat ∨ ea.toNat + 4 ≤ b → readByte t.dmem b = readByte s.dmem b) ∧
        t.memWb = s.exMem) ∧
    (∀ (s : State) (ea : Word), s.status = .running → FrontEndOk s (slotsFor (executing s) s) →
      HoldsDecoded (.sw rs2 rs1 imm) s.exMem → s.exMem.aluResult = some ea → ¬ LegalAddress s.cfg.dmemWords ea →
      step s = .next { s with status := .faulted (.memoryAccessError ea) }) ∧
    WritesBackNothing (.sw rs2 rs1 imm)

/-- The synthetic nop (40 R112): its signals are all false; it reads no operand in Decode; in the Execute slot, in
Memory and in Write-Back it changes nothing of its own, and it never retires. -/
def Obligations.NopDoesNothing : Prop :=
  generateSignals .nop = ⟨false, false, false, false, false, false, .NONE⟩ ∧
  (∀ s : State, StepCommits s → (redirect s).ifId.record.op = .nop → FetchedOnly (redirect s).ifId →
    ∃ t, step s = .next t ∧ t.idEx.record.op = .nop ∧ BubbleFields t.idEx) ∧
  (∀ s : State, CanCommit .nop s →
    ∃ t, exec .nop s = .next t ∧ t.exMem = slotOf .nop s ∧ t.bp = s.bp ∧
      t.metrics.branchesTotal = s.metrics.branchesTotal) ∧
  (∀ s : State, StepCommits s → s.exMem.record.op = .nop → BubbleFields s.exMem →
    ∃ t, step s = .next t ∧ t.memWb = s.exMem ∧ t.dmem = s.dmem) ∧
  (∀ s : State, StepCommits s → s.memWb.record.op = .nop → BubbleFields s.memWb →
    ∃ t, step s = .next t ∧ t.regs = s.regs ∧
      t.metrics.instructionsRetired = s.metrics.instructionsRetired)

/-- The ALU function is machine arithmetic on 32-bit words (41 R126): modular sums, two's complement comparison, shifts
by the amount modulo 32, and nothing for BRANCH, JUMP and NONE. -/
def Obligations.AluIsWordArithmetic : Prop :=
  ∀ a b pc : Word,
    alu 31 .ADD a b pc = some (a + b) ∧
    alu 31 .SUB a b pc = some (a - b) ∧
    alu 31 .AND a b pc = some (a &&& b) ∧
    alu 31 .OR a b pc = some (a ||| b) ∧
    alu 31 .XOR a b pc = some (a ^^^ b) ∧
    alu 31 .SLT a b pc = some (if a.slt b then 1 else 0) ∧
    alu 31 .SLL a b pc = some (a <<< (b.toNat % 32)) ∧
    alu 31 .SRL a b pc = some (a >>> (b.toNat % 32)) ∧
    alu 31 .SRA a b pc = some (a.sshiftRight (b.toNat % 32)) ∧
    alu 31 .LUI a b pc = some (b <<< 12) ∧
    alu 31 .AUIPC a b pc = some (pc + b <<< 12) ∧
    alu 31 .BRANCH a b pc = none ∧ alu 31 .JUMP a b pc = none ∧ alu 31 .NONE a b pc = none

/-! ## What a cycle leaves unchanged -/

/-- The frame of every instruction's cycle (44 R195, R197 to R200; 20_memory R60; 46 R242): the configuration, the
instruction memory, every register but the one written back, every byte of data memory but the stored word's, and
every predictor entry but that of a B-type or jal in the Execute slot. -/
def Obligations.CycleFrame : Prop :=
  ∀ (i : Instr) (s t : State), exec i s = .next t → t.status = .running →
    t.cfg = s.cfg ∧ t.imem = s.imem ∧
    (∀ r, writtenReg s ≠ some r → readReg t.regs r = readReg s.regs r) ∧
    (∀ b : Nat, (∀ a, storeAddress s = some a → b < a ∨ a + 4 ≤ b) → readByte t.dmem b = readByte s.dmem b) ∧
    (∀ p : Word, (isPredicted i.opcode = true → p.toNat / 4 ≠ (slotOf i s).pc.toNat / 4) →
      bpBit t.bp p = bpBit s.bp p)

/-- A cycle that answers a next state keeps the status running or raises a fatal error that changes nothing else (47
R263): the frame of a failing cycle. -/
def Obligations.FailingCycleFrame : Prop :=
  ∀ (i : Instr) (s t : State), exec i s = .next t → t.status ≠ .running →
    ∃ a, t = { s with status := .faulted (.memoryAccessError a) } ∧
      (¬ LegalAddress s.cfg.imemWords a ∨ ¬ LegalAddress s.cfg.dmemWords a)

/-- A lone ALU instruction, from its fetch on (41; 44 R206, 47 R267): five cycles after a drained pipeline fetches it,
rd holds the ALU result of the source registers, and nothing else of the registers, memories and predictor has
changed. -/
def Obligations.LoneAluPassage : Prop :=
  ∀ (s : State) (i : Instr) (rd : RegNum) (v : Word),
    AloneAtPc s i → i.rd = some rd →
    alu s.cfg.shiftMask (generateSignals i.opcode).aluOp
      ((i.rs1.map (readReg s.regs)).getD 0)
      ((i.imm.map wrap).getD ((i.rs2.map (readReg s.regs)).getD 0)) s.pc = some v →
    (generateSignals i.opcode).memRead = false →
    ∃ t, Host.Core.run Sys2Proof.core 5 s = .next t ∧
      t.regs = writeReg s.regs rd v ∧ t.dmem = s.dmem ∧ t.imem = s.imem ∧ t.bp = s.bp ∧ t.cfg = s.cfg ∧
      t.pc = s.pc + 20 ∧ t.metrics = oneRetired s.metrics 5 ∧ Quiescent t

/-- A lone load, from its fetch on (43 R180; 44 R206). -/
def Obligations.LoneLoadPassage : Prop :=
  ∀ (s : State) (rd rs1 : RegNum) (imm : Int),
    AloneAtPc s (.lw rd rs1 imm) →
    LegalAddress s.cfg.dmemWords (readReg s.regs rs1 + wrap imm) →
    ∃ t, Host.Core.run Sys2Proof.core 5 s = .next t ∧
      t.regs = writeReg s.regs rd (readWord s.dmem (readReg s.regs rs1 + wrap imm).toNat) ∧
      t.dmem = s.dmem ∧ t.imem = s.imem ∧ t.bp = s.bp ∧ t.cfg = s.cfg ∧
      t.pc = s.pc + 20 ∧ t.metrics = oneRetired s.metrics 5 ∧ Quiescent t

/-- A lone store, from its fetch on (43 R181; 44 R206). -/
def Obligations.LoneStorePassage : Prop :=
  ∀ (s : State) (rs2 rs1 : RegNum) (imm : Int),
    AloneAtPc s (.sw rs2 rs1 imm) →
    LegalAddress s.cfg.dmemWords (readReg s.regs rs1 + wrap imm) →
    ∃ t, Host.Core.run Sys2Proof.core 5 s = .next t ∧
      t.regs = s.regs ∧
      t.dmem = writeWord s.dmem (readReg s.regs rs1 + wrap imm).toNat (readReg s.regs rs2) ∧
      t.imem = s.imem ∧ t.bp = s.bp ∧ t.cfg = s.cfg ∧
      t.pc = s.pc + 20 ∧ t.metrics = oneRetired s.metrics 5 ∧ Quiescent t

/-! ## The step -/

/-- A step is the cycle of the instruction in the Execute slot, and a fetched record enters IF_ID, or the bubble of an
empty slot, with the pc advanced by 4 either way (47 R261, 44 R191, R202, 10_state R26). The last clause is the model's choice of where a word's instruction is placed so that the next step runs it
(log entry 6). -/
def Obligations.StepRunsTheSlot : Prop :=
  (∀ s : State, step s = exec (redirect s).idEx.record.op s) ∧
  (∀ (s : State) (r : Record), StepCommits s → (hazardOf s (slotsFor (executing s) s)).stall = false →
    imemAt s.imem (redirect s).pc = some r →
    ∃ t, step s = .next t ∧ t.ifId = { record := r, pc := (redirect s).pc } ∧
      t.pc = wrap (unsigned (redirect s).pc + 4)) ∧
  (∀ s : State, StepCommits s → (hazardOf s (slotsFor (executing s) s)).stall = false →
    imemAt s.imem (redirect s).pc = none →
    ∃ t, step s = .next t ∧ t.ifId = bubble (redirect s).pc ∧ t.pc = wrap (unsigned (redirect s).pc + 4)) ∧
  (∀ (s : State) (w : Word) (i : Instr), decodeWord w = .ok i →
    step (s.withFetchWord 32 w.toNat) = exec i (s.withFetchWord 32 w.toNat))

/-- An instruction placed for the next step stands where Fetch and Decode put it (44 R206; log entry 6): from a
drained pipeline, two cycles over the instruction memory that holds it give the same pc, IF_ID and ID_EX. -/
def Obligations.PlacedIsTwoFrontCycles : Prop :=
  ∀ (s : State) (i : Instr), AloneAtPc s i → i ≠ .nop →
    ∃ t, Host.Core.run Sys2Proof.core 2 s = .next t ∧
      t.pc = (placed s i).pc ∧ t.ifId = (placed s i).ifId ∧ t.idEx = (placed s i).idEx ∧
      t.regs = (placed s i).regs ∧ t.dmem = (placed s i).dmem ∧ t.bp = (placed s i).bp

/-- From a running state a step always answers a next state, which runs or has failed with a memory access error: it
refuses nothing, and no other error can occur (60 R305). -/
def Obligations.StepAlwaysAnswers : Prop :=
  ∀ s : State, s.status = .running →
    ∃ t, step s = .next t ∧ (t.status = .running ∨ ∃ a, t.status = .faulted (.memoryAccessError a))

/-- A fatal error commits nothing but the status, Fetch's before Memory's, and stops the run (47 R263, 60 R305). -/
def Obligations.FatalErrorStopsTheRun : Prop :=
  (∀ (i : Instr) (s : State), s.status = .running → (hazardOf s (slotsFor i s)).stall = false →
    ¬ LegalAddress s.cfg.imemWords (redirect s).pc →
    exec i s = .next { s with status := .faulted (.memoryAccessError (redirect s).pc) }) ∧
  (∀ (i : Instr) (s : State) (ea : Word), s.status = .running → FrontEndOk s (slotsFor i s) →
    ((signalsOf s.exMem).memRead = true ∨ (signalsOf s.exMem).memWrite = true) → s.exMem.aluResult = some ea →
    ¬ LegalAddress s.cfg.dmemWords ea →
    exec i s = .next { s with status := .faulted (.memoryAccessError ea) }) ∧
  (∀ (i : Instr) (s : State) (e : FatalError), s.status = .faulted e → exec i s = .fault (.halted e))

/-- The pc after a cycle (44 R205, 10_state R26). -/
def Obligations.PcAfterCycle : Prop :=
  ∀ s : State, StepCommits s →
    ∃ t, step s = .next t ∧
      t.pc =
        (if (hazardOf s (slotsFor (executing s) s)).stall then (redirect s).pc
         else wrap (unsigned (redirect s).pc + 4))

/-- The redirect phase (46 R246, R251): a pending flush first, to the target or past the branch; else a
predicted-taken redirect; else nothing. -/
def Obligations.RedirectPhase : Prop :=
  (∀ (s : State) (target : Word), s.exMem.flushRequired = some true →
    (s.exMem.branchTaken = some true → s.exMem.targetAddress = some target) →
    redirect s =
      { pc := if s.exMem.branchTaken = some true then target else wrap (unsigned s.exMem.pc + 4)
        ifId := bubble s.ifId.pc, idEx := bubble s.idEx.pc }) ∧
  (∀ (s : State) (target : Word), s.exMem.flushRequired ≠ some true → s.idEx.predictedTaken = some true →
    s.idEx.predictedTarget = some target →
    redirect s = { pc := target, ifId := bubble s.ifId.pc, idEx := s.idEx }) ∧
  (∀ s : State, s.exMem.flushRequired ≠ some true → s.idEx.predictedTaken ≠ some true →
    redirect s = { pc := s.pc, ifId := s.ifId, idEx := s.idEx })

/-- A flush squashes the two younger instructions and fetches at the resolved target, or past a branch that was not
taken (44 R204, 46 R246, R250): after the cycle neither is anywhere in the pipeline, and IF_ID holds what the slot
there holds, the bubble where it is empty. -/
def Obligations.FlushSquashesYounger : Prop :=
  ∀ (s : State) (target : Word), StepCommits s → s.exMem.flushRequired = some true →
    (s.exMem.branchTaken = some true → s.exMem.targetAddress = some target) →
    (s.exMem.branchTaken ≠ some true → target = wrap (unsigned s.exMem.pc + 4)) →
    ∃ t, step s = .next t ∧
      (∀ r, imemAt s.imem target = some r → t.ifId = { record := r, pc := target }) ∧
      (imemAt s.imem target = none → t.ifId = bubble target) ∧
      t.idEx.record.op = .nop ∧ BubbleFields t.idEx ∧ t.exMem = bubble s.idEx.pc ∧
      t.memWb.record = s.exMem.record ∧ t.pc = wrap (unsigned target + 4) ∧
      t.bp = s.bp ∧ t.metrics.branchesTotal = s.metrics.branchesTotal

/-- The first-in first-out shift law (44 R206): with no stall and no flush, what one cycle leaves in IF_ID is in ID_EX
after the next, in EX_MEM after the second and in MEM_WB after the third. -/
def Obligations.FifoShift : Prop :=
  ∀ s0 s1 s2 s3 : State,
    step s0 = .next s1 → step s1 = .next s2 → step s2 = .next s3 →
    s1.status = .running → s2.status = .running → s3.status = .running →
    (hazardOf s0 (slotsFor (executing s0) s0)).stall = false →
    s0.exMem.flushRequired ≠ some true → s0.idEx.predictedTaken ≠ some true → s1.exMem.flushRequired ≠ some true →
    s1.idEx.record = s0.ifId.record ∧ s1.idEx.pc = s0.ifId.pc ∧
    s2.exMem.record = s0.ifId.record ∧ s2.exMem.pc = s0.ifId.pc ∧
    s3.memWb.record = s0.ifId.record ∧ s3.memWb.pc = s0.ifId.pc

/-- The metrics (47 R270). -/
def Obligations.MetricsCount : Prop :=
  ∀ s : State, StepCommits s →
    ∃ t, step s = .next t ∧
      t.metrics.cyclesTotal = s.metrics.cyclesTotal + 1 ∧
      t.metrics.instructionsRetired =
        s.metrics.instructionsRetired + (if s.memWb.record.op.opcode ≠ .nop then 1 else 0) ∧
      t.metrics.branchesTotal =
        s.metrics.branchesTotal +
          (if (redirect s).idEx.record.op.opcode ∈ [Opcode.beq, .bne, .blt, .bge, .bltu, .bgeu, .jal] then 1 else 0) ∧
      t.metrics.branchesCorrect =
        s.metrics.branchesCorrect +
          (if (redirect s).idEx.record.op.opcode ∈ [Opcode.beq, .bne, .blt, .bge, .bltu, .bgeu, .jal] ∧
              t.exMem.flushRequired = some false then 1 else 0)

/-! ## Prediction -/

/-- The prediction check (46 R247, R248, R249): a B-type or jal trains the predictor with its outcome and requires a
flush when the prediction differs; jalr requires one always and trains nothing; any other instruction does neither. -/
def Obligations.PredictionCheck : Prop :=
  ∀ (i : Instr) (s : State), CanCommit i s →
    ∃ t, exec i s = .next t ∧
      (isPredicted i.opcode = true →
        t.bp = updatePredictor s.cfg s.bp (slotOf i s).pc (t.exMem.branchTaken.getD false) ∧
        t.exMem.flushRequired =
          some (decide ((slotOf i s).predictedTaken.getD false ≠ t.exMem.branchTaken.getD false))) ∧
      (isPredicted i.opcode = false → t.bp = s.bp) ∧
      (i.opcode = .jalr → t.exMem.flushRequired = some true) ∧
      ((generateSignals i.opcode).branch = false → t.exMem.flushRequired = (slotOf i s).flushRequired)

/-- The real predictor remembers the last outcome and touches no other entry; the null predictor never predicts taken
and never updates (46 R241, R242). -/
def Obligations.PredictorRemembersLastOutcome : Prop :=
  ∀ (c : Config) (bp : List (Nat × Bool)) (p q : Word) (b : Bool), Canonical false bp →
    (c.realPredictor = true → predict c (updatePredictor c bp p b) p = b) ∧
    (q.toNat / 4 ≠ p.toNat / 4 → predict c (updatePredictor c bp p b) q = predict c bp q) ∧
    (c.realPredictor = false → predict c bp p = false ∧ updatePredictor c bp p b = bp) ∧
    Canonical false (updatePredictor c bp p b)

/-- The prediction at Decode (46 R243): for a B-type or jal the predictor's bit as the table stood before the cycle,
and the target only when it is taken; for every other instruction absent. -/
def Obligations.PredictionAtDecode : Prop :=
  ∀ s : State, StepCommits s → (hazardOf s (slotsFor (executing s) s)).stall = false →
    FetchedOnly (redirect s).ifId →
    ∃ t, step s = .next t ∧
      (∀ n : Int, isPredicted (redirect s).ifId.record.op.opcode = true →
        (redirect s).ifId.record.op.imm = some n →
        t.idEx.predictedTaken = some (predict s.cfg s.bp (redirect s).ifId.pc) ∧
        t.idEx.predictedTarget =
          if predict s.cfg s.bp (redirect s).ifId.pc then
            some (wrap (unsigned (redirect s).ifId.pc + unsigned (wrap n))) else none) ∧
      (isPredicted (redirect s).ifId.record.op.opcode = false →
        t.idEx.predictedTaken = none ∧ t.idEx.predictedTarget = none)

/-! ## Hazards and forwarding -/

/-- The load-use stall (45 R222) and its effect (44 R203): stalled exactly when the hazard unit is present and the
instruction in the Execute slot is a lw whose rd, not x0, is a source of the one in IF_ID; then the pc and IF_ID are
kept and a bubble enters ID_EX. -/
def Obligations.LoadUseStall : Prop :=
  ∀ s : State,
    ((hazardOf s (slotsFor (executing s) s)).stall = true ↔
      s.cfg.hasHazardUnit = true ∧ ∃ (rd rs1 : RegNum) (n : Int), executing s = .lw rd rs1 n ∧ rd ≠ 0 ∧
        ((redirect s).ifId.record.op.rs1 = some rd ∨ (redirect s).ifId.record.op.rs2 = some rd)) ∧
    (StepCommits s → (hazardOf s (slotsFor (executing s) s)).stall = true →
      ∃ t, step s = .next t ∧ t.pc = (redirect s).pc ∧ t.ifId = (redirect s).ifId ∧
        t.idEx = bubble (redirect s).ifId.pc)

/-- The forwarding tags (45 R223): EX where EX_MEM's rd is the source, else MEM where MEM_WB's is, else none; never for
x0 or an absent source. -/
def Obligations.ForwardingTags : Prop :=
  ∀ (k : Option RegNum) (x w : Snapshot),
    (forwardTag k x w = .ex ↔ ∃ r, k = some r ∧ r ≠ 0 ∧ x.record.op.rd = some r) ∧
    (forwardTag k x w = .mem ↔ ∃ r, k = some r ∧ r ≠ 0 ∧ x.record.op.rd ≠ some r ∧ w.record.op.rd = some r) ∧
    (forwardTag k x w = .none ↔ ∀ r, k = some r → r ≠ 0 → x.record.op.rd ≠ some r ∧ w.record.op.rd ≠ some r)

/-- What an instruction reads with the hazard unit and FWD_POINT = decode (70 R340), whatever stands in EX_MEM, a bubble
of a stall, a flush or reset included: the value the instruction in EX_MEM will write back if it writes the register,
which is what it leaves in MEM_WB this cycle; else the write-back value of MEM_WB; else the register file at the start
of the cycle. The instruction in ID_EX is never a source, and x0 reads 0. -/
def Obligations.OperandsWithHazardUnit : Prop :=
  ∀ (s : State) (r : RegNum), StepCommits s → s.cfg.hasHazardUnit = true → s.cfg.fwdPoint = .decode →
    (hazardOf s (slotsFor (executing s) s)).stall = false →
    (s.exMem.record.op = .nop ∨ HoldsDecoded s.exMem.record.op s.exMem) →
    ∃ t, step s = .next t ∧
      ((redirect s).ifId.record.op.rs1 = some r →
        t.idEx.rs1Val =
          some (if r = 0 then 0
            else if s.exMem.record.op.rd = some r then wbval t.memWb
            else if s.memWb.record.op.rd = some r then wbval s.memWb else readReg s.regs r)) ∧
      ((redirect s).ifId.record.op.rs2 = some r →
        t.idEx.rs2Val =
          some (if r = 0 then 0
            else if s.exMem.record.op.rd = some r then wbval t.memWb
            else if s.memWb.record.op.rd = some r then wbval s.memWb else readReg s.regs r))

/-- What an instruction reads without the hazard unit (70 R342): the register file as it stood at the start of the
cycle, whatever is in flight, and there is never a stall. -/
def Obligations.OperandsWithoutHazardUnit : Prop :=
  ∀ (s : State) (r : RegNum), StepCommits s → s.cfg.hasHazardUnit = false →
    (hazardOf s (slotsFor (executing s) s)).stall = false ∧
    ∃ t, step s = .next t ∧
      ((redirect s).ifId.record.op.rs1 = some r → t.idEx.rs1Val = some (readReg s.regs r)) ∧
      ((redirect s).ifId.record.op.rs2 = some r → t.idEx.rs2Val = some (readReg s.regs r))

/-- The alternative reading FWD_POINT = execute (45 R231): Decode bypasses MEM_WB's write-back, and Execute takes each
operand from EX_MEM's ALU result, else from MEM_WB's write-back value, else as decoded. x0 is forwarded by neither. -/
def Obligations.ForwardingAtExecute : Prop :=
  ∀ (s : State) (r : RegNum), s.cfg.hasHazardUnit = true → s.cfg.fwdPoint = .execute →
    (StepCommits s → (hazardOf s (slotsFor (executing s) s)).stall = false →
      ∃ t, step s = .next t ∧
        ((redirect s).ifId.record.op.rs1 = some r →
          t.idEx.rs1Val =
            some (if r = 0 then 0
              else if s.memWb.record.op.rd = some r then wbval s.memWb else readReg s.regs r)) ∧
        ((redirect s).ifId.record.op.rs2 = some r →
          t.idEx.rs2Val =
            some (if r = 0 then 0
              else if s.memWb.record.op.rd = some r then wbval s.memWb else readReg s.regs r))) ∧
    (∀ (i : Instr) (v : Word), i ≠ .nop →
      (i.rs1 = some r → (redirect s).idEx.rs1Val = some v →
        rs1Of (slotOf i s) =
          (if r = 0 then v
           else if s.exMem.record.op.rd = some r then aluResultOf s.exMem
           else if s.memWb.record.op.rd = some r then wbval s.memWb else v)) ∧
      (i.rs2 = some r → (redirect s).idEx.rs2Val = some v →
        rs2Of (slotOf i s) =
          (if r = 0 then v
           else if s.exMem.record.op.rd = some r then aluResultOf s.exMem
           else if s.memWb.record.op.rd = some r then wbval s.memWb else v)))

/-! ## Registers and memory -/

/-- x0 reads 0, a write to it is dropped, and every other register reads the last value written to it (10_state
R21). -/
def Obligations.RegisterFile : Prop :=
  ∀ (regs : Vector Word 32) (r q : RegNum) (v : Word),
    readReg regs 0 = 0 ∧ writeReg regs 0 v = regs ∧
    (r ≠ 0 → readReg (writeReg regs r v) r = v) ∧
    (q ≠ r → readReg (writeReg regs r v) q = readReg regs q)

/-- The data memory (20_memory R62, R64): a legal store is read back and leaves every other legal word alone; an
illegal access answers MemoryAccessError and no memory. -/
def Obligations.MemoryRoundTrip : Prop :=
  ∀ (n : Nat) (m : List Host.Cell) (a b v : Word), Memory.Wf m →
    (LegalAddress n a →
      ∃ m', memWrite n m a v = .ok m' ∧ Memory.Wf m' ∧ memRead n m' a = .ok v ∧
        (b ≠ a → LegalAddress n b → memRead n m' b = memRead n m b)) ∧
    (¬ LegalAddress n a →
      memRead n m a = .error (.memoryAccessError a) ∧ memWrite n m a v = .error (.memoryAccessError a))

/-- A negative sum of base and offset is the word 2^32 above it, at or above 2^31 (20_memory R63): illegal in a memory of
at most 2^29 words; in a larger one it reads the word at that address, with no other check. -/
def Obligations.NegativeAddresses : Prop :=
  ∀ (n : Nat) (m : List Host.Cell) (base : Word) (imm : Int),
    unsigned base + imm < 0 → -2 ^ 31 ≤ imm →
    unsigned (wrap (unsigned base + unsigned (wrap imm))) = unsigned base + imm + 2 ^ 32 ∧
    2 ^ 31 ≤ (wrap (unsigned base + unsigned (wrap imm))).toNat ∧
    (n ≤ 2 ^ 29 →
      memRead n m (wrap (unsigned base + unsigned (wrap imm))) =
        .error (.memoryAccessError (wrap (unsigned base + unsigned (wrap imm))))) ∧
    (unsigned base + imm + 2 ^ 32 < 4 * n → (unsigned base + imm) % 4 = 0 →
      memRead n m (wrap (unsigned base + unsigned (wrap imm))) =
        .ok (readWord m (unsigned base + imm + 2 ^ 32).toNat))

/-- No step changes the instruction memory or the configuration (20_memory R74, 10_state R29). -/
def Obligations.ProgramNeverChanges : Prop :=
  ∀ s t : State, step s = .next t → t.imem = s.imem ∧ t.cfg = s.cfg

/-! ## Invariants -/

/-- The memories keep their canonical form, and the data memory lists nothing outside the data space. -/
def Obligations.MemoriesStayCanonical : Prop :=
  ∀ s t : State, MemoriesCanonical s → step s = .next t → MemoriesCanonical t

/-- The cell of x0 stays 0, and with the null predictor the table stays all 0 (10_state R21, R41). -/
def Obligations.HardwiredStateStays : Prop :=
  ∀ s t : State, ZeroCell s → NullTableEmpty s → step s = .next t → ZeroCell t ∧ NullTableEmpty t

/-- The derived metrics and their invariants (47 R271): the ratios, absent at a zero denominator; correct branches never
outnumber branches; no counter ever decreases. -/
def Obligations.DerivedMetrics : Prop :=
  (∀ m : Metrics,
    (0 < m.instructionsRetired → cpi m = some ((m.cyclesTotal : Rat) / m.instructionsRetired)) ∧
    (m.instructionsRetired = 0 → cpi m = none) ∧
    (0 < m.branchesTotal → branchAccuracy m = some ((m.branchesCorrect : Rat) / m.branchesTotal)) ∧
    (m.branchesTotal = 0 → branchAccuracy m = none)) ∧
  (∀ s t : State, step s = .next t →
    (s.metrics.branchesCorrect ≤ s.metrics.branchesTotal → t.metrics.branchesCorrect ≤ t.metrics.branchesTotal) ∧
    s.metrics.cyclesTotal ≤ t.metrics.cyclesTotal ∧
    s.metrics.instructionsRetired ≤ t.metrics.instructionsRetired ∧
    s.metrics.branchesTotal ≤ t.metrics.branchesTotal ∧
    s.metrics.branchesCorrect ≤ t.metrics.branchesCorrect)

/-- Which fields each pipeline register holds (10_state R31 to R33): in every state whose program is loadable, a step
leaves every register filled exactly as the producing stage fills it for the instruction it holds. -/
def Obligations.PipelineStaysFilled : Prop :=
  ∀ s t : State, ProgramOk s → PipelineFilled s → step s = .next t → PipelineFilled t

/-- Every step keeps the invariant of the core. -/
def Obligations.InvariantKept : Prop :=
  ∀ s t : State, s.Inv → step s = .next t → t.Inv

/-- The invariant holds right after reset, in every configuration of legal sizes. -/
def Obligations.InvariantAtReset : Prop :=
  ∀ c : Config, c.Wf → (State.resetWith c).Inv

/-- The state after reset (70 R330, R331): every piece of state at the value the spec gives, and the first fetch at
address 0. -/
def Obligations.ResetValues : Prop :=
  (∀ c : Config,
    (∀ r, readReg (State.resetWith c).regs r = 0) ∧ (State.resetWith c).pc = 0 ∧
    (State.resetWith c).ifId = bubble 0 ∧ (State.resetWith c).idEx = bubble 0 ∧
    (State.resetWith c).exMem = bubble 0 ∧ (State.resetWith c).memWb = bubble 0 ∧
    (∀ p, bpBit (State.resetWith c).bp p = false) ∧ (∀ p, imemAt (State.resetWith c).imem p = none) ∧
    (∀ a, readWord (State.resetWith c).dmem a = 0) ∧
    (State.resetWith c).metrics = ⟨0, 0, 0, 0⟩ ∧ (State.resetWith c).status = .running ∧
    (redirect (State.resetWith c)).pc = 0) ∧
  (∀ s : State, hostReset s = State.resetWith s.cfg)

/-- One cycle on the drained reset state is an ordinary cycle (47 R268): it fetches the empty slot at 0 and counts. -/
def Obligations.CycleOnResetState : Prop :=
  ∀ c : Config, c.Wf →
    ∃ t, step (State.resetWith c) = .next t ∧ t.pc = 4 ∧ t.ifId = bubble 0 ∧ t.metrics = ⟨1, 0, 0, 0⟩ ∧
      t.status = .running ∧ drained t = true

/-! ## Control unit and decoding -/

/-- The control unit's table (40 R111, R115), and its direct call by name (40 R113). -/
def Obligations.ControlTable : Prop :=
  ([Opcode.add, .sub, .and, .or, .xor, .slt, .sll, .srl, .sra].map generateSignals =
    [ALUOp.ADD, .SUB, .AND, .OR, .XOR, .SLT, .SLL, .SRL, .SRA].map
      (ControlSignals.mk true false false false false false)) ∧
  ([Opcode.addi, .andi, .ori, .slti, .slli, .srli, .srai, .lui, .auipc].map generateSignals =
    [ALUOp.ADD, .AND, .OR, .SLT, .SLL, .SRL, .SRA, .LUI, .AUIPC].map
      (ControlSignals.mk true false false false true false)) ∧
  generateSignals .lw = ⟨true, true, false, true, true, false, .ADD⟩ ∧
  generateSignals .sw = ⟨false, false, true, false, true, false, .ADD⟩ ∧
  (∀ o ∈ [Opcode.beq, .bne, .blt, .bge, .bltu, .bgeu],
    generateSignals o = ⟨false, false, false, false, false, true, .BRANCH⟩) ∧
  (∀ o ∈ [Opcode.jal, .jalr], generateSignals o = ⟨true, false, false, false, true, true, .JUMP⟩) ∧
  generateSignals .nop = ⟨false, false, false, false, false, false, .NONE⟩ ∧
  (∀ o : Opcode, ∃ c, generateSignalsOf o.text = .ok c ∧ c = generateSignals o) ∧
  (∀ t : Text, (∀ o : Opcode, o.text ≠ t) →
    ∃ info, generateSignalsOf t = .error (.unsupportedOperationError info))

/-- The worked examples of decoding a line (30_encoding R94): the record, its kind and its fields, at address 0; or the
DecodeError of a load. -/
def Obligations.DecodesExampleLines : Prop :=
  decodeLines 0 ["beq x1, x2, 8".toList] = .ok [(0, { address := 0, op := .beq 1 2 8 })] ∧
  (Instr.beq 1 2 8).opcode = .beq ∧ (Instr.beq 1 2 8).kind = .B ∧ (Instr.beq 1 2 8).rs1 = some 1 ∧
  (Instr.beq 1 2 8).rs2 = some 2 ∧ (Instr.beq 1 2 8).imm = some 8 ∧ (Instr.beq 1 2 8).rd = none ∧
  decodeLines 0 ["lw x1,0(x2)".toList] = .ok [(0, { address := 0, op := .lw 1 2 0 })] ∧
  (Instr.lw 1 2 0).opcode = .lw ∧ (Instr.lw 1 2 0).kind = .I ∧ (Instr.lw 1 2 0).rd = some 1 ∧
  (Instr.lw 1 2 0).rs1 = some 2 ∧ (Instr.lw 1 2 0).imm = some 0 ∧
  decodeLine "sw x5, -4(x3)".toList = .ok (.sw 5 3 (-4)) ∧
  (Instr.sw 5 3 (-4)).opcode = .sw ∧ (Instr.sw 5 3 (-4)).kind = .S ∧ (Instr.sw 5 3 (-4)).rs1 = some 3 ∧
  (Instr.sw 5 3 (-4)).rs2 = some 5 ∧ (Instr.sw 5 3 (-4)).imm = some (-4) ∧
  decodeLines 0 ["xori x1, x2, 3".toList] = .error (.decodeError 0 "xori x1, x2, 3".toList) ∧
  splitLine "lw x1, 4 (x2)".toList = ["lw".toList, "x1".toList, "4".toList, "(x2)".toList] ∧
  decodeLines 0 ["lw x1, 4 (x2)".toList] = .error (.decodeError 0 "lw x1, 4 (x2)".toList)

/-- Words written out from the field layouts of 30_encoding R95, one or more of every format, decode to their
instructions. -/
def Obligations.DecodesExampleWords : Prop :=
  decodeWord (0b0000000#7 ++ 0b00011#5 ++ 0b00010#5 ++ 0b000#3 ++ 0b00001#5 ++ 0b0110011#7) =
    .ok (.add 1 2 3) ∧
  decodeWord (0b0100000#7 ++ 0b01011#5 ++ 0b01010#5 ++ 0b000#3 ++ 0b01010#5 ++ 0b0110011#7) =
    .ok (.sub 10 10 11) ∧
  decodeWord (0b111111111111#12 ++ 0b00001#5 ++ 0b000#3 ++ 0b00001#5 ++ 0b0010011#7) =
    .ok (.addi 1 1 (-1)) ∧
  decodeWord (0b0100000#7 ++ 0b00100#5 ++ 0b00010#5 ++ 0b101#3 ++ 0b00001#5 ++ 0b0010011#7) =
    .ok (.srai 1 2 4) ∧
  decodeWord (0b000000000100#12 ++ 0b00000#5 ++ 0b010#3 ++ 0b01101#5 ++ 0b0000011#7) =
    .ok (.lw 13 0 4) ∧
  decodeWord (0b0000000#7 ++ 0b01010#5 ++ 0b00000#5 ++ 0b010#3 ++ 0b00100#5 ++ 0b0100011#7) =
    .ok (.sw 10 0 4) ∧
  decodeWord (0b1111111#7 ++ 0b00000#5 ++ 0b00001#5 ++ 0b001#3 ++ 0b10101#5 ++ 0b1100011#7) =
    .ok (.bne 1 0 (-12)) ∧
  decodeWord (0b00010010001101000101#20 ++ 0b00001#5 ++ 0b0110111#7) = .ok (.lui 1 0x12345) ∧
  decodeWord (0b00000001100000000000#20 ++ 0b00001#5 ++ 0b1101111#7) = .ok (.jal 1 24) ∧
  decodeWord (0b000000000000#12 ++ 0b00001#5 ++ 0b000#3 ++ 0b00000#5 ++ 0b1100111#7) =
    .ok (.jalr 0 1 0)

/-- Every instruction that has a word is read back from it (30_encoding R95). -/
def Obligations.WordRoundTrip : Prop :=
  ∀ i : Instr, i.encodable = true → ∃ w, encodeWord i = some w ∧ decodeWord w = .ok i

/-- Every word that decodes is the word of what it decodes to, so no bit of it is dropped (30_encoding R95). -/
def Obligations.WordsHaveOneMeaning : Prop :=
  ∀ (w : Word) (i : Instr), decodeWord w = .ok i → encodeWord i = some w

/-- Every instruction a program may contain is read back from its line, with every register and every immediate of the
32-bit range (30_encoding R82 to R87). -/
def Obligations.LineRoundTrip : Prop :=
  ∀ i : Instr, i.loadable = true → decodeLine i.line = .ok i

/-- A line decodes only to an instruction that a program may contain: not nop, its immediate in range (30_encoding R85,
R88, R91). -/
def Obligations.LinesDecodeToLoadable : Prop :=
  ∀ (line : Text) (i : Instr), decodeLine line = .ok i → i.loadable = true ∧ i.isValid = true

/-! ## The host interface -/

/-- load_program (47 R280): line k is decoded at address 4k into slot k, slots past the last hold nothing, and nothing
else changes. A program that fits and has a line that is no instruction is a DecodeError, with such a line's index and
text, and loads nothing; more lines than slots, whatever they are, is a DecodeError and loads nothing. -/
def Obligations.LoadProgram : Prop :=
  (∀ (s : State) (lines : List Text) (is : List Instr), inBoot s = true →
    lines.map decodeLine = is.map Except.ok → lines.length ≤ s.cfg.imemWords →
    ∃ t, loadProgram lines s = .next t ∧ t = { s with imem := t.imem } ∧ KeysRise t.imem ∧
      ∀ k : Nat, lookup t.imem k = (is[k]?).map fun i => { address := wrap (4 * k), op := i }) ∧
  (∀ (s : State) (lines : List Text) (bad : Text) (e : LineReject), inBoot s = true →
    bad ∈ lines → decodeLine bad = .error e → lines.length ≤ s.cfg.imemWords →
    ∃ (k : Nat) (line : Text) (e' : LineReject), lines[k]? = some line ∧ decodeLine line = .error e' ∧
      loadProgram lines s = .fault (.hostCallFailed (.decodeError k line))) ∧
  (∀ (s : State) (lines : List Text), inBoot s = true → s.cfg.imemWords < lines.length →
    ∃ k line, loadProgram lines s = .fault (.hostCallFailed (.decodeError k line)))

/-- preload_registers (47 R281): a map whose names are registers and whose values are in [-2^31, 2^32 - 1] puts
`wrap(value)` into each register it names, x0 dropped, and changes nothing else; a map with an unknown name or a value
outside that range is a RegisterError, with the name of such a pair, and preloads nothing. -/
def Obligations.PreloadRegisters : Prop :=
  (∀ (s : State) (values : List (Text × Int)), inBoot s = true →
    values.Pairwise (fun p q => p.1 ≠ q.1) →
    (∀ p ∈ values, (∃ r, parseReg p.1 = .ok r) ∧ -2 ^ 31 ≤ p.2 ∧ p.2 ≤ 2 ^ 32 - 1) →
    ∃ t, preloadRegisters values s = .next t ∧ t = { s with regs := t.regs } ∧
      (∀ (p : Text × Int) (r : RegNum), p ∈ values → parseReg p.1 = .ok r →
        readReg t.regs r = if r = 0 then 0 else wrap p.2) ∧
      (∀ r : RegNum, (∀ p ∈ values, parseReg p.1 ≠ .ok r) → readReg t.regs r = readReg s.regs r)) ∧
  (∀ (s : State) (values : List (Text × Int)) (p : Text × Int), inBoot s = true → p ∈ values →
    ((∀ r : RegNum, parseReg p.1 ≠ .ok r) ∨ p.2 < -2 ^ 31 ∨ 2 ^ 32 - 1 < p.2) →
    ∃ q ∈ values, ((∀ r : RegNum, parseReg q.1 ≠ .ok r) ∨ q.2 < -2 ^ 31 ∨ 2 ^ 32 - 1 < q.2) ∧
      preloadRegisters values s = .fault (.hostCallFailed (.registerError q.1))) ∧
  (∀ (name : Text) (r : RegNum), parseReg name = .ok r ↔ name = RegNum.text r)

/-- preload_data_memory (47 R282): each pair in turn through MemWrite, with its checks; a value outside [-2^31, 2^32 -
1] is refused with a MemoryAccessError (92 D20). That this error names the pair's address, at a legal address too, and
that the map is a list taken in turn whose first bad pair is reported, are the model's choices (log entry 7). -/
def Obligations.PreloadDataMemory : Prop :=
  (∀ s : State, inBoot s = true → preloadDataMemory [] s = .next s) ∧
  (∀ (s : State) (a : Word) (v : Int) (rest : List (Word × Int)), inBoot s = true →
    LegalAddress s.cfg.dmemWords a → -2 ^ 31 ≤ v → v ≤ 2 ^ 32 - 1 →
    preloadDataMemory ((a, v) :: rest) s =
      preloadDataMemory rest { s with dmem := writeWord s.dmem a.toNat (wrap v) }) ∧
  (∀ (s : State) (a : Word) (v : Int) (rest : List (Word × Int)), inBoot s = true →
    (¬ LegalAddress s.cfg.dmemWords a ∨ v < -2 ^ 31 ∨ 2 ^ 32 - 1 < v) →
    preloadDataMemory ((a, v) :: rest) s = .fault (.hostCallFailed (.memoryAccessError a)))

/-- A run that ends drained has performed between one cycle and the bound, each of them committed, and the state it
answers is drained and running (47 R266, R265); a run that fails leaves the error in the status. -/
def Obligations.RunEndsDrained : Prop :=
  (∀ (n : Nat) (s t : State), runBounded n s = .drained t →
    drained t = true ∧ t.status = .running ∧
      ∃ k, 1 ≤ k ∧ k ≤ n ∧ Host.Core.run Sys2Proof.core k s = .next t ∧
        t.metrics.cyclesTotal = s.metrics.cyclesTotal + k) ∧
  (∀ (n : Nat) (s t : State) (e : FatalError), runBounded n s = .failed e t → t.status = .faulted e)

/-- Which line a failing load_program names: the first line that is no instruction, in a program of any length; else, in
a program of more lines than slots, the first line without a slot. The spec gives the kind of error and that its info
is an index and a text (47 R280, 60 R301); which line is named where several could be is the model's choice (log entry
7). -/
def Obligations.LoadNamesFirstFailure : Prop :=
  (∀ (s : State) (good : List Text) (bad : Text) (rest : List Text) (is : List Instr) (e : LineReject),
    inBoot s = true → good.map decodeLine = is.map Except.ok → decodeLine bad = .error e →
    loadProgram (good ++ bad :: rest) s = .fault (.hostCallFailed (.decodeError good.length bad))) ∧
  (∀ (s : State) (lines : List Text) (is : List Instr) (line : Text), inBoot s = true →
    lines.map decodeLine = is.map Except.ok → lines[s.cfg.imemWords]? = some line →
    loadProgram lines s = .fault (.hostCallFailed (.decodeError s.cfg.imemWords line)))

/-- preload_registers takes its list of pairs in turn, and a bad pair is reported before the pairs behind it are looked
at. The spec's map has no order (47 R281): that the model's map is a list and names its first bad pair is the model's
choice (log entry 7). -/
def Obligations.PreloadTakesPairsInTurn : Prop :=
  (∀ s : State, inBoot s = true → preloadRegisters [] s = .next s) ∧
  (∀ (s : State) (name : Text) (v : Int) (rest : List (Text × Int)) (r : RegNum), inBoot s = true →
    parseReg name = .ok r → -2 ^ 31 ≤ v → v ≤ 2 ^ 32 - 1 →
    preloadRegisters ((name, v) :: rest) s =
      preloadRegisters rest { s with regs := writeReg s.regs r (wrap v) }) ∧
  (∀ (s : State) (name : Text) (v : Int) (rest : List (Text × Int)), inBoot s = true →
    ((∀ r : RegNum, parseReg name ≠ .ok r) ∨ v < -2 ^ 31 ∨ 2 ^ 32 - 1 < v) →
    preloadRegisters ((name, v) :: rest) s = .fault (.hostCallFailed (.registerError name)))

/-- The info of the UnsupportedOperationError of a direct call is the opcode's text. The spec names no info for it (40
R113, 60 R304): the text is the model's choice (log entry 14). -/
def Obligations.UnsupportedOperationInfo : Prop :=
  ∀ t : Text, (∀ o : Opcode, o.text ≠ t) → generateSignalsOf t = .error (.unsupportedOperationError t)
end

