-- ==== Sys2Proof/Laws/State.lean ====
section
/-! SUPPORT. One lemma per field per update of State, so that no later proof unfolds a record update. -/

namespace Sys2Proof.Machine

/-! ## A fatal error -/

@[simp] theorem raiseFatal_cfg (s : State) (e : FatalError) : (raiseFatal s e).cfg = s.cfg := rfl
@[simp] theorem raiseFatal_regs (s : State) (e : FatalError) : (raiseFatal s e).regs = s.regs := rfl
@[simp] theorem raiseFatal_pc (s : State) (e : FatalError) : (raiseFatal s e).pc = s.pc := rfl
@[simp] theorem raiseFatal_ifId (s : State) (e : FatalError) : (raiseFatal s e).ifId = s.ifId := rfl
@[simp] theorem raiseFatal_idEx (s : State) (e : FatalError) : (raiseFatal s e).idEx = s.idEx := rfl
@[simp] theorem raiseFatal_exMem (s : State) (e : FatalError) : (raiseFatal s e).exMem = s.exMem := rfl
@[simp] theorem raiseFatal_memWb (s : State) (e : FatalError) : (raiseFatal s e).memWb = s.memWb := rfl
@[simp] theorem raiseFatal_bp (s : State) (e : FatalError) : (raiseFatal s e).bp = s.bp := rfl
@[simp] theorem raiseFatal_imem (s : State) (e : FatalError) : (raiseFatal s e).imem = s.imem := rfl
@[simp] theorem raiseFatal_dmem (s : State) (e : FatalError) : (raiseFatal s e).dmem = s.dmem := rfl
@[simp] theorem raiseFatal_metrics (s : State) (e : FatalError) : (raiseFatal s e).metrics = s.metrics := rfl
@[simp] theorem raiseFatal_status (s : State) (e : FatalError) : (raiseFatal s e).status = .faulted e := rfl

/-! ## The commit of a cycle -/

@[simp] theorem committed_cfg (s : State) (r fe : Redirect) (m : MemoryResult) (x : Executed) : (committed s r fe m x).cfg = s.cfg := rfl
@[simp] theorem committed_regs (s : State) (r fe : Redirect) (m : MemoryResult) (x : Executed) : (committed s r fe m x).regs = writeBack s.regs s.memWb := rfl
@[simp] theorem committed_pc (s : State) (r fe : Redirect) (m : MemoryResult) (x : Executed) : (committed s r fe m x).pc = fe.pc := rfl
@[simp] theorem committed_ifId (s : State) (r fe : Redirect) (m : MemoryResult) (x : Executed) : (committed s r fe m x).ifId = fe.ifId := rfl
@[simp] theorem committed_idEx (s : State) (r fe : Redirect) (m : MemoryResult) (x : Executed) : (committed s r fe m x).idEx = fe.idEx := rfl
@[simp] theorem committed_exMem (s : State) (r fe : Redirect) (m : MemoryResult) (x : Executed) : (committed s r fe m x).exMem = x.exMem := rfl
@[simp] theorem committed_memWb (s : State) (r fe : Redirect) (m : MemoryResult) (x : Executed) : (committed s r fe m x).memWb = m.memWb := rfl
@[simp] theorem committed_bp (s : State) (r fe : Redirect) (m : MemoryResult) (x : Executed) : (committed s r fe m x).bp = trainedTable s r.idEx x.train := rfl
@[simp] theorem committed_imem (s : State) (r fe : Redirect) (m : MemoryResult) (x : Executed) : (committed s r fe m x).imem = s.imem := rfl
@[simp] theorem committed_dmem (s : State) (r fe : Redirect) (m : MemoryResult) (x : Executed) : (committed s r fe m x).dmem = m.dmem := rfl
@[simp] theorem committed_metrics (s : State) (r fe : Redirect) (m : MemoryResult) (x : Executed) : (committed s r fe m x).metrics = countCycle s.metrics s.memWb r.idEx x.exMem := rfl
@[simp] theorem committed_status (s : State) (r fe : Redirect) (m : MemoryResult) (x : Executed) : (committed s r fe m x).status = s.status := rfl

/-! ## An instruction placed for the next cycle -/

@[simp] theorem placed_cfg (s : State) (i : Instr) :
    (placed s i).cfg = s.cfg := rfl
@[simp] theorem placed_regs (s : State) (i : Instr) :
    (placed s i).regs = s.regs := rfl
@[simp] theorem placed_pc (s : State) (i : Instr) :
    (placed s i).pc = wrap (unsigned s.pc + 8) := rfl
@[simp] theorem placed_ifId (s : State) (i : Instr) :
    (placed s i).ifId = bubble (wrap (unsigned s.pc + 4)) := rfl
@[simp] theorem placed_idEx (s : State) (i : Instr) :
    (placed s i).idEx = decodeStage s noHazard { record := { address := s.pc, op := i }, pc := s.pc } := rfl
@[simp] theorem placed_exMem (s : State) (i : Instr) :
    (placed s i).exMem = bubble s.pc := rfl
@[simp] theorem placed_memWb (s : State) (i : Instr) :
    (placed s i).memWb = s.memWb := rfl
@[simp] theorem placed_bp (s : State) (i : Instr) :
    (placed s i).bp = s.bp := rfl
@[simp] theorem placed_imem (s : State) (i : Instr) :
    (placed s i).imem = put s.imem (s.pc.toNat / 4) { address := s.pc, op := i } := rfl
@[simp] theorem placed_dmem (s : State) (i : Instr) :
    (placed s i).dmem = s.dmem := rfl
@[simp] theorem placed_metrics (s : State) (i : Instr) :
    (placed s i).metrics = s.metrics := rfl
@[simp] theorem placed_status (s : State) (i : Instr) :
    (placed s i).status = s.status := rfl

/-! ## Bubbles and the slots of a cycle -/

@[simp] theorem bubble_pc (p : Word) : (bubble p).pc = p := rfl
@[simp] theorem bubble_op (p : Word) : (bubble p).record.op = .nop := rfl
@[simp] theorem bubble_flushRequired (p : Word) : (bubble p).flushRequired = none := rfl
@[simp] theorem bubble_predictedTaken (p : Word) : (bubble p).predictedTaken = none := rfl
@[simp] theorem signalsOf_bubble (p : Word) : signalsOf (bubble p) = generateSignals .nop := rfl
@[simp] theorem slotsFor_pc (i : Instr) (s : State) : (slotsFor i s).pc = (redirect s).pc := rfl
@[simp] theorem slotsFor_ifId (i : Instr) (s : State) : (slotsFor i s).ifId = (redirect s).ifId := rfl
@[simp] theorem slotsFor_idEx (i : Instr) (s : State) : (slotsFor i s).idEx = holding i (redirect s).idEx := rfl

end Sys2Proof.Machine
end

