-- ==== Sys2Proof/Laws/Ops.lean ====
section
/-! SUPPORT. What the named operations do: registers, sparse memories and their canonical form, the data memory, the
predictor table, address legality. -/

namespace Sys2Proof.Machine

/-! ## Registers -/

@[simp] theorem readReg_zero (regs : Vector Word 32) : readReg regs 0 = 0 := rfl

@[simp] theorem writeReg_zero (regs : Vector Word 32) (v : Word) : writeReg regs 0 v = regs := rfl

theorem readReg_of_ne {r : RegNum} (h : r ≠ 0) (regs : Vector Word 32) : readReg regs r = regs[r] := by
  simp [readReg, h]

theorem writeReg_of_ne {r : RegNum} (h : r ≠ 0) (regs : Vector Word 32) (v : Word) :
    writeReg regs r v = regs.set r v := by
  simp [writeReg, h]

/-- A register write leaves the cell of x0 alone. -/
theorem writeReg_cell_zero (regs : Vector Word 32) (r : RegNum) (v : Word) : (writeReg regs r v)[0] = regs[0] := by
  unfold writeReg
  split
  · rfl
  · rename_i h
    have : (r : Nat) ≠ 0 := fun e => h (Fin.ext e)
    simp [this]

/-! ## Sparse memories -/

section Sparse

variable {α : Type}

theorem lookup_eq_none_of_lt {m : List (Nat × α)} {a : Nat} (h : ∀ p ∈ m, a < p.1) : lookup m a = none := by
  induction m with
  | nil => rfl
  | cons p rest ih =>
    have hp : ¬ p.1 = a := by have := h p (by simp); omega
    simp only [lookup, hp, if_false]
    exact ih fun q hq => h q (by simp [hq])

theorem lookup_put_self (m : List (Nat × α)) (a : Nat) (v : α) : lookup (put m a v) a = some v := by
  induction m with
  | nil => simp [put, lookup]
  | cons p rest ih =>
    obtain ⟨k, x⟩ := p
    unfold put
    split
    · simp [lookup]
    · split
      · simp [lookup]
      · rename_i h1 h2
        have : ¬ k = a := fun e => h2 e.symm
        simp [lookup, this, ih]

theorem lookup_put_of_ne {a b : Nat} (h : b ≠ a) (m : List (Nat × α)) (v : α) :
    lookup (put m a v) b = lookup m b := by
  have h' : ¬ a = b := fun e => h e.symm
  induction m with
  | nil => simp [put, lookup, h']
  | cons p rest ih =>
    obtain ⟨k, x⟩ := p
    unfold put
    split
    · simp [lookup, h']
    · split
      · rename_i h1 h2
        subst h2
        simp [lookup, h']
      · simp only [lookup, ih]

theorem lookup_erase_of_ne {a b : Nat} (h : b ≠ a) (m : List (Nat × α)) : lookup (erase m a) b = lookup m b := by
  induction m with
  | nil => rfl
  | cons p rest ih =>
    obtain ⟨k, x⟩ := p
    unfold erase
    split
    · rename_i e
      have : ¬ k = b := fun e' => h (e' ▸ e)
      simp [lookup, this]
    · simp only [lookup, ih]

theorem mem_put {m : List (Nat × α)} {a : Nat} {v : α} {q : Nat × α} (h : q ∈ put m a v) :
    q = (a, v) ∨ q ∈ m := by
  induction m with
  | nil => simpa [put] using h
  | cons p rest ih =>
    obtain ⟨k, x⟩ := p
    unfold put at h
    split at h
    · simpa using h
    · split at h
      · rcases List.mem_cons.1 h with h | h
        · exact .inl h
        · exact .inr (by simp [h])
      · rcases List.mem_cons.1 h with h | h
        · exact .inr (by simp [h])
        · rcases ih h with h | h
          · exact .inl h
          · exact .inr (by simp [h])

theorem mem_of_mem_erase {m : List (Nat × α)} {a : Nat} {q : Nat × α} (h : q ∈ erase m a) : q ∈ m := by
  induction m with
  | nil => simp [erase] at h
  | cons p rest ih =>
    obtain ⟨k, x⟩ := p
    unfold erase at h
    split at h
    · simp [h]
    · rcases List.mem_cons.1 h with h | h
      · simp [h]
      · simp [ih h]

theorem keysRise_put {m : List (Nat × α)} (h : KeysRise m) (a : Nat) (v : α) : KeysRise (put m a v) := by
  induction m with
  | nil => simp [KeysRise, Machine.put]
  | cons p rest ih =>
    obtain ⟨k, x⟩ := p
    rcases List.pairwise_cons.1 h with ⟨hk, hr⟩
    unfold Machine.put
    split
    · rename_i hlt
      refine List.pairwise_cons.2 ⟨fun q hq => ?_, h⟩
      rcases List.mem_cons.1 hq with rfl | hq
      · exact hlt
      · exact Nat.lt_trans hlt (hk q hq)
    · split
      · rename_i e
        exact List.pairwise_cons.2 ⟨fun q hq => e ▸ hk q hq, hr⟩
      · rename_i h1 h2
        refine List.pairwise_cons.2 ⟨fun q hq => ?_, ih hr⟩
        rcases mem_put hq with rfl | hq
        · show k < a
          omega
        · exact hk q hq

theorem keysRise_erase {m : List (Nat × α)} (h : KeysRise m) (a : Nat) : KeysRise (erase m a) := by
  induction m with
  | nil => exact h
  | cons p rest ih =>
    obtain ⟨k, x⟩ := p
    rcases List.pairwise_cons.1 h with ⟨hk, hr⟩
    unfold Machine.erase
    split
    · exact hr
    · exact List.pairwise_cons.2 ⟨fun q hq => hk q (mem_of_mem_erase hq), ih hr⟩

theorem lookup_erase_self {m : List (Nat × α)} (h : KeysRise m) (a : Nat) : lookup (erase m a) a = none := by
  induction m with
  | nil => rfl
  | cons p rest ih =>
    obtain ⟨k, x⟩ := p
    rcases List.pairwise_cons.1 h with ⟨hk, hr⟩
    unfold Machine.erase
    split
    · rename_i e
      subst e
      exact lookup_eq_none_of_lt hk
    · rename_i hne
      simp only [lookup, hne, if_false]
      exact ih hr

variable [DecidableEq α]

/-- A write is read back. -/
theorem readAt_writeAt_self {d : α} {m : List (Nat × α)} (h : KeysRise m) (a : Nat) (v : α) :
    readAt d (writeAt d m a v) a = v := by
  unfold readAt writeAt
  split
  · rename_i e
    simp [lookup_erase_self h, e]
  · simp [lookup_put_self]

/-- A write leaves every other key alone. -/
theorem readAt_writeAt_of_ne {a b : Nat} (h : b ≠ a) (d : α) (m : List (Nat × α)) (v : α) :
    readAt d (writeAt d m a v) b = readAt d m b := by
  unfold readAt writeAt
  split
  · rw [lookup_erase_of_ne h]
  · rw [lookup_put_of_ne h]

/-- A write keeps the canonical form. -/
theorem canonical_writeAt {d : α} {m : List (Nat × α)} (h : Canonical d m) (a : Nat) (v : α) :
    Canonical d (writeAt d m a v) := by
  unfold Machine.writeAt
  split
  · exact ⟨keysRise_erase h.1 a, fun p hp => h.2 p (mem_of_mem_erase hp)⟩
  · rename_i hv
    refine ⟨keysRise_put h.1 a v, fun p hp => ?_⟩
    rcases mem_put hp with rfl | hp
    · exact hv
    · exact h.2 p hp

/-- A write lists no key but its own and those listed before. -/
theorem key_of_mem_writeAt {d : α} {m : List (Nat × α)} {a : Nat} {v : α} {p : Nat × α}
    (h : p ∈ writeAt d m a v) : p.1 = a ∨ p ∈ m := by
  unfold writeAt at h
  split at h
  · exact .inr (mem_of_mem_erase h)
  · rcases mem_put h with rfl | h
    · exact .inl rfl
    · exact .inr h

end Sparse

/-! ## Data memory -/

/-- Storing a word keeps the canonical form. -/
theorem writeWord_wf {m : List Host.Cell} (h : Memory.Wf m) (a : Nat) (v : Word) : Memory.Wf (writeWord m a v) :=
  canonical_writeAt (canonical_writeAt (canonical_writeAt (canonical_writeAt h _ _) _ _) _ _) _ _

/-- Every memory operation of the machine keeps the canonical form. -/
theorem memWrite_wf {n : Nat} {m m' : List Host.Cell} {a v : Word} (h : Memory.Wf m)
    (hw : memWrite n m a v = .ok m') : Memory.Wf m' := by
  unfold memWrite at hw
  split at hw
  · cases hw
    exact writeWord_wf h _ _
  · cases hw

/-- The memory of the reset state is in canonical form. -/
theorem reset_memory_wf : Memory.Wf State.reset.dmem := by decide

/-- A byte outside the four bytes of a stored word reads as before. -/
theorem readByte_writeWord_of_outside {a b : Nat} (h : b < a ∨ a + 4 ≤ b) (m : List Host.Cell) (v : Word) :
    readByte (writeWord m a v) b = readByte m b := by
  simp only [readByte, writeWord]
  rw [readAt_writeAt_of_ne (by omega), readAt_writeAt_of_ne (by omega), readAt_writeAt_of_ne (by omega),
    readAt_writeAt_of_ne (by omega)]

/-- A stored word is read back. -/
theorem readWord_writeWord_self {m : List Host.Cell} (h : Memory.Wf m) (a : Nat) (v : Word) :
    readWord (writeWord m a v) a = v := by
  have h0 := canonical_writeAt h a (v.extractLsb' 0 8)
  have h1 := canonical_writeAt h0 (a + 1) (v.extractLsb' 8 8)
  have h2 := canonical_writeAt h1 (a + 2) (v.extractLsb' 16 8)
  have r3 : readByte (writeWord m a v) (a + 3) = v.extractLsb' 24 8 := readAt_writeAt_self h2.1 _ _
  have r2 : readByte (writeWord m a v) (a + 2) = v.extractLsb' 16 8 := by
    simp only [readByte, writeWord]
    rw [readAt_writeAt_of_ne (by omega), readAt_writeAt_self h1.1]
  have r1 : readByte (writeWord m a v) (a + 1) = v.extractLsb' 8 8 := by
    simp only [readByte, writeWord]
    rw [readAt_writeAt_of_ne (by omega), readAt_writeAt_of_ne (by omega), readAt_writeAt_self h0.1]
  have r0 : readByte (writeWord m a v) a = v.extractLsb' 0 8 := by
    simp only [readByte, writeWord]
    rw [readAt_writeAt_of_ne (by omega), readAt_writeAt_of_ne (by omega), readAt_writeAt_of_ne (by omega),
      readAt_writeAt_self h.1]
  rw [readWord, r3, r2, r1, r0]
  ext i hi
  simp only [BitVec.getElem_append, BitVec.getElem_extractLsb']
  repeat' split
  all_goals rw [← BitVec.getLsbD_eq_getElem]; congr 1; omega

/-- A byte that a stored word lists lies in that word. -/
theorem key_of_mem_writeWord {m : List Host.Cell} {a : Nat} {v : Word} {c : Host.Cell}
    (h : c ∈ writeWord m a v) : (a ≤ c.1 ∧ c.1 < a + 4) ∨ c ∈ m := by
  unfold writeWord at h
  rcases key_of_mem_writeAt h with h | h
  · exact .inl (by omega)
  rcases key_of_mem_writeAt h with h | h
  · exact .inl (by omega)
  rcases key_of_mem_writeAt h with h | h
  · exact .inl (by omega)
  rcases key_of_mem_writeAt h with h | h
  · exact .inl (by omega)
  · exact .inr h

theorem memRead_of_legal {n : Nat} {a : Word} (h : LegalAddress n a) (m : List Host.Cell) :
    memRead n m a = .ok (readWord m a.toNat) := if_pos h

theorem memRead_of_illegal {n : Nat} {a : Word} (h : ¬ LegalAddress n a) (m : List Host.Cell) :
    memRead n m a = .error (.memoryAccessError a) := if_neg h

theorem memWrite_of_legal {n : Nat} {a : Word} (h : LegalAddress n a) (m : List Host.Cell) (v : Word) :
    memWrite n m a v = .ok (writeWord m a.toNat v) := if_pos h

theorem memWrite_of_illegal {n : Nat} {a : Word} (h : ¬ LegalAddress n a) (m : List Host.Cell) (v : Word) :
    memWrite n m a v = .error (.memoryAccessError a) := if_neg h

/-- What a data read can answer. -/
theorem memRead_eq_ok {n : Nat} {m : List Host.Cell} {a v : Word} :
    memRead n m a = .ok v ↔ LegalAddress n a ∧ v = readWord m a.toNat := by
  unfold memRead
  split
  · rename_i h
    exact ⟨fun e => by cases e; exact ⟨h, rfl⟩, fun e => by rw [e.2]⟩
  · rename_i h
    exact ⟨fun e => (by cases e), fun e => absurd e.1 h⟩

/-- What a data write can answer. -/
theorem memWrite_eq_ok {n : Nat} {m m' : List Host.Cell} {a v : Word} :
    memWrite n m a v = .ok m' ↔ LegalAddress n a ∧ m' = writeWord m a.toNat v := by
  unfold memWrite
  split
  · rename_i h
    exact ⟨fun e => by cases e; exact ⟨h, rfl⟩, fun e => by rw [e.2]⟩
  · rename_i h
    exact ⟨fun e => (by cases e), fun e => absurd e.1 h⟩

/-! ## Number notation -/

theorem signed_eq_toInt (v : Word) : signed v = v.toInt := by
  unfold signed
  rw [BitVec.toInt_eq_toNat_cond]
  by_cases h : v.toNat < 2 ^ 31
  · rw [if_pos h, if_pos (by omega)]
  · rw [if_neg h, if_neg (by omega)]
    rfl

theorem wrap_signed (v : Word) : wrap (signed v) = v := by
  rw [signed_eq_toInt, wrap, BitVec.ofInt_toInt]

theorem wrap_unsigned (v : Word) : wrap (unsigned v) = v := by
  simp [wrap, unsigned]

theorem wrap_unsigned_add (v : Word) (n : Nat) : wrap (unsigned v + n) = v + BitVec.ofNat 32 n := by
  apply BitVec.eq_of_toNat_eq
  simp only [wrap, unsigned, BitVec.toNat_ofInt, BitVec.toNat_add, BitVec.toNat_ofNat]
  omega

end Sys2Proof.Machine
end

