-- ==== Sys2Proof/Laws/Cycle.lean ====
section
/-! SUPPORT. What one cycle can do: the two cases of a commit, and every `exec i s` as the commit of what Execute
computes for `i`. -/

namespace Sys2Proof.Machine

/-! ## The Execute stage of each instruction -/

/-- What Execute computes for `i` from the snapshot in its slot. -/
def stageOf (c : Config) (i : Instr) (e : Snapshot) : Executed :=
  match i with
  | .beq _ _ _ => executeBranch (condEq (rs1Of e) (rs2Of e)) e
  | .bne _ _ _ => executeBranch (condNe (rs1Of e) (rs2Of e)) e
  | .blt _ _ _ => executeBranch (condLt (rs1Of e) (rs2Of e)) e
  | .bge _ _ _ => executeBranch (condGe (rs1Of e) (rs2Of e)) e
  | .bltu _ _ _ => executeBranch (condLtu (rs1Of e) (rs2Of e)) e
  | .bgeu _ _ _ => executeBranch (condGeu (rs1Of e) (rs2Of e)) e
  | .jal _ _ => executeJal e
  | .jalr _ _ _ => executeJalr e
  | .nop => executeNop e
  | .add _ _ _ | .sub _ _ _ | .and _ _ _ | .or _ _ _ | .xor _ _ _ | .slt _ _ _ => executeAlu c e
  | .sll _ _ _ | .srl _ _ _ | .sra _ _ _ => executeAlu c e
  | .addi _ _ _ | .andi _ _ _ | .ori _ _ _ | .slti _ _ _ => executeAlu c e
  | .slli _ _ _ | .srli _ _ _ | .srai _ _ _ => executeAlu c e
  | .lui _ _ | .auipc _ _ | .lw _ _ _ | .sw _ _ _ => executeAlu c e

/-- Every meaning is the commit of its Execute stage. -/
theorem exec_eq_commit (i : Instr) (s : State) :
    exec i s = commit s (slotsFor i s) (stageOf s.cfg i (slotOf i s)) := by
  cases i <;> rfl

/-- A step is the commit of the Execute stage of the instruction in the slot. -/
theorem step_eq_commit (s : State) :
    step s = commit s (slotsFor (executing s) s) (stageOf s.cfg (executing s) (slotOf (executing s) s)) :=
  exec_eq_commit _ s

/-! ## Front end and Memory -/

/-- The instruction memory's answer to a fetch at a legal address (44 R191). -/
def fetchedAt (s : State) (p : Word) : Snapshot :=
  match imemAt s.imem p with
  | some r => { record := r, pc := p }
  | none => bubble p

/-- The pc and the first two pipeline registers after a cycle that raises no error. -/
def frontAfter (s : State) (r : Redirect) : Redirect :=
  if (hazardOf s r).stall then stalled r
  else { pc := wrap (unsigned r.pc + 4), ifId := fetchedAt s r.pc, idEx := decodeStage s (hazardOf s r) r.ifId }

/-- MEM_WB and the data memory after a cycle that raises no error. -/
def memoryAfter (s : State) : MemoryResult :=
  { memWb :=
      if (signalsOf s.exMem).memRead then
        { s.exMem with memData := some (readWord s.dmem (aluResultOf s.exMem).toNat) }
      else s.exMem
    dmem :=
      if (signalsOf s.exMem).memWrite then
        writeWord s.dmem (aluResultOf s.exMem).toNat (rs2Of s.exMem)
      else s.dmem }

theorem fetch_of_legal {s : State} {p : Word} (h : LegalAddress s.cfg.imemWords p) :
    fetch s p = .ok (fetchedAt s p) := by
  unfold fetch fetchedAt
  rw [if_pos h]
  cases imemAt s.imem p <;> rfl

theorem fetch_of_illegal {s : State} {p : Word} (h : ¬ LegalAddress s.cfg.imemWords p) :
    fetch s p = .error (.memoryAccessError p) := by
  unfold fetch
  rw [if_neg h]

theorem frontEnd_of_ok {s : State} {r : Redirect} (h : FrontEndOk s r) : frontEnd s r = .ok (frontAfter s r) := by
  unfold frontEnd frontAfter
  by_cases hs : (hazardOf s r).stall = true
  · simp [hs]
  · have hl := h.resolve_left hs
    simp [hs, fetch_of_legal hl]

theorem frontEnd_of_not_ok {s : State} {r : Redirect} (h : ¬ FrontEndOk s r) :
    frontEnd s r = .error (.memoryAccessError r.pc) := by
  have hs : ¬ (hazardOf s r).stall = true := fun e => h (.inl e)
  have hl : ¬ LegalAddress s.cfg.imemWords r.pc := fun e => h (.inr e)
  simp only [frontEnd, hs, fetch_of_illegal hl]
  rfl

theorem memoryStage_of_ok {s : State} (h : MemoryOk s) : memoryStage s s.exMem = .ok (memoryAfter s) := by
  unfold memoryStage memoryLoad memoryStore memoryAfter
  by_cases hr : (signalsOf s.exMem).memRead = true <;> by_cases hw : (signalsOf s.exMem).memWrite = true
  · simp only [hr, hw, if_true, memRead_of_legal (h (.inl hr)), memWrite_of_legal (h (.inl hr))]
  · simp only [hr, hw, if_true, memRead_of_legal (h (.inl hr))]
    rfl
  · simp only [hr, hw, if_true, memWrite_of_legal (h (.inr hw))]
    rfl
  · simp only [hr, hw]
    rfl

theorem memoryStage_of_not_ok {s : State} (h : ¬ MemoryOk s) :
    memoryStage s s.exMem = .error (.memoryAccessError (aluResultOf s.exMem)) := by
  have h1 : (signalsOf s.exMem).memRead = true ∨ (signalsOf s.exMem).memWrite = true :=
    Classical.byContradiction fun c => h fun e => absurd e c
  have hl : ¬ LegalAddress s.cfg.dmemWords (aluResultOf s.exMem) := fun e => h fun _ => e
  unfold memoryStage memoryLoad memoryStore
  by_cases hr : (signalsOf s.exMem).memRead = true
  · simp only [hr, if_true, memRead_of_illegal hl]
  · have hw := h1.resolve_left hr
    simp only [hr, hw, if_true, memWrite_of_illegal hl]
    rfl

/-! ## Commit -/

/-- A cycle that raises no error commits. -/
theorem commit_of_ok {s : State} {r : Redirect} (x : Executed) (hs : s.status = .running) (hf : FrontEndOk s r)
    (hm : MemoryOk s) : commit s r x = .next (committed s r (frontAfter s r) (memoryAfter s) x) := by
  simp only [commit, hs, frontEnd_of_ok hf, memoryStage_of_ok hm]

/-- Everything a commit can do, when it answers a next state. -/
theorem commit_cases {s t : State} {r : Redirect} {x : Executed} (h : commit s r x = .next t) :
    s.status = .running ∧
      ((FrontEndOk s r ∧ MemoryOk s ∧ t = committed s r (frontAfter s r) (memoryAfter s) x) ∨
        (¬ FrontEndOk s r ∧ t = raiseFatal s (.memoryAccessError r.pc)) ∨
        (FrontEndOk s r ∧ ¬ MemoryOk s ∧ t = raiseFatal s (.memoryAccessError (aluResultOf s.exMem)))) := by
  unfold commit at h
  split at h
  · cases h
  · rename_i hs
    refine ⟨hs, ?_⟩
    by_cases hf : FrontEndOk s r
    · rw [frontEnd_of_ok hf] at h
      by_cases hm : MemoryOk s
      · rw [memoryStage_of_ok hm] at h
        cases h
        exact .inl ⟨hf, hm, rfl⟩
      · rw [memoryStage_of_not_ok hm] at h
        cases h
        exact .inr (.inr ⟨hf, hm, rfl⟩)
    · rw [frontEnd_of_not_ok hf] at h
      cases h
      exact .inr (.inl ⟨hf, rfl⟩)

/-- A meaning commits when its cycle raises no error. -/
theorem exec_of_canCommit {i : Instr} {s : State} (h : CanCommit i s) :
    exec i s = .next (committed s (slotsFor i s) (frontAfter s (slotsFor i s)) (memoryAfter s)
      (stageOf s.cfg i (slotOf i s))) := by
  rw [exec_eq_commit]
  exact commit_of_ok _ h.1 h.2.1 h.2.2

/-- A step commits when its cycle raises no error. -/
theorem step_of_stepCommits {s : State} (h : StepCommits s) :
    step s = .next (committed s (slotsFor (executing s) s) (frontAfter s (slotsFor (executing s) s)) (memoryAfter s)
      (stageOf s.cfg (executing s) (slotOf (executing s) s))) :=
  exec_of_canCommit h

/-- Everything a step can do, when it answers a next state. -/
theorem step_cases {s t : State} (h : step s = .next t) :
    s.status = .running ∧
      ((StepCommits s ∧ t = committed s (slotsFor (executing s) s) (frontAfter s (slotsFor (executing s) s))
          (memoryAfter s) (stageOf s.cfg (executing s) (slotOf (executing s) s))) ∨
        ∃ a, t = raiseFatal s (.memoryAccessError a)) := by
  rw [step_eq_commit] at h
  obtain ⟨hs, ⟨hf, hm, e⟩ | ⟨-, e⟩ | ⟨-, -, e⟩⟩ := commit_cases h
  · exact ⟨hs, .inl ⟨⟨hs, hf, hm⟩, e⟩⟩
  · exact ⟨hs, .inr ⟨_, e⟩⟩
  · exact ⟨hs, .inr ⟨_, e⟩⟩

/-! ## The slot of a decoded instruction -/

/-- When the slot holds `i` as Decode left it, Execute sees that snapshot itself. -/
theorem holding_of_decoded {i : Instr} {e : Snapshot} (h : HoldsDecoded i e) (hi : e.imm = immWord i) :
    holding i e = e := by
  obtain ⟨h1, h2, h3⟩ := h
  obtain ⟨rec, pc, a, b, n, rd, c, pt, pg, al, bt, ta, fr, md⟩ := e
  obtain ⟨addr, op⟩ := rec
  simp only at h1 h2 h3 hi
  subst h1 h2 h3 hi
  cases op <;> rfl

/-- A bubble in the slot is seen as it is. -/
theorem holding_nop {e : Snapshot} (h : e.record.op = .nop) : holding .nop e = e := by
  simp [holding, h]

/-- The slot, seen as holding `i`, holds `i`. -/
@[simp] theorem holding_op (i : Instr) (e : Snapshot) : (holding i e).record.op = i := by
  cases i <;> try rfl
  simp only [holding]
  split
  · assumption
  · rfl

/-- The slot, seen as holding `i`, keeps its pc. -/
@[simp] theorem holding_pc (i : Instr) (e : Snapshot) : (holding i e).pc = e.pc := by
  cases i <;> try rfl
  simp only [holding]
  split <;> rfl

/-- The slot, seen as holding the instruction in it, keeps its record. -/
theorem holding_executing_record (s : State) :
    (holding (executing s) (redirect s).idEx).record = (redirect s).idEx.record := by
  have h : executing s = (redirect s).idEx.record.op := rfl
  rw [h]
  generalize (redirect s).idEx = e
  obtain ⟨⟨a, op⟩, _⟩ := e
  cases op <;> rfl

/-- Forwarding at Execute replaces operands only. -/
@[simp] theorem executeInput_record (s : State) (e : Snapshot) : (executeInput s e).record = e.record := by
  unfold executeInput
  split <;> rfl

@[simp] theorem executeInput_pc (s : State) (e : Snapshot) : (executeInput s e).pc = e.pc := by
  unfold executeInput
  split <;> rfl

@[simp] theorem slotOf_op (i : Instr) (s : State) : (slotOf i s).record.op = i := by
  simp [slotOf]

@[simp] theorem slotOf_pc (i : Instr) (s : State) : (slotOf i s).pc = (redirect s).idEx.pc := by
  simp [slotOf]

/-- What Decode derives from the instruction is i's own in the slot that Execute works on. -/
theorem slotOf_signals {i : Instr} (h : i ≠ .nop) (s : State) :
    (slotOf i s).controlSignals = some (generateSignals i.opcode) ∧ (slotOf i s).imm = immWord i ∧
      (slotOf i s).rd = i.rd := by
  unfold slotOf executeInput
  rw [slotsFor_idEx]
  cases i <;> first | exact absurd rfl h | (refine ⟨?_, ?_, ?_⟩ <;> split <;> rfl)

/-- Execute's ALU part, in one equation. -/
theorem executeAlu_of_alu {c : Config} {e : Snapshot} {v : Word}
    (h : alu c.shiftMask (signalsOf e).aluOp (rs1Of e) (aluOperandB e) e.pc = some v) :
    executeAlu c e = { exMem := { e with aluResult := some v }, train := none } := by
  simp only [executeAlu, h]

/-- Memory adds `mem_data` only. -/
@[simp] theorem memoryAfter_record (s : State) : (memoryAfter s).memWb.record = s.exMem.record := by
  simp only [memoryAfter]
  split <;> rfl

@[simp] theorem memoryAfter_pc (s : State) : (memoryAfter s).memWb.pc = s.exMem.pc := by
  simp only [memoryAfter]
  split <;> rfl

/-- The destination of a snapshot (45 R221). -/
theorem dst_eq_some {e : Snapshot} {r : RegNum} : dst e = some r ↔ e.record.op.rd = some r ∧ r ≠ 0 := by
  unfold dst
  cases e.record.op.rd with
  | none => simp
  | some q =>
    by_cases h : q = 0
    · subst h
      simp [Option.filter, eq_comm]
    · simp only [Option.filter, h, ne_eq, not_false_eq_true, decide_true, if_true, Option.some.injEq]
      exact ⟨fun e => ⟨e, e ▸ h⟩, fun e => e.1⟩

end Sys2Proof.Machine
end

