-- ==== Sys2Proof/Laws/PerInstr.lean ====
section
/-! SUPPORT. The per-instruction family Fields: what the fields an instruction populates say of its kind and of its
control signals (30_encoding R81, R91; 40 R111), and that an instruction with a word can be in a program (R96). -/

namespace Sys2Proof.Laws.Fields

open Sys2Proof Sys2Proof.Machine

/-- A program's instruction is valid; RegWrite is set where there is an rd; ALUSrc where there is an immediate that
is not a branch offset; what has a word can be loaded. -/
def Statement (i : Instr) : Prop :=
  (i.isValid = true ↔ i ≠ .nop) ∧
    (generateSignals i.opcode).regWrite = i.rd.isSome ∧
    (generateSignals i.opcode).aluSrc = (i.imm.isSome && decide (i.kind ≠ .B)) ∧
    (i.encodable = true → i.loadable = true)

/-- A signed field of at most 32 bits lies in the immediate range. -/
theorem range_of_fitsSigned {b : Nat} {n : Int} (hb : b = 12 ∨ b = 13 ∨ b = 21) (h : fitsSigned b n = true) :
    immInRange n = true := by
  rcases hb with rfl | rfl | rfl <;> simp [fitsSigned, immInRange] at h ⊢ <;> omega

/-- An unsigned field of at most 20 bits lies in the immediate range. -/
theorem range_of_fitsUnsigned {b : Nat} {n : Int} (hb : b = 5 ∨ b = 20) (h : fitsUnsigned b n = true) :
    immInRange n = true := by
  rcases hb with rfl | rfl <;> simp [fitsUnsigned, immInRange] at h ⊢ <;> omega

theorem add (rd rs1 rs2 : RegNum) : Statement (.add rd rs1 rs2) := by
  exact ⟨⟨fun _ h => Instr.noConfusion h, fun _ => rfl⟩, rfl, rfl,
    fun _ => by simp [Instr.loadable, Instr.wellFormed]⟩

theorem sub (rd rs1 rs2 : RegNum) : Statement (.sub rd rs1 rs2) := by
  exact ⟨⟨fun _ h => Instr.noConfusion h, fun _ => rfl⟩, rfl, rfl,
    fun _ => by simp [Instr.loadable, Instr.wellFormed]⟩

theorem and (rd rs1 rs2 : RegNum) : Statement (.and rd rs1 rs2) := by
  exact ⟨⟨fun _ h => Instr.noConfusion h, fun _ => rfl⟩, rfl, rfl,
    fun _ => by simp [Instr.loadable, Instr.wellFormed]⟩

theorem or (rd rs1 rs2 : RegNum) : Statement (.or rd rs1 rs2) := by
  exact ⟨⟨fun _ h => Instr.noConfusion h, fun _ => rfl⟩, rfl, rfl,
    fun _ => by simp [Instr.loadable, Instr.wellFormed]⟩

theorem xor (rd rs1 rs2 : RegNum) : Statement (.xor rd rs1 rs2) := by
  exact ⟨⟨fun _ h => Instr.noConfusion h, fun _ => rfl⟩, rfl, rfl,
    fun _ => by simp [Instr.loadable, Instr.wellFormed]⟩

theorem slt (rd rs1 rs2 : RegNum) : Statement (.slt rd rs1 rs2) := by
  exact ⟨⟨fun _ h => Instr.noConfusion h, fun _ => rfl⟩, rfl, rfl,
    fun _ => by simp [Instr.loadable, Instr.wellFormed]⟩

theorem sll (rd rs1 rs2 : RegNum) : Statement (.sll rd rs1 rs2) := by
  exact ⟨⟨fun _ h => Instr.noConfusion h, fun _ => rfl⟩, rfl, rfl,
    fun _ => by simp [Instr.loadable, Instr.wellFormed]⟩

theorem srl (rd rs1 rs2 : RegNum) : Statement (.srl rd rs1 rs2) := by
  exact ⟨⟨fun _ h => Instr.noConfusion h, fun _ => rfl⟩, rfl, rfl,
    fun _ => by simp [Instr.loadable, Instr.wellFormed]⟩

theorem sra (rd rs1 rs2 : RegNum) : Statement (.sra rd rs1 rs2) := by
  exact ⟨⟨fun _ h => Instr.noConfusion h, fun _ => rfl⟩, rfl, rfl,
    fun _ => by simp [Instr.loadable, Instr.wellFormed]⟩

theorem addi (rd rs1 : RegNum) (imm : Int) : Statement (.addi rd rs1 imm) := by
  exact ⟨⟨fun _ h => Instr.noConfusion h, fun _ => rfl⟩, rfl, rfl,
    fun h => by simp [Instr.loadable, Instr.wellFormed, range_of_fitsSigned (.inl rfl) h]⟩

theorem andi (rd rs1 : RegNum) (imm : Int) : Statement (.andi rd rs1 imm) := by
  exact ⟨⟨fun _ h => Instr.noConfusion h, fun _ => rfl⟩, rfl, rfl,
    fun h => by simp [Instr.loadable, Instr.wellFormed, range_of_fitsSigned (.inl rfl) h]⟩

theorem ori (rd rs1 : RegNum) (imm : Int) : Statement (.ori rd rs1 imm) := by
  exact ⟨⟨fun _ h => Instr.noConfusion h, fun _ => rfl⟩, rfl, rfl,
    fun h => by simp [Instr.loadable, Instr.wellFormed, range_of_fitsSigned (.inl rfl) h]⟩

theorem slti (rd rs1 : RegNum) (imm : Int) : Statement (.slti rd rs1 imm) := by
  exact ⟨⟨fun _ h => Instr.noConfusion h, fun _ => rfl⟩, rfl, rfl,
    fun h => by simp [Instr.loadable, Instr.wellFormed, range_of_fitsSigned (.inl rfl) h]⟩

theorem slli (rd rs1 : RegNum) (imm : Int) : Statement (.slli rd rs1 imm) := by
  exact ⟨⟨fun _ h => Instr.noConfusion h, fun _ => rfl⟩, rfl, rfl,
    fun h => by simp [Instr.loadable, Instr.wellFormed, range_of_fitsUnsigned (.inl rfl) h]⟩

theorem srli (rd rs1 : RegNum) (imm : Int) : Statement (.srli rd rs1 imm) := by
  exact ⟨⟨fun _ h => Instr.noConfusion h, fun _ => rfl⟩, rfl, rfl,
    fun h => by simp [Instr.loadable, Instr.wellFormed, range_of_fitsUnsigned (.inl rfl) h]⟩

theorem srai (rd rs1 : RegNum) (imm : Int) : Statement (.srai rd rs1 imm) := by
  exact ⟨⟨fun _ h => Instr.noConfusion h, fun _ => rfl⟩, rfl, rfl,
    fun h => by simp [Instr.loadable, Instr.wellFormed, range_of_fitsUnsigned (.inl rfl) h]⟩

theorem lui (rd : RegNum) (imm : Int) : Statement (.lui rd imm) := by
  exact ⟨⟨fun _ h => Instr.noConfusion h, fun _ => rfl⟩, rfl, rfl,
    fun h => by simp [Instr.loadable, Instr.wellFormed, range_of_fitsUnsigned (.inr rfl) h]⟩

theorem auipc (rd : RegNum) (imm : Int) : Statement (.auipc rd imm) := by
  exact ⟨⟨fun _ h => Instr.noConfusion h, fun _ => rfl⟩, rfl, rfl,
    fun h => by simp [Instr.loadable, Instr.wellFormed, range_of_fitsUnsigned (.inr rfl) h]⟩

theorem beq (rs1 rs2 : RegNum) (imm : Int) : Statement (.beq rs1 rs2 imm) := by
  exact ⟨⟨fun _ h => Instr.noConfusion h, fun _ => rfl⟩, rfl, rfl,
    fun h => by simp [Instr.loadable, Instr.wellFormed, range_of_fitsSigned (.inr (.inl rfl)) (Bool.and_eq_true_iff.1 h).1]⟩

theorem bne (rs1 rs2 : RegNum) (imm : Int) : Statement (.bne rs1 rs2 imm) := by
  exact ⟨⟨fun _ h => Instr.noConfusion h, fun _ => rfl⟩, rfl, rfl,
    fun h => by simp [Instr.loadable, Instr.wellFormed, range_of_fitsSigned (.inr (.inl rfl)) (Bool.and_eq_true_iff.1 h).1]⟩

theorem blt (rs1 rs2 : RegNum) (imm : Int) : Statement (.blt rs1 rs2 imm) := by
  exact ⟨⟨fun _ h => Instr.noConfusion h, fun _ => rfl⟩, rfl, rfl,
    fun h => by simp [Instr.loadable, Instr.wellFormed, range_of_fitsSigned (.inr (.inl rfl)) (Bool.and_eq_true_iff.1 h).1]⟩

theorem bge (rs1 rs2 : RegNum) (imm : Int) : Statement (.bge rs1 rs2 imm) := by
  exact ⟨⟨fun _ h => Instr.noConfusion h, fun _ => rfl⟩, rfl, rfl,
    fun h => by simp [Instr.loadable, Instr.wellFormed, range_of_fitsSigned (.inr (.inl rfl)) (Bool.and_eq_true_iff.1 h).1]⟩

theorem bltu (rs1 rs2 : RegNum) (imm : Int) : Statement (.bltu rs1 rs2 imm) := by
  exact ⟨⟨fun _ h => Instr.noConfusion h, fun _ => rfl⟩, rfl, rfl,
    fun h => by simp [Instr.loadable, Instr.wellFormed, range_of_fitsSigned (.inr (.inl rfl)) (Bool.and_eq_true_iff.1 h).1]⟩

theorem bgeu (rs1 rs2 : RegNum) (imm : Int) : Statement (.bgeu rs1 rs2 imm) := by
  exact ⟨⟨fun _ h => Instr.noConfusion h, fun _ => rfl⟩, rfl, rfl,
    fun h => by simp [Instr.loadable, Instr.wellFormed, range_of_fitsSigned (.inr (.inl rfl)) (Bool.and_eq_true_iff.1 h).1]⟩

theorem jal (rd : RegNum) (imm : Int) : Statement (.jal rd imm) := by
  exact ⟨⟨fun _ h => Instr.noConfusion h, fun _ => rfl⟩, rfl, rfl,
    fun h => by simp [Instr.loadable, Instr.wellFormed, range_of_fitsSigned (.inr (.inr rfl)) (Bool.and_eq_true_iff.1 h).1]⟩

theorem jalr (rd rs1 : RegNum) (imm : Int) : Statement (.jalr rd rs1 imm) := by
  exact ⟨⟨fun _ h => Instr.noConfusion h, fun _ => rfl⟩, rfl, rfl,
    fun h => by simp [Instr.loadable, Instr.wellFormed, range_of_fitsSigned (.inl rfl) h]⟩

theorem lw (rd rs1 : RegNum) (imm : Int) : Statement (.lw rd rs1 imm) := by
  exact ⟨⟨fun _ h => Instr.noConfusion h, fun _ => rfl⟩, rfl, rfl,
    fun h => by simp [Instr.loadable, Instr.wellFormed, range_of_fitsSigned (.inl rfl) h]⟩

theorem sw (rs2 rs1 : RegNum) (imm : Int) : Statement (.sw rs2 rs1 imm) := by
  exact ⟨⟨fun _ h => Instr.noConfusion h, fun _ => rfl⟩, rfl, rfl,
    fun h => by simp [Instr.loadable, Instr.wellFormed, range_of_fitsSigned (.inl rfl) h]⟩

theorem nop : Statement .nop := by
  exact ⟨⟨fun h => absurd h (by decide), fun h => absurd rfl h⟩, rfl, rfl, fun h => absurd h (by decide)⟩

end Sys2Proof.Laws.Fields
end

