-- ==== Sys2Proof/Tests/Slice0.lean ====
section
/-! SUPPORT. The model's own tests, each from an example, a table or a worked value of spec/, and the witnesses: for
every statement with hypotheses, a state and operands that meet all of them. -/

namespace Sys2Proof.Tests

open Sys2Proof Sys2Proof.Machine

/-! ## Small states -/

/-- A Bool that reads a Prop-valued check of the answered next state; false where there is none. -/
def nextHas (o : Host.Outcome State Fault Refusal) (p : State → Bool) : Bool :=
  match o with
  | .next t => p t
  | .fault _ => false
  | .refused _ => false

/-- The snapshot of `i` at address `p` as Decode leaves it, with the given operands. -/
def decodedAt (i : Instr) (p a b : Word) : Snapshot :=
  { record := { address := p, op := i }
    pc := p
    controlSignals := some (generateSignals i.opcode)
    rd := i.rd
    imm := immWord i
    rs1Val := i.rs1.map fun _ => a
    rs2Val := i.rs2.map fun _ => b
    predictedTaken := if isPredicted i.opcode then some false else none }

/-- The reset state with `i` at address `p` in the Execute slot, its operands `a` and `b`. -/
def inExecute (i : Instr) (p a b : Word) : State := { State.reset with idEx := decodedAt i p a b }

/-- The reset state with `i` in EX_MEM, its ALU result `ea`, its store data `v`. -/
def inMemory (i : Instr) (ea v : Word) : State :=
  { State.reset with exMem := { decodedAt i 0 0 v with aluResult := some ea } }

/-- The reset state with `i` in MEM_WB, its ALU result `v`, its loaded word `d`. -/
def inWriteBack (i : Instr) (v d : Word) : State :=
  { State.reset with memWb := { decodedAt i 0 0 0 with aluResult := some v, memData := some d } }

/-- The reset state with a lone `i` at address `p`, which is the pc. -/
def aloneAt (i : Instr) (p : Word) : State :=
  { State.reset with pc := p, imem := [(p.toNat / 4, { address := p, op := i })] }

/-- The ALU result that the cycle of `i` at address `p` with operands `a` and `b` leaves in EX_MEM. -/
def resultIs (i : Instr) (p a b v : Word) : Bool :=
  nextHas (step (inExecute i p a b)) fun t => decide (t.exMem.aluResult = some v)

/-- The outcome that the cycle of a branch with operands `a` and `b` leaves in EX_MEM. -/
def takenIs (i : Instr) (a b : Word) (taken : Bool) : Bool :=
  nextHas (step (inExecute i 0 a b)) fun t => decide (t.exMem.branchTaken = some taken)

/-- One form of every constructor. -/
def everyForm : List Instr :=
  [.add 1 2 3, .sub 1 2 3, .and 1 2 3, .or 1 2 3, .xor 1 2 3, .slt 1 2 3, .sll 1 2 3, .srl 1 2 3, .sra 1 2 3,
   .addi 1 2 3, .andi 1 2 3, .ori 1 2 3, .slti 1 2 3, .slli 1 2 3, .srli 1 2 3, .srai 1 2 3, .lui 1 3, .auipc 1 3,
   .beq 1 2 8, .bne 1 2 8, .blt 1 2 8, .bge 1 2 8, .bltu 1 2 8, .bgeu 1 2 8, .jal 1 8, .jalr 1 2 8, .lw 1 2 8,
   .sw 1 2 8, .nop]

/-! ## Well-formed terms: each check refuses an ill-formed one (30_encoding R85, R88, R95, R96) -/

theorem test_imm_above_range_refused : (Instr.addi 1 0 2147483648).wellFormed = false := by decide
theorem test_imm_below_range_refused : (Instr.lw 1 0 (-2147483649)).wellFormed = false := by decide
theorem test_imm_range_ends_allowed :
    (Instr.addi 1 0 2147483647).wellFormed = true ∧ (Instr.sw 1 0 (-2147483648)).wellFormed = true := by decide
theorem test_nop_not_loadable : Instr.nop.loadable = false ∧ Instr.nop.isValid = false := by decide
theorem test_i_field_too_small : (Instr.addi 1 0 2048).encodable = false := by decide
theorem test_shift_field_too_small : (Instr.slli 1 2 32).encodable = false := by decide
theorem test_u_field_unsigned : (Instr.lui 1 (-1)).encodable = false := by decide
theorem test_odd_branch_offset_no_word : (Instr.beq 1 2 3).encodable = false := by decide
theorem test_branch_field_too_small : (Instr.beq 1 2 4096).encodable = false := by decide
theorem test_odd_jal_offset_no_word : (Instr.jal 1 3).encodable = false := by decide
theorem test_nop_no_word : encodeWord .nop = none := by decide

/-! ## Words, bit by bit from the layouts of 30_encoding R95 and the rows of opcode_table.json -/

theorem test_decode_add :
    decodeWord (0b0000000#7 ++ 0b00011#5 ++ 0b00010#5 ++ 0b000#3 ++ 0b00001#5 ++ 0b0110011#7) = .ok (.add 1 2 3) := by
  rfl

theorem test_decode_sub :
    decodeWord (0b0100000#7 ++ 0b01011#5 ++ 0b01010#5 ++ 0b000#3 ++ 0b01010#5 ++ 0b0110011#7) = .ok (.sub 10 10 11) := by
  rfl

theorem test_decode_slt :
    decodeWord (0b0000000#7 ++ 0b10001#5 ++ 0b00000#5 ++ 0b010#3 ++ 0b11111#5 ++ 0b0110011#7) = .ok (.slt 31 0 17) := by
  rfl

theorem test_decode_sll :
    decodeWord (0b0000000#7 ++ 0b00111#5 ++ 0b00110#5 ++ 0b001#3 ++ 0b00101#5 ++ 0b0110011#7) = .ok (.sll 5 6 7) := by
  rfl

theorem test_decode_srl :
    decodeWord (0b0000000#7 ++ 0b11000#5 ++ 0b10000#5 ++ 0b101#3 ++ 0b01000#5 ++ 0b0110011#7) = .ok (.srl 8 16 24) := by
  rfl

theorem test_decode_sra :
    decodeWord (0b0100000#7 ++ 0b11110#5 ++ 0b00001#5 ++ 0b101#3 ++ 0b01001#5 ++ 0b0110011#7) = .ok (.sra 9 1 30) := by
  rfl

theorem test_decode_xor :
    decodeWord (0b0000000#7 ++ 0b10110#5 ++ 0b10101#5 ++ 0b100#3 ++ 0b00100#5 ++ 0b0110011#7) = .ok (.xor 4 21 22) := by
  rfl

theorem test_decode_and :
    decodeWord (0b0000000#7 ++ 0b11111#5 ++ 0b10000#5 ++ 0b111#3 ++ 0b01111#5 ++ 0b0110011#7) = .ok (.and 15 16 31) := by
  rfl

theorem test_decode_or :
    decodeWord (0b0000000#7 ++ 0b01000#5 ++ 0b00100#5 ++ 0b110#3 ++ 0b00010#5 ++ 0b0110011#7) = .ok (.or 2 4 8) := by
  rfl

theorem test_decode_addi :
    decodeWord (0b111111111111#12 ++ 0b00001#5 ++ 0b000#3 ++ 0b00001#5 ++ 0b0010011#7) = .ok (.addi 1 1 (-1)) := by
  rfl

theorem test_decode_andi :
    decodeWord (0b100000000000#12 ++ 0b10001#5 ++ 0b111#3 ++ 0b00011#5 ++ 0b0010011#7) = .ok (.andi 3 17 (-2048)) := by
  rfl

theorem test_decode_ori :
    decodeWord (0b011111111111#12 ++ 0b01001#5 ++ 0b110#3 ++ 0b10100#5 ++ 0b0010011#7) = .ok (.ori 20 9 2047) := by
  rfl

theorem test_decode_slti :
    decodeWord (0b111111110000#12 ++ 0b11110#5 ++ 0b010#3 ++ 0b00110#5 ++ 0b0010011#7) = .ok (.slti 6 30 (-16)) := by
  rfl

theorem test_decode_jalr :
    decodeWord (0b000000000000#12 ++ 0b00001#5 ++ 0b000#3 ++ 0b00000#5 ++ 0b1100111#7) = .ok (.jalr 0 1 0) := by
  rfl

theorem test_decode_lw :
    decodeWord (0b000000000100#12 ++ 0b00000#5 ++ 0b010#3 ++ 0b01101#5 ++ 0b0000011#7) = .ok (.lw 13 0 4) := by
  rfl

theorem test_decode_slli :
    decodeWord (0b0000000#7 ++ 0b11111#5 ++ 0b00001#5 ++ 0b001#3 ++ 0b00011#5 ++ 0b0010011#7) = .ok (.slli 3 1 31) := by
  rfl

theorem test_decode_srli :
    decodeWord (0b0000000#7 ++ 0b00001#5 ++ 0b10010#5 ++ 0b101#3 ++ 0b00010#5 ++ 0b0010011#7) = .ok (.srli 2 18 1) := by
  rfl

theorem test_decode_srai :
    decodeWord (0b0100000#7 ++ 0b00100#5 ++ 0b00010#5 ++ 0b101#3 ++ 0b00001#5 ++ 0b0010011#7) = .ok (.srai 1 2 4) := by
  rfl

theorem test_decode_beq :
    decodeWord (0b0#1 ++ 0b000000#6 ++ 0b00010#5 ++ 0b00001#5 ++ 0b000#3 ++ 0b0100#4 ++ 0b0#1 ++ 0b1100011#7) = .ok (.beq 1 2 8) := by
  rfl

theorem test_decode_bne :
    decodeWord (0b1#1 ++ 0b111111#6 ++ 0b00000#5 ++ 0b00001#5 ++ 0b001#3 ++ 0b1010#4 ++ 0b1#1 ++ 0b1100011#7) = .ok (.bne 1 0 (-12)) := by
  rfl

theorem test_decode_blt :
    decodeWord (0b1#1 ++ 0b111111#6 ++ 0b00010#5 ++ 0b00001#5 ++ 0b100#3 ++ 0b1000#4 ++ 0b1#1 ++ 0b1100011#7) = .ok (.blt 1 2 (-16)) := by
  rfl

theorem test_decode_bge :
    decodeWord (0b0#1 ++ 0b000000#6 ++ 0b00100#5 ++ 0b00011#5 ++ 0b101#3 ++ 0b0100#4 ++ 0b0#1 ++ 0b1100011#7) = .ok (.bge 3 4 8) := by
  rfl

theorem test_decode_bltu :
    decodeWord (0b1#1 ++ 0b000000#6 ++ 0b11111#5 ++ 0b10000#5 ++ 0b110#3 ++ 0b0000#4 ++ 0b0#1 ++ 0b1100011#7) = .ok (.bltu 16 31 (-4096)) := by
  rfl

theorem test_decode_bgeu :
    decodeWord (0b0#1 ++ 0b000000#6 ++ 0b01001#5 ++ 0b00010#5 ++ 0b111#3 ++ 0b0001#4 ++ 0b1#1 ++ 0b1100011#7) = .ok (.bgeu 2 9 2050) := by
  rfl

theorem test_decode_lui :
    decodeWord (0b00010010001101000101#20 ++ 0b00001#5 ++ 0b0110111#7) = .ok (.lui 1 0x12345) := by
  rfl

theorem test_decode_auipc :
    decodeWord (0b10000000000000000001#20 ++ 0b10001#5 ++ 0b0010111#7) = .ok (.auipc 17 0x80001) := by
  rfl

theorem test_decode_jal :
    decodeWord (0b0#1 ++ 0b0000001100#10 ++ 0b0#1 ++ 0b00000000#8 ++ 0b00001#5 ++ 0b1101111#7) = .ok (.jal 1 24) := by
  rfl

theorem test_decode_sw :
    decodeWord (0b0000000#7 ++ 0b01010#5 ++ 0b00000#5 ++ 0b010#3 ++ 0b00100#5 ++ 0b0100011#7) = .ok (.sw 10 0 4) := by
  rfl

theorem test_decode_jal_backward :
    decodeWord (0b1#1 ++ 0b1111111011#10 ++ 0b1#1 ++ 0b11111111#8 ++ 0b00101#5 ++ 0b1101111#7) = .ok (.jal 5 (-10)) := by
  rfl

theorem test_decode_sw_backward :
    decodeWord (0b1111111#7 ++ 0b00101#5 ++ 0b00011#5 ++ 0b010#3 ++ 0b11100#5 ++ 0b0100011#7) = .ok (.sw 5 3 (-4)) := by
  rfl

/-- opcode_table.json has no row with funct7 1 (0x02000033). -/
theorem test_reject_funct7 : decodeWord 0x02000033 = .error .funct7 := by rfl
/-- No sltu row (41 R135). -/
theorem test_reject_funct3 : decodeWord 0x00003033 = .error .funct3 := by rfl
/-- No byte load row (20_memory R61). -/
theorem test_reject_byte_load : decodeWord 0x00000003 = .error .funct3 := by rfl
/-- No system row (0x00000073). -/
theorem test_reject_opcode : decodeWord 0x00000073 = .error .opcode := by rfl
/-- Words from 95_test_vectors: V-S1, V-S5, V-S6, V-S7. -/
theorem test_vector_words :
    decodeTableWord 32 0x00500013 = some (.addi 0 0 5) ∧ decodeTableWord 32 0x003100b3 = some (.add 1 2 3) ∧
    decodeTableWord 32 0x00012083 = some (.lw 1 2 0) ∧ decodeTableWord 32 0x00208463 = some (.beq 1 2 8) := by decide
/-- 0x00000013 is `addi x0, x0, 0`, not the synthetic nop (30_encoding R90, R96). -/
theorem test_canonical_nop_word_is_addi : decodeTableWord 32 0x00000013 = some (.addi 0 0 0) := by decide

/-! ## Lines (95_test_vectors V-D) -/

theorem test_line_jalr_both_spellings :
    decodeLine "jalr x1, x2, 0".toList = .ok (.jalr 1 2 0) ∧ decodeLine "jalr x1, 0(x2)".toList = .ok (.jalr 1 2 0) :=
  ⟨rfl, rfl⟩
theorem test_line_hexadecimal : decodeLine "addi x1,x0,-0x10".toList = .ok (.addi 1 0 (-16)) := rfl
theorem test_line_plus_sign : decodeLine "addi x1, x0, +7".toList = .ok (.addi 1 0 7) := rfl
theorem test_line_nop_refused : decodeLine "nop".toList = .error .unknownOpcode := rfl
theorem test_line_upper_case_refused : decodeLine "ADD x1, x2, x3".toList = .error .unknownOpcode := rfl
theorem test_line_register_32_refused : decodeLine "add x1, x2, x32".toList = .error .badRegister := rfl
theorem test_line_leading_zero_refused : decodeLine "add x01, x2, x3".toList = .error .badRegister := rfl
theorem test_line_abi_name_refused : decodeLine "add sp, x1, x2".toList = .error .badRegister := rfl
theorem test_line_operand_count_refused : decodeLine "add x1, x2".toList = .error .operandCount := rfl
theorem test_line_register_for_immediate_refused : decodeLine "addi x1, x2, x3".toList = .error .badImmediate := rfl
theorem test_line_immediate_above_refused :
    decodeLine "addi x1, x0, 2147483648".toList = .error .immediateRange := rfl
theorem test_line_immediate_below_refused :
    decodeLine "addi x1, x0, -2147483649".toList = .error .immediateRange := rfl
theorem test_line_memory_operand_wanted : decodeLine "sw x1, x2".toList = .error .badMemoryOperand := rfl
theorem test_line_jalr_two_operands_refused : ∃ e, decodeLine "jalr x1, x2".toList = .error e := ⟨_, rfl⟩

/-! ## Results (41 R130 to R151; 95_test_vectors V-A, V-I, V-U) -/

theorem test_add_wraps : resultIs (.add 3 1 2) 0 0x7FFFFFFF 1 0x80000000 = true := by decide
theorem test_add_source_is_destination : resultIs (.add 1 1 1) 0 0x40000000 0x40000000 0x80000000 = true := by decide
theorem test_sub_borrows : resultIs (.sub 3 1 2) 0 0 1 0xFFFFFFFF = true := by decide
theorem test_sub_order : resultIs (.sub 3 1 2) 0 0x80000000 1 0x7FFFFFFF = true := by decide
theorem test_and : resultIs (.and 3 1 2) 0 0xF0F0F0F0 0x0FF00FF0 0x00F000F0 = true := by decide
theorem test_or : resultIs (.or 3 1 2) 0 0xF0F0F0F0 0x0FF00FF0 0xFFF0FFF0 = true := by decide
theorem test_xor : resultIs (.xor 3 1 2) 0 0xFFFFFFFF 0x12345678 0xEDCBA987 = true := by decide
theorem test_slt_signed : resultIs (.slt 3 1 2) 0 0xFFFFFFFF 1 1 = true := by decide
theorem test_slt_order : resultIs (.slt 3 1 2) 0 1 0xFFFFFFFF 0 = true := by decide
theorem test_sll_amount_32 : resultIs (.sll 3 1 2) 0 1 32 1 = true := by decide
theorem test_sll_amount_31 : resultIs (.sll 3 1 2) 0 1 31 0x80000000 = true := by decide
theorem test_srl_amount_32 : resultIs (.srl 3 1 2) 0 0x80000000 32 0x80000000 = true := by decide
theorem test_srl_zeros : resultIs (.srl 3 1 2) 0 0xFFFFFFFF 4 0x0FFFFFFF = true := by decide
theorem test_sra_sign : resultIs (.sra 3 1 2) 0 0xFFFFFFF0 2 0xFFFFFFFC = true := by decide
theorem test_sra_amount_36 : resultIs (.sra 3 1 2) 0 0x7FFFFFFF 36 0x07FFFFFF = true := by decide
theorem test_addi_negative : resultIs (.addi 3 1 (-1)) 0 5 0 4 = true := by decide
theorem test_addi_wide : resultIs (.addi 3 1 0x7FFFFFFF) 0 0 0 0x7FFFFFFF = true := by decide
theorem test_andi_sign_extends : resultIs (.andi 3 1 (-16)) 0 0xFF 0 0xF0 = true := by decide
theorem test_ori_sign_extends : resultIs (.ori 3 1 (-1)) 0 0x100 0 0xFFFFFFFF = true := by decide
theorem test_slti_signed : resultIs (.slti 3 1 (-1)) 0 0xFFFFFFFE 0 1 = true := by decide
theorem test_slti_zero : resultIs (.slti 3 1 (-1)) 0 0 0 0 = true := by decide
theorem test_slli : resultIs (.slli 3 1 4) 0 3 0 0x30 = true := by decide
theorem test_slli_negative_amount : resultIs (.slli 3 1 (-1)) 0 1 0 0x80000000 = true := by decide
theorem test_srli : resultIs (.srli 3 1 31) 0 0x80000000 0 1 = true := by decide
theorem test_srai : resultIs (.srai 3 1 4) 0 0x80000000 0 0xF8000000 = true := by decide
theorem test_srai_positive : resultIs (.srai 3 1 30) 0 0x40000000 0 1 = true := by decide
theorem test_lui : resultIs (.lui 1 0x12345) 0 0 0 0x12345000 = true := by decide
theorem test_lui_lost_bits : resultIs (.lui 1 0x100000) 0 0 0 0 = true := by decide
theorem test_auipc : resultIs (.auipc 1 1) 8 0 0 0x1008 = true := by decide
theorem test_auipc_negative : resultIs (.auipc 1 (-1)) 0 0 0 0xFFFFF000 = true := by decide
/-- R166's example: at 4, `jal x1, 12` gives target 16 and link 8. -/
theorem test_jal_link_and_target :
    nextHas (step (inExecute (.jal 1 12) 4 0 0)) (fun t =>
      decide (t.exMem.aluResult = some 8 ∧ t.exMem.targetAddress = some 16 ∧ t.exMem.flushRequired = some true ∧
        t.bp = [(1, true)])) = true := by decide
/-- R167's example: at 20 with x1 = 9, `jalr x0, 0(x1)` gives target 8. -/
theorem test_jalr_clears_bit_0 :
    nextHas (step (inExecute (.jalr 0 1 0) 20 9 0)) (fun t =>
      decide (t.exMem.targetAddress = some 8 ∧ t.exMem.flushRequired = some true ∧ t.bp = [])) = true := by decide
/-- Only bit 0 is cleared: (8 + 3) with bit 0 clear is 10 (V-J). -/
theorem test_jalr_keeps_bit_1 :
    nextHas (step (inExecute (.jalr 5 6 3) 0 8 0)) (fun t => decide (t.exMem.targetAddress = some 10)) = true := by
  decide

/-! ## Branch outcomes (95_test_vectors V-B) -/

theorem test_beq : takenIs (.beq 1 2 8) 5 5 true = true ∧ takenIs (.beq 1 2 8) 5 6 false = true := by decide
theorem test_bne : takenIs (.bne 1 2 8) 5 5 false = true ∧ takenIs (.bne 1 2 8) 5 6 true = true := by decide
theorem test_blt : takenIs (.blt 1 2 8) 0xFFFFFFFF 1 true = true ∧ takenIs (.blt 1 2 8) 5 5 false = true := by decide
theorem test_bge : takenIs (.bge 1 2 8) 1 0xFFFFFFFF true = true ∧ takenIs (.bge 1 2 8) 5 5 true = true := by decide
theorem test_bltu : takenIs (.bltu 1 2 8) 1 0xFFFFFFFF true = true ∧ takenIs (.bltu 1 2 8) 5 5 false = true := by
  decide
theorem test_bgeu : takenIs (.bgeu 1 2 8) 0xFFFFFFFF 1 true = true ∧ takenIs (.bgeu 1 2 8) 5 6 false = true := by
  decide
/-- R161's example: at 16, offset -8, target 8. -/
theorem test_branch_target_backward :
    nextHas (step (inExecute (.bne 1 0 (-8)) 16 2 0)) (fun t =>
      decide (t.exMem.targetAddress = some 8 ∧ t.exMem.aluResult = none)) = true := by decide

/-! ## Load, store, write-back (43 R180, R181; 95_test_vectors V-M) -/

/-- R180: with 100 at 4, the Memory stage of a load at 4 fills `mem_data` with 100. -/
theorem test_lw_reads_word :
    nextHas (step { inMemory (.lw 1 2 0) 4 0 with dmem := writeWord [] 4 100 })
      (fun t => decide (t.memWb.memData = some 100)) = true := by decide
/-- V-M3: a misaligned load is an error that names the address and commits nothing. -/
theorem test_lw_misaligned :
    step (inMemory (.lw 1 0 2) 2 0) =
      .next { inMemory (.lw 1 0 2) 2 0 with status := .faulted (.memoryAccessError 2) } := by rfl
/-- V-M1: a store at the top word. -/
theorem test_sw_top_word :
    nextHas (step (inMemory (.sw 1 2 0) 4092 5)) (fun t => decide (readWord t.dmem 4092 = 5)) = true := by decide
/-- V-M2: one word further is an error and memory keeps its words. -/
theorem test_sw_out_of_range :
    nextHas (step (inMemory (.sw 1 2 0) 4096 5)) (fun t =>
      decide (t.status = .faulted (.memoryAccessError 4096) ∧ t.dmem = [])) = true := by decide
/-- R200: a load writes its loaded word, an ALU instruction its result, x0 nothing; each retires. -/
theorem test_write_back :
    nextHas (step (inWriteBack (.lw 1 2 0) 4 100)) (fun t =>
      decide (readReg t.regs 1 = 100 ∧ t.metrics.instructionsRetired = 1)) = true ∧
    nextHas (step (inWriteBack (.jal 1 8) 4 100)) (fun t => decide (readReg t.regs 1 = 4)) = true ∧
    nextHas (step (inWriteBack (.addi 0 0 5) 5 0)) (fun t =>
      decide (readReg t.regs 0 = 0 ∧ t.metrics.instructionsRetired = 1)) = true := by decide
/-- 40 R112: a cycle with nothing in flight retires nothing. -/
theorem test_nop_never_retires :
    nextHas (step State.reset) (fun t => decide (t.metrics = ⟨1, 0, 0, 0⟩ ∧ t.pc = 4)) = true := by decide

/-! ## The pipeline: hazards, prediction, redirect (95_test_vectors V-S6, V-S7, V-P1) -/

/-- V-S6: the load in Execute, its consumer in IF_ID. -/
def loadThenUse : State :=
  { inExecute (.lw 1 2 0) 0 4 0 with
    ifId := { record := { address := 4, op := .add 3 1 4 }, pc := 4 }
    pc := 8 }

theorem test_load_use_stalls :
    nextHas (step loadThenUse) (fun t =>
      decide (t.pc = 8 ∧ t.ifId = loadThenUse.ifId ∧ t.idEx = bubble 4 ∧ t.exMem.aluResult = some 4)) = true := by
  decide

/-- The same without a hazard unit: no stall, and the register file's 0 is read (70 R342). -/
theorem test_no_hazard_unit_no_stall :
    nextHas (step { loadThenUse with cfg := { Config.default with name := .basic } }) (fun t =>
      decide (t.pc = 12 ∧ t.idEx.record.op = .add 3 1 4 ∧ t.idEx.rs1Val = some 0)) = true := by decide

/-- V-S6, cycle 4: the load in EX_MEM forwards the word it reads in this cycle. -/
def loadForwards : State :=
  { inMemory (.lw 1 2 0) 4 0 with
    dmem := writeWord [] 4 100
    ifId := { record := { address := 4, op := .add 3 1 4 }, pc := 4 } }

theorem test_load_forwards_to_decode :
    nextHas (step loadForwards) (fun t => decide (t.idEx.rs1Val = some 100)) = true := by decide

/-- V-H3 and R229: the instruction in ID_EX is no source, under FWD_POINT = decode. -/
theorem test_adjacent_producer_not_seen :
    nextHas (step { inExecute (.addi 1 0 10) 0 0 0 with
        ifId := { record := { address := 4, op := .add 2 1 1 }, pc := 4 } })
      (fun t => decide (t.idEx.rs1Val = some 0 ∧ t.exMem.aluResult = some 10)) = true := by decide

/-- V-S7, the start of cycle 4: the taken branch at 0 in EX_MEM, two younger instructions behind it. -/
def mispredicted : State :=
  { State.reset with
    pc := 12
    ifId := { record := { address := 8, op := .add 6 0 0 }, pc := 8 }
    idEx := decodedAt (.add 3 0 0) 4 0 0
    exMem :=
      { decodedAt (.beq 1 2 8) 0 5 5 with
        branchTaken := some true
        targetAddress := some 8
        flushRequired := some true } }

theorem test_flush_fetches_target :
    nextHas (step mispredicted) (fun t =>
      decide (t.ifId.pc = 8 ∧ t.idEx.pc = 8 ∧ t.idEx.record.op = .nop ∧ t.exMem = bubble 4 ∧ t.pc = 12)) = true := by
  decide

/-- The same with the slot at the target filled. -/
def mispredictedFilled : State :=
  { mispredicted with imem := [(2, { address := 8, op := .add 6 0 0 })] }

/-- A branch at 8 predicted taken that is not taken (46 R246, 92 D10). -/
def mispredictedNotTaken : State :=
  { mispredicted with
    pc := 24
    exMem :=
      { decodedAt (.bne 1 0 12) 8 0 0 with
        predictedTaken := some true
        predictedTarget := some 20
        branchTaken := some false
        targetAddress := some 20
        flushRequired := some true } }

/-- R246: past the branch, at 8 + 4, and not at the predicted target. -/
theorem test_flush_not_taken_fetches_past_branch :
    nextHas (step mispredictedNotTaken) (fun t => decide (t.ifId = bubble 12 ∧ t.pc = 16)) = true := by decide

/-- V-P1: a flush and a predicted-taken jal at once; the flush wins. -/
def flushMeetsPrediction : State :=
  { mispredicted with
    pc := 20
    idEx := { decodedAt (.jal 0 (-12)) 12 0 0 with predictedTaken := some true, predictedTarget := some 0 }
    exMem :=
      { decodedAt (.beq 1 3 8) 8 2 2 with
        branchTaken := some true
        targetAddress := some 16
        flushRequired := some true } }

theorem test_flush_wins : (redirect flushMeetsPrediction).pc = 16 := by decide

/-- A predicted-taken jal redirects fetch and squashes IF_ID (46 R246). -/
def predictedJump : State :=
  { State.reset with
    pc := 12
    ifId := { record := { address := 8, op := .add 6 0 0 }, pc := 8 }
    idEx := { decodedAt (.jal 0 16) 4 0 0 with predictedTaken := some true, predictedTarget := some 20 } }

theorem test_predicted_redirect :
    nextHas (step predictedJump) (fun t =>
      decide (t.ifId.pc = 20 ∧ t.pc = 24 ∧ t.idEx.record.op = .nop ∧ t.exMem.flushRequired = some false ∧
        t.metrics.branchesCorrect = 1)) = true := by decide

/-- A taken prediction at Decode (46 R243): the bit at 8/4 is set, offset -8. -/
def predictsTaken : State :=
  { State.reset with bp := [(2, true)], ifId := { record := { address := 8, op := .bne 1 0 (-8) }, pc := 8 } }

theorem test_prediction_at_decode :
    nextHas (step predictsTaken) (fun t =>
      decide (t.idEx.predictedTaken = some true ∧ t.idEx.predictedTarget = some 0)) = true := by decide

/-- A fatal error stops the run: no further cycle (47 R263). -/
theorem test_faulted_runs_no_cycle :
    step { State.reset with status := .faulted (.memoryAccessError 2) } =
      .fault (.halted (.memoryAccessError 2)) := by rfl

/-- An instruction placed by its word runs in the very next step (V-S5's add, both operands 0). -/
theorem test_placed_word_runs :
    nextHas (step (State.reset.withFetchWord 32 0x003100b3)) (fun t =>
      decide (t.exMem.record.op = .add 1 2 3 ∧ t.exMem.aluResult = some 0)) = true := by decide

/-! ## The host interface (95_test_vectors V-S2, V-D, V-S8) -/

theorem test_load_program :
    nextHas (loadProgram ["addi x0, x0, 5".toList, "add x1, x0, x0".toList] State.reset) (fun t =>
      decide (t.imem = [(0, { address := 0, op := .addi 0 0 5 }), (1, { address := 4, op := .add 1 0 0 })])) = true := by
  decide
theorem test_load_program_bad_line :
    loadProgram ["addi x0, x0, 5".toList, "nop".toList] State.reset =
      .fault (.hostCallFailed (.decodeError 1 "nop".toList)) := by rfl
theorem test_preload_minus_one :
    nextHas (preloadRegisters [("x1".toList, -1)] State.reset)
      (fun t => decide (readReg t.regs 1 = 0xFFFFFFFF)) = true := by decide
theorem test_preload_unknown_register :
    preloadRegisters [("x32".toList, 1)] State.reset = .fault (.hostCallFailed (.registerError "x32".toList)) := by rfl
theorem test_preload_value_range :
    preloadRegisters [("x1".toList, 2 ^ 32)] State.reset =
      .fault (.hostCallFailed (.registerError "x1".toList)) := by rfl
theorem test_preload_memory_top :
    nextHas (preloadDataMemory [(4092, -1)] State.reset)
      (fun t => decide (readWord t.dmem 4092 = 0xFFFFFFFF)) = true := by decide
theorem test_preload_memory_misaligned :
    preloadDataMemory [(2, 1)] State.reset = .fault (.hostCallFailed (.memoryAccessError 2)) := by rfl
theorem test_preload_memory_out_of_range :
    preloadDataMemory [(4096, 1)] State.reset = .fault (.hostCallFailed (.memoryAccessError 4096)) := by rfl
theorem test_control_unit_illegal :
    generateSignalsOf "illegal".toList = .error (.unsupportedOperationError "illegal".toList) := by rfl
theorem test_load_outside_boot_refused :
    loadProgram [] { State.reset with metrics := ⟨1, 0, 0, 0⟩ } =
      .refused (.hostCallOutsideBoot "load_program") := by rfl

/-! ## Witnesses: hypotheses that can be met -/

/-- RTypeResults to NopDoesNothing, CycleFrame, PredictionCheck: for every constructor, the cycle that executes it
raises no error; the shift mask is the normative one. -/
theorem witness_every_instruction_can_commit :
    (∀ i ∈ everyForm, CanCommit i (inExecute i 0 0 0)) ∧ normativeMask State.reset := by decide

/-- PassesMemory of every constructor, and lw's and sw's legal access at the top word. -/
theorem witness_every_instruction_in_memory :
    ∀ i ∈ everyForm, StepCommits (inMemory i 4092 7) ∧ HoldsDecoded i (inMemory i 4092 7).exMem ∧
      (inMemory i 4092 7).exMem.aluResult = some 4092 := by decide

/-- Write-Back of every constructor. -/
theorem witness_every_instruction_in_write_back :
    ∀ i ∈ everyForm, StepCommits (inWriteBack i 3 7) ∧ HoldsDecoded i (inWriteBack i 3 7).memWb ∧
      (inWriteBack i 3 7).memWb.aluResult = some 3 ∧ (inWriteBack i 3 7).memWb.memData = some 7 := by decide

/-- LoadResult and StoreResult, the failing clauses, at the first address past the memory and at a misaligned one. -/
theorem witness_illegal_access :
    ∀ ea ∈ [(4096 : Word), 4090], ∀ i ∈ [Instr.lw 1 2 0, Instr.sw 1 2 0],
      (inMemory i ea 7).status = .running ∧
      FrontEndOk (inMemory i ea 7) (slotsFor (executing (inMemory i ea 7)) (inMemory i ea 7)) ∧
      HoldsDecoded i (inMemory i ea 7).exMem ∧ (inMemory i ea 7).exMem.aluResult = some ea ∧
      ¬ LegalAddress (inMemory i ea 7).cfg.dmemWords ea := by
  intro ea hea i hi
  simp only [List.mem_cons, List.not_mem_nil, or_false] at hea hi
  rcases hea with rfl | rfl <;> rcases hi with rfl | rfl <;> decide

/-- LoadResult, the stalled consumer; LoadUseStall, the clause about a stall. -/
theorem witness_stall :
    loadThenUse.cfg.hasHazardUnit = true ∧ CanCommit (.lw 1 2 0) loadThenUse ∧ StepCommits loadThenUse ∧
      (redirect loadThenUse).ifId.record.op.rs1 = some 1 ∧
      (hazardOf loadThenUse (slotsFor (executing loadThenUse) loadThenUse)).stall = true := by decide

/-- StoreResult, the store's data and a canonical memory. -/
theorem witness_store :
    StepCommits (inMemory (.sw 1 2 8) 4092 7) ∧ Memory.Wf (inMemory (.sw 1 2 8) 4092 7).dmem ∧
      (inMemory (.sw 1 2 8) 4092 7).exMem.rs2Val = some 7 := by decide

/-- NopDoesNothing: bubbles everywhere at reset. -/
theorem witness_nop :
    StepCommits State.reset ∧ CanCommit .nop State.reset ∧ (redirect State.reset).ifId.record.op = .nop ∧
      FetchedOnly (redirect State.reset).ifId ∧ State.reset.exMem.record.op = .nop ∧ BubbleFields State.reset.exMem ∧
      State.reset.memWb.record.op = .nop ∧ BubbleFields State.reset.memWb := by decide

/-- CycleFrame: a running next state of a store's cycle; the clauses' sides are met outside the stored word and for
another register. -/
theorem witness_cycle_frame :
    (∃ t, exec .nop (inMemory (.sw 1 2 8) 4092 7) = .next t ∧ t.status = .running) ∧
      storeAddress (inMemory (.sw 1 2 8) 4092 7) = some 4092 ∧ writtenReg (inWriteBack (.lw 1 2 0) 4 7) = some 1 := by
  exact ⟨⟨_, rfl, rfl⟩, by decide, by decide⟩

/-- FailingCycleFrame, FatalErrorStopsTheRun: an illegal fetch address at each end, and an illegal access. -/
theorem witness_failing_cycle :
    (∃ t, exec .nop { State.reset with pc := 4096 } = .next t ∧ t.status ≠ .running) ∧
      (∃ t, exec .nop (inMemory (.lw 1 2 0) 4096 0) = .next t ∧ t.status ≠ .running) := by
  exact ⟨⟨_, rfl, by decide⟩, ⟨_, rfl, by decide⟩⟩

theorem witness_fetch_error :
    ∀ p ∈ [(4096 : Word), 4094, 1], ({ State.reset with pc := p }).status = .running ∧
      (hazardOf { State.reset with pc := p } (slotsFor .nop { State.reset with pc := p })).stall = false ∧
      ¬ LegalAddress ({ State.reset with pc := p }).cfg.imemWords (redirect { State.reset with pc := p }).pc := by
  intro p hp
  simp only [List.mem_cons, List.not_mem_nil, or_false] at hp
  rcases hp with rfl | rfl | rfl <;> decide

theorem witness_memory_error :
    FrontEndOk (inMemory (.sw 1 2 0) 4096 0) (slotsFor .nop (inMemory (.sw 1 2 0) 4096 0)) ∧
      (signalsOf (inMemory (.sw 1 2 0) 4096 0).exMem).memWrite = true ∧
      (signalsOf (inMemory (.lw 1 2 0) 4096 0).exMem).memRead = true := by decide

/-- LoneAluPassage, PlacedIsTwoFrontCycles: a lone instruction at address 0, and at the last place that leaves four
empty slots. -/
theorem witness_alone :
    ∀ p ∈ [(0 : Word), 4076], AloneAtPc (aloneAt (.addi 1 2 (-1)) p) (.addi 1 2 (-1)) ∧
      (Instr.addi 1 2 (-1)).rd = some 1 ∧ (generateSignals (Instr.addi 1 2 (-1)).opcode).memRead = false ∧
      alu (aloneAt (.addi 1 2 (-1)) p).cfg.shiftMask (generateSignals (Instr.addi 1 2 (-1)).opcode).aluOp
        (((Instr.addi 1 2 (-1)).rs1.map (readReg (aloneAt (.addi 1 2 (-1)) p).regs)).getD 0)
        (((Instr.addi 1 2 (-1)).imm.map wrap).getD
          (((Instr.addi 1 2 (-1)).rs2.map (readReg (aloneAt (.addi 1 2 (-1)) p).regs)).getD 0))
        (aloneAt (.addi 1 2 (-1)) p).pc = some 0xFFFFFFFF := by
  intro p hp
  simp only [List.mem_cons, List.not_mem_nil, or_false] at hp
  rcases hp with rfl | rfl <;> refine ⟨?_, ?_, ?_, ?_⟩ <;> decide

theorem witness_alone_load :
    AloneAtPc (aloneAt (.lw 1 0 4092) 0) (.lw 1 0 4092) ∧
      LegalAddress (aloneAt (.lw 1 0 4092) 0).cfg.dmemWords
        (readReg (aloneAt (.lw 1 0 4092) 0).regs 0 + wrap 4092) := by decide

theorem witness_alone_store :
    AloneAtPc (aloneAt (.sw 1 0 4092) 0) (.sw 1 0 4092) ∧
      LegalAddress (aloneAt (.sw 1 0 4092) 0).cfg.dmemWords
        (readReg (aloneAt (.sw 1 0 4092) 0).regs 0 + wrap 4092) := by decide

/-- StepRunsTheSlot: a record at the pc, no stall, no error; the same with an empty slot; and a word that decodes. -/
theorem witness_fetched_record :
    StepCommits (aloneAt (.add 1 2 3) 4092) ∧
      (hazardOf (aloneAt (.add 1 2 3) 4092)
        (slotsFor (executing (aloneAt (.add 1 2 3) 4092)) (aloneAt (.add 1 2 3) 4092))).stall = false ∧
      imemAt (aloneAt (.add 1 2 3) 4092).imem (redirect (aloneAt (.add 1 2 3) 4092)).pc =
        some { address := 4092, op := .add 1 2 3 } := by decide

theorem witness_fetched_empty :
    StepCommits { State.reset with pc := 4092 } ∧
      (hazardOf { State.reset with pc := 4092 }
        (slotsFor (executing { State.reset with pc := 4092 }) { State.reset with pc := 4092 })).stall = false ∧
      imemAt State.reset.imem (redirect { State.reset with pc := 4092 }).pc = none := by decide

theorem witness_word_decodes : decodeWord 0x003100b3 = .ok (.add 1 2 3) := by rfl

/-- RedirectPhase: each of its three cases, a flush of a branch that is not taken among them. -/
theorem witness_redirect :
    (mispredicted.exMem.flushRequired = some true ∧ mispredicted.exMem.targetAddress = some 8) ∧
      (mispredictedNotTaken.exMem.flushRequired = some true ∧
        mispredictedNotTaken.exMem.branchTaken = some false) ∧
      (predictedJump.exMem.flushRequired ≠ some true ∧ predictedJump.idEx.predictedTaken = some true ∧
        predictedJump.idEx.predictedTarget = some 20) ∧
      (State.reset.exMem.flushRequired ≠ some true ∧ State.reset.idEx.predictedTaken ≠ some true) := by decide

/-- FlushSquashesYounger: a taken branch with an empty and with a filled slot at its target, and one not taken. -/
theorem witness_flush :
    StepCommits mispredicted ∧ mispredicted.exMem.flushRequired = some true ∧
      mispredicted.exMem.branchTaken = some true ∧ mispredicted.exMem.targetAddress = some 8 ∧
      imemAt mispredicted.imem 8 = none := by decide
theorem witness_flush_filled :
    StepCommits mispredictedFilled ∧ mispredictedFilled.exMem.flushRequired = some true ∧
      mispredictedFilled.exMem.branchTaken = some true ∧ mispredictedFilled.exMem.targetAddress = some 8 ∧
      imemAt mispredictedFilled.imem 8 = some { address := 8, op := .add 6 0 0 } := by decide
theorem witness_flush_not_taken :
    StepCommits mispredictedNotTaken ∧ mispredictedNotTaken.exMem.flushRequired = some true ∧
      mispredictedNotTaken.exMem.branchTaken ≠ some true ∧
      (12 : Word) = wrap (unsigned mispredictedNotTaken.exMem.pc + 4) := by decide

/-- FifoShift: three running steps with no stall and no flush. -/
theorem witness_fifo_shift :
    ∃ s1 s2 s3, step (aloneAt (.add 1 2 3) 0) = .next s1 ∧ step s1 = .next s2 ∧ step s2 = .next s3 ∧
      s1.status = .running ∧ s2.status = .running ∧ s3.status = .running ∧
      s1.exMem.flushRequired ≠ some true := by
  exact ⟨_, _, _, rfl, rfl, rfl, rfl, rfl, rfl, by decide⟩

theorem witness_fifo_shift_start :
    (hazardOf (aloneAt (.add 1 2 3) 0) (slotsFor (executing (aloneAt (.add 1 2 3) 0)) (aloneAt (.add 1 2 3) 0))).stall =
        false ∧
      (aloneAt (.add 1 2 3) 0).exMem.flushRequired ≠ some true ∧
      (aloneAt (.add 1 2 3) 0).idEx.predictedTaken ≠ some true := by decide

/-- PredictorRemembersLastOutcome: both predictor kinds, an empty and a filled table, a neighbour entry. -/
theorem witness_predictor :
    Canonical false ([] : List (Nat × Bool)) ∧ Canonical false [(2, true)] ∧ Config.default.realPredictor = true ∧
      ({ Config.default with name := .noPredictor } : Config).realPredictor = false ∧
      (12 : Word).toNat / 4 ≠ (8 : Word).toNat / 4 := by decide

/-- PredictionAtDecode: a predicted instruction, and one that is not. -/
theorem witness_prediction :
    StepCommits predictsTaken ∧
      (hazardOf predictsTaken (slotsFor (executing predictsTaken) predictsTaken)).stall = false ∧
      FetchedOnly (redirect predictsTaken).ifId ∧ isPredicted (redirect predictsTaken).ifId.record.op.opcode = true ∧
      (redirect predictsTaken).ifId.record.op.imm = some (-8) ∧
      isPredicted (redirect State.reset).ifId.record.op.opcode = false := by decide

/-- OperandsWithHazardUnit: the source's producer in EX_MEM. -/
theorem witness_operands :
    StepCommits loadForwards ∧ loadForwards.cfg.hasHazardUnit = true ∧ loadForwards.cfg.fwdPoint = .decode ∧
      (hazardOf loadForwards (slotsFor (executing loadForwards) loadForwards)).stall = false ∧
      HoldsDecoded loadForwards.exMem.record.op loadForwards.exMem ∧
      (redirect loadForwards).ifId.record.op.rs1 = some 1 ∧ (redirect loadForwards).ifId.record.op.rs2 = some 4 := by
  decide

/-- OperandsWithHazardUnit: a bubble in EX_MEM, the producer, a load, in MEM_WB, and x0 as the other source. -/
def loadTwoBack : State :=
  { inWriteBack (.lw 1 2 0) 4 100 with
    exMem := bubble 4
    ifId := { record := { address := 4, op := .add 3 1 0 }, pc := 4 } }

theorem witness_operands_bubble :
    StepCommits loadTwoBack ∧ loadTwoBack.cfg.hasHazardUnit = true ∧ loadTwoBack.cfg.fwdPoint = .decode ∧
      (hazardOf loadTwoBack (slotsFor (executing loadTwoBack) loadTwoBack)).stall = false ∧
      loadTwoBack.exMem.record.op = .nop ∧
      (redirect loadTwoBack).ifId.record.op.rs1 = some 1 ∧ (redirect loadTwoBack).ifId.record.op.rs2 = some 0 := by
  decide

/-- R340: P3's write-back value, the loaded word; x0 reads 0. -/
theorem test_load_two_back_forwards :
    nextHas (step loadTwoBack) (fun t => decide (t.idEx.rs1Val = some 100 ∧ t.idEx.rs2Val = some 0)) = true := by decide

/-- OperandsWithoutHazardUnit. -/
theorem witness_operands_without :
    StepCommits { loadForwards with cfg := { Config.default with name := .noHazards } } ∧
      ({ Config.default with name := .noHazards } : Config).hasHazardUnit = false := by decide

/-- ForwardingAtExecute: Decode's read, and an operand in the Execute slot whose producer is in EX_MEM. -/
def forwardsLate : State :=
  { inMemory (.addi 1 0 10) 10 0 with
    cfg := { Config.default with fwdPoint := .execute }
    ifId := { record := { address := 8, op := .add 3 1 4 }, pc := 8 }
    idEx := decodedAt (.add 2 1 1) 4 0 0 }

theorem witness_forwarding_at_execute :
    forwardsLate.cfg.hasHazardUnit = true ∧ forwardsLate.cfg.fwdPoint = .execute ∧ StepCommits forwardsLate ∧
      (hazardOf forwardsLate (slotsFor (executing forwardsLate) forwardsLate)).stall = false ∧
      (redirect forwardsLate).ifId.record.op.rs1 = some 1 ∧ (redirect forwardsLate).idEx.rs1Val = some 0 ∧
      (redirect forwardsLate).idEx.rs2Val = some 0 := by decide

/-- V-H3: 20 under FWD_POINT = execute. -/
theorem test_forwards_at_execute :
    nextHas (step forwardsLate) (fun t => decide (t.exMem.aluResult = some 20)) = true := by decide

/-- MemoryRoundTrip: the canonical empty memory, a legal top word and its neighbour, illegal addresses at the edge. -/
theorem witness_memory :
    Memory.Wf [] ∧ LegalAddress 1024 4092 ∧ LegalAddress 1024 4088 ∧ ¬ LegalAddress 1024 4096 ∧
      ¬ LegalAddress 1024 4093 := by decide

/-- NegativeAddresses: base 0, offset -4, in the largest memory of each clause; and the least offset. -/
theorem witness_negative_address :
    unsigned 0 + (-4) < 0 ∧ (-2 : Int) ^ 31 ≤ -4 ∧ (2 : Nat) ^ 29 ≤ 2 ^ 29 ∧
      unsigned 0 + (-4) + 2 ^ 32 < 4 * ((2 : Nat) ^ 30 : Nat) ∧ (unsigned 0 + (-4)) % 4 = 0 := by decide
theorem witness_least_offset : unsigned 0 + (-2 ^ 31) < 0 ∧ (-2 ^ 31 : Int) ≤ -2 ^ 31 := by decide

/-- The invariants' premises hold at reset, where a step answers a next state. -/
theorem witness_step_from_reset : ∃ t, step State.reset = .next t := ⟨_, rfl⟩
theorem witness_canonical : MemoriesCanonical State.reset ∧ MemoriesCanonical predictsTaken := by
  constructor <;> (refine ⟨?_, ?_, ?_, ?_⟩ <;> decide)
theorem witness_hardwired : ZeroCell State.reset ∧ NullTableEmpty State.reset := by
  exact ⟨by decide, fun _ => rfl⟩
theorem witness_program : ProgramOk (aloneAt (.addi 1 2 (-1)) 4092) := by decide
theorem witness_filled : PipelineFilled (aloneAt (.addi 1 2 (-1)) 4092) := by
  refine ⟨?_, ?_, ?_, ?_, ?_, ?_, ?_, ?_⟩ <;> decide
theorem witness_inv : (aloneAt (.addi 1 2 (-1)) 4092).Inv := by
  refine ⟨?_, ⟨?_, ?_, ?_, ?_⟩, ?_, witness_program, fun _ => rfl, ?_, ?_, witness_filled⟩ <;> decide

/-- InvariantAtReset, CycleOnResetState: the smallest and the largest memories. -/
theorem witness_config :
    Config.default.Wf ∧ ({ Config.default with imemWords := 1, dmemWords := 1 } : Config).Wf ∧
      ({ Config.default with imemWords := 2 ^ 30, dmemWords := 2 ^ 30 } : Config).Wf := by decide

/-- DerivedMetrics: each side of each denominator. -/
theorem witness_metrics :
    cpi ⟨8, 2, 1, 0⟩ = some 4 ∧ cpi ⟨0, 0, 0, 0⟩ = none ∧ branchAccuracy ⟨7, 3, 1, 1⟩ = some 1 ∧
      branchAccuracy ⟨0, 0, 0, 0⟩ = none := by decide

/-- ControlTable, UnsupportedOperationInfo: a text that is no opcode. -/
theorem witness_no_opcode : ∀ o : Opcode, o.text ≠ "illegal".toList := by
  intro o
  cases o <;> decide

/-- WordRoundTrip, LineRoundTrip: immediates at the ends of their fields. -/
theorem witness_encodable :
    (Instr.addi 31 31 (-2048)).encodable = true ∧ (Instr.beq 31 0 4094).encodable = true ∧
      (Instr.jal 31 (-1048576)).encodable = true ∧ (Instr.lui 31 1048575).encodable = true := by decide
theorem witness_loadable :
    (Instr.addi 31 31 (-2147483648)).loadable = true ∧ (Instr.beq 31 0 2147483647).loadable = true := by decide
theorem witness_line_decodes : decodeLine "sw x5, -4(x3)".toList = .ok (.sw 5 3 (-4)) := rfl

/-- LoadProgram, LoadNamesFirstFailure: a program that fills every slot, one of that length with a bad line, one a line
too long. -/
theorem witness_load :
    inBoot (State.resetWith { Config.default with imemWords := 1 }) = true ∧
      ["add x1, x2, x3".toList].map decodeLine = [Instr.add 1 2 3].map Except.ok ∧
      ["add x1, x2, x3".toList].length = (State.resetWith { Config.default with imemWords := 1 }).cfg.imemWords := by
  exact ⟨by decide, rfl, by decide⟩
theorem witness_load_bad_line :
    "nop".toList ∈ ["nop".toList] ∧ decodeLine "nop".toList = .error .unknownOpcode ∧
      ["nop".toList].length = (State.resetWith { Config.default with imemWords := 1 }).cfg.imemWords := by
  exact ⟨by decide, rfl, by decide⟩
theorem witness_load_too_long :
    (State.resetWith { Config.default with imemWords := 1 }).cfg.imemWords <
        ["add x1, x2, x3".toList, "add x3, x1, x2".toList].length ∧
      ["add x1, x2, x3".toList, "add x3, x1, x2".toList].map decodeLine =
        [Instr.add 1 2 3, Instr.add 3 1 2].map Except.ok ∧
      ["add x1, x2, x3".toList, "add x3, x1, x2".toList][
        (State.resetWith { Config.default with imemWords := 1 }).cfg.imemWords]? = some "add x3, x1, x2".toList := by
  exact ⟨by decide, rfl, rfl⟩

/-- PreloadRegisters: a map of distinct registers, x0 among them, at both ends of the value range; a map with two bad
pairs, a name and a value just past the range. -/
theorem witness_preload_map :
    inBoot State.reset = true ∧
      [("x31".toList, (-2 ^ 31 : Int)), ("x0".toList, 2 ^ 32 - 1)].Pairwise (fun p q => p.1 ≠ q.1) ∧
      ∀ p ∈ [("x31".toList, (-2 ^ 31 : Int)), ("x0".toList, 2 ^ 32 - 1)],
        (∃ r, parseReg p.1 = .ok r) ∧ -2 ^ 31 ≤ p.2 ∧ p.2 ≤ 2 ^ 32 - 1 := by
  refine ⟨by decide, by decide, fun p hp => ?_⟩
  simp only [List.mem_cons, List.not_mem_nil, or_false] at hp
  rcases hp with rfl | rfl
  · exact ⟨⟨31, rfl⟩, by decide, by decide⟩
  · exact ⟨⟨0, rfl⟩, by decide, by decide⟩
theorem witness_preload_bad_map :
    ∀ p ∈ [("x1".toList, (2 ^ 32 : Int)), ("x32".toList, 1)],
      (∀ r : RegNum, parseReg p.1 ≠ .ok r) ∨ p.2 < -2 ^ 31 ∨ 2 ^ 32 - 1 < p.2 := by
  intro p hp
  simp only [List.mem_cons, List.not_mem_nil, or_false] at hp
  rcases hp with rfl | rfl
  · exact .inr (.inr (by decide))
  · exact .inl fun r h => by cases h

/-- PreloadTakesPairsInTurn, PreloadDataMemory: a name that is a register and one that is not, the ends of the value range, a
legal and an illegal address. -/
theorem witness_preload :
    parseReg "x31".toList = .ok 31 ∧ (∀ r : RegNum, parseReg "sp".toList ≠ .ok r) ∧
      (-2 : Int) ^ 31 ≤ -2 ^ 31 ∧ (2 : Int) ^ 32 - 1 ≤ 2 ^ 32 - 1 ∧
      LegalAddress State.reset.cfg.dmemWords 4092 ∧ ¬ LegalAddress State.reset.cfg.dmemWords 4096 := by
  refine ⟨rfl, fun r h => ?_, by decide, by decide, by decide, by decide⟩
  cases h

/-- RunEndsDrained: an empty program drains after one cycle; a fetch outside the memory fails. -/
theorem witness_run :
    (∃ t, runBounded 1 State.reset = .drained t) ∧
      (∃ e t, runBounded 1 { State.reset with pc := 4096 } = .failed e t) :=
  ⟨⟨_, rfl⟩, ⟨_, _, rfl⟩⟩

end Sys2Proof.Tests
end

section
/-! SUPPORT. The step rules that the state's statements rest on: what a step keeps, what each stage can produce, and
the fields it fills; then the statements of the state (10_state, 47 R261). -/

namespace Sys2Proof.Machine

/-! ## Registers (10_state R21) -/

@[simp] theorem readReg_writeReg_self {r : RegNum} (h : r ≠ 0) (regs : Vector Word 32) (v : Word) :
    readReg (writeReg regs r v) r = v := by
  simp [readReg_of_ne h, writeReg_of_ne h]

theorem readReg_writeReg_of_ne {q r : RegNum} (h : q ≠ r) (regs : Vector Word 32) (v : Word) :
    readReg (writeReg regs r v) q = readReg regs q := by
  by_cases hr : r = 0
  · rw [hr, writeReg_zero]
  · by_cases hq : q = 0
    · rw [hq, readReg_zero, readReg_zero]
    · have hval : (r : Nat) ≠ q := fun e => h (Fin.ext e.symm)
      simp [readReg_of_ne hq, writeReg_of_ne hr, hval]

/-- Settles O33: the register file's accessors, write to x0 and to another register apart. -/
theorem registerFile : Obligations.RegisterFile := by
  intro regs r q v
  exact ⟨readReg_zero regs, writeReg_zero regs v, fun hr => readReg_writeReg_self hr regs v,
    fun hq => readReg_writeReg_of_ne hq regs v⟩

/-- Write-Back leaves the cell of x0 alone. -/
theorem writeBack_cell_zero (regs : Vector Word 32) (w : Snapshot) : (writeBack regs w)[0] = regs[0] := by
  unfold writeBack
  split
  · split
    · exact writeReg_cell_zero _ _ _
    · rfl
  · rfl

/-- Write-Back changes what is read of `writtenReg` only. -/
theorem readReg_writeBack_of_ne {s : State} {r : RegNum} (h : writtenReg s ≠ some r) :
    readReg (writeBack s.regs s.memWb) r = readReg s.regs r := by
  unfold writeBack
  split
  case isFalse => rfl
  case isTrue hw =>
    split
    case h_2 => rfl
    case h_1 q hq =>
      by_cases hq0 : q = 0
      · rw [hq0, writeReg_zero]
      · have hne : r ≠ q := fun e => h (by simp [writtenReg, hw, hq, e, hq0])
        exact readReg_writeReg_of_ne hne _ _

/-! ## What a step keeps -/

/-- The state after a cycle of `s` that raises no error, `i` in its Execute slot. -/
abbrev cycleAfter (i : Instr) (s : State) : State :=
  committed s (slotsFor i s) (frontAfter s (slotsFor i s)) (memoryAfter s) (stageOf s.cfg i (slotOf i s))

/-- The one way to prove that a step keeps `P`: a fatal error keeps it, and a cycle that commits keeps it. -/
theorem step_keeps {P : State → Prop} {s t : State} (h : step s = .next t)
    (fatal : ∀ e, P (raiseFatal s e)) (commits : StepCommits s → P (cycleAfter (executing s) s)) : P t := by
  obtain ⟨-, ⟨hc, rfl⟩ | ⟨a, rfl⟩⟩ := step_cases h
  · exact commits hc
  · exact fatal _

/-- A meaning that answers a running state has committed its cycle. -/
theorem eq_cycleAfter_of_exec {i : Instr} {s t : State} (h : exec i s = .next t) (ht : t.status = .running) :
    t = cycleAfter i s := by
  rw [exec_eq_commit] at h
  obtain ⟨-, ⟨-, -, e⟩ | ⟨-, e⟩ | ⟨-, -, e⟩⟩ := commit_cases h
  · exact e
  · rw [e] at ht
    cases ht
  · rw [e] at ht
    cases ht

/-! ## The Execute stage: its forms, and what each leaves alone -/

/-- The forms the Execute stage of `i` can take on `e` (44 R196). -/
inductive StageForm (c : Config) (i : Instr) (e : Snapshot) : Executed → Prop
  | nop (h : i = .nop) : StageForm c i e (executeNop e)
  | alu (hb : (generateSignals i.opcode).branch = false)
      (hv : ∀ a b pc, ∃ v, alu c.shiftMask (generateSignals i.opcode).aluOp a b pc = some v) :
      StageForm c i e (executeAlu c e)
  | branch (taken : Bool) (hp : isPredicted i.opcode = true) (hs : generateSignals i.opcode = signalsBranch) :
      StageForm c i e (executeBranch taken e)
  | jal (h : i.opcode = .jal) : StageForm c i e (executeJal e)
  | jalr (h : i.opcode = .jalr) : StageForm c i e (executeJalr e)

theorem stageOf_form (c : Config) (i : Instr) (e : Snapshot) : StageForm c i e (stageOf c i e) := by
  cases i with
  | nop => exact .nop rfl
  | jal => exact .jal rfl
  | jalr => exact .jalr rfl
  | beq | bne | blt | bge | bltu | bgeu => exact .branch _ rfl rfl
  | _ => exact .alu rfl fun _ _ _ => ⟨_, rfl⟩

theorem executeAlu_train (c : Config) (e : Snapshot) : (executeAlu c e).train = none := by
  unfold executeAlu
  split <;> rfl

/-- Only a B-type or jal trains the predictor (46 R247, R248). -/
theorem StageForm.isPredicted_of_train {c : Config} {i : Instr} {e : Snapshot} {x : Executed} {b : Bool}
    (hx : StageForm c i e x) (h : x.train = some b) : isPredicted i.opcode = true := by
  cases hx with
  | nop => cases h
  | alu => simp [executeAlu_train] at h
  | branch _ hp _ => exact hp
  | jal ho => rw [ho]; rfl
  | jalr => cases h

/-- Execute writes no field but the four that are its own (10_state R32). -/
theorem StageForm.exMem_eq {c : Config} {i : Instr} {e : Snapshot} {x : Executed} (hx : StageForm c i e x) :
    ∃ v taken target flush, x.exMem =
      { e with aluResult := v, branchTaken := taken, targetAddress := target, flushRequired := flush } := by
  cases hx with
  | alu =>
    unfold executeAlu
    split <;> exact ⟨_, _, _, _, rfl⟩
  | nop | branch | jal | jalr => exact ⟨_, _, _, _, rfl⟩

/-! ## The predictor table (10_state R40, R41; 46 R242) -/

/-- All that training can do to the table: nothing, or with the real predictor the slot's bit is overwritten. -/
theorem trainedTable_cases (s : State) (e : Snapshot) (train : Option Bool) :
    trainedTable s e train = s.bp ∨
      ∃ b, train = some b ∧ s.cfg.realPredictor = true ∧ trainedTable s e train = bpSet s.bp e.pc b := by
  cases train with
  | none => exact .inl rfl
  | some b =>
    by_cases hr : s.cfg.realPredictor = true
    · exact .inr ⟨b, rfl, hr, if_pos hr⟩
    · exact .inl (if_neg hr)

theorem canonical_trainedTable {s : State} (h : Canonical false s.bp) (e : Snapshot) (train : Option Bool) :
    Canonical false (trainedTable s e train) := by
  obtain hb | ⟨b, -, -, hb⟩ := trainedTable_cases s e train <;> rw [hb]
  · exact h
  · exact canonical_writeAt h _ _

theorem trainedTable_of_null {s : State} (h : s.cfg.realPredictor = false) (e : Snapshot) (train : Option Bool) :
    trainedTable s e train = s.bp := by
  obtain hb | ⟨b, -, hr, -⟩ := trainedTable_cases s e train
  · exact hb
  · rw [h] at hr
    cases hr

/-- A cycle changes the bit of no address but, for a B-type or jal, that of the Execute slot. -/
theorem bpBit_cycleAfter_of_ne {i : Instr} {s : State} {p : Word}
    (h : isPredicted i.opcode = true → p.toNat / 4 ≠ (slotOf i s).pc.toNat / 4) :
    bpBit (cycleAfter i s).bp p = bpBit s.bp p := by
  rw [committed_bp]
  obtain hb | ⟨b, ht, -, hb⟩ := trainedTable_cases s (slotsFor i s).idEx (stageOf s.cfg i (slotOf i s)).train
  · rw [hb]
  · have hne := h ((stageOf_form _ _ _).isPredicted_of_train ht)
    rw [slotOf_pc] at hne
    rw [hb, slotsFor_idEx, bpSet, holding_pc]
    exact readAt_writeAt_of_ne hne _ _ _

/-! ## The data memory (20_memory R60 to R62) -/

/-- All that the Memory stage can do to the data memory: nothing, or a store replaces the word at its address. -/
theorem memoryAfter_dmem_cases (s : State) :
    (memoryAfter s).dmem = s.dmem ∨
      ((signalsOf s.exMem).memWrite = true ∧ storeAddress s = some (aluResultOf s.exMem).toNat ∧
        (memoryAfter s).dmem = writeWord s.dmem (aluResultOf s.exMem).toNat (rs2Of s.exMem)) := by
  by_cases hw : (signalsOf s.exMem).memWrite = true
  · exact .inr ⟨hw, if_pos hw, if_pos hw⟩
  · exact .inl (if_neg hw)

theorem readByte_memoryAfter_of_outside {s : State} {b : Nat}
    (h : ∀ a, storeAddress s = some a → b < a ∨ a + 4 ≤ b) :
    readByte (memoryAfter s).dmem b = readByte s.dmem b := by
  obtain hm | ⟨-, ha, hm⟩ := memoryAfter_dmem_cases s <;> rw [hm]
  exact readByte_writeWord_of_outside (h _ ha) _ _

theorem memoryAfter_dmem_wf {s : State} (h : Memory.Wf s.dmem) : Memory.Wf (memoryAfter s).dmem := by
  obtain hm | ⟨-, -, hm⟩ := memoryAfter_dmem_cases s <;> rw [hm]
  · exact h
  · exact writeWord_wf h _ _

/-- A legal store lists no byte outside the data space. -/
theorem memoryAfter_dmem_inSpace {s : State} (hok : MemoryOk s) (h : ∀ c ∈ s.dmem, c.1 < 4 * s.cfg.dmemWords) :
    ∀ c ∈ (memoryAfter s).dmem, c.1 < 4 * s.cfg.dmemWords := by
  intro c hc
  obtain hm | ⟨hw, -, hm⟩ := memoryAfter_dmem_cases s <;> rw [hm] at hc
  · exact h c hc
  · obtain ⟨haligned, hrange⟩ := hok (.inr hw)
    obtain hin | hold := key_of_mem_writeWord hc
    · omega
    · exact h c hold

/-! ## The frame of a cycle, and the memories' invariants -/

/-- Settles O11: one frame rule for each part of the state that a cycle writes. -/
theorem cycleFrame : Obligations.CycleFrame := by
  intro i s t h ht
  rw [eq_cycleAfter_of_exec h ht]
  exact ⟨rfl, rfl, fun _ hr => readReg_writeBack_of_ne hr, fun _ hb => readByte_memoryAfter_of_outside hb,
    fun _ hp => bpBit_cycleAfter_of_ne hp⟩

/-- Settles O37: stores and training keep the canonical form, and a store that commits is legal. -/
theorem memoriesStayCanonical : Obligations.MemoriesStayCanonical := by
  rintro s t ⟨hwf, hspace, hbp, himem⟩ h
  refine step_keeps h (fun _ => ⟨hwf, hspace, hbp, himem⟩) fun hc => ?_
  obtain ⟨-, -, hok⟩ := hc
  exact ⟨memoryAfter_dmem_wf hwf, memoryAfter_dmem_inSpace hok hspace, canonical_trainedTable hbp _ _, himem⟩

/-- Settles O38: Write-Back leaves the cell of x0 alone, and the null predictor is not trained. -/
theorem hardwiredStateStays : Obligations.HardwiredStateStays := by
  intro s t hzero hnull h
  refine step_keeps (P := fun s => ZeroCell s ∧ NullTableEmpty s) h (fun _ => ⟨hzero, hnull⟩) fun _ =>
    ⟨?_, fun hr => ?_⟩
  · exact (writeBack_cell_zero s.regs s.memWb).trans hzero
  · rw [committed_cfg] at hr
    rw [committed_bp, trainedTable_of_null hr, hnull hr]

/-! ## Fetch (44 R191, 10_state R26) -/

theorem fetchedAt_of_some {s : State} {p : Word} {r : Record} (h : imemAt s.imem p = some r) :
    fetchedAt s p = { record := r, pc := p } := by
  simp only [fetchedAt, h]

theorem fetchedAt_of_none {s : State} {p : Word} (h : imemAt s.imem p = none) : fetchedAt s p = bubble p := by
  simp only [fetchedAt, h]

/-- A step that commits and does not stall fetches at the redirected pc and moves it on by 4. -/
theorem step_fetches {s : State} (hc : StepCommits s) (hs : (hazardOf s (slotsFor (executing s) s)).stall = false) :
    ∃ t, step s = .next t ∧ t.ifId = fetchedAt s (redirect s).pc ∧ t.pc = wrap (unsigned (redirect s).pc + 4) := by
  refine ⟨_, step_of_stepCommits hc, ?_, ?_⟩ <;> simp [frontAfter, hs]

@[simp] theorem decodeStage_record (s : State) (hz : Hazard) (f : Snapshot) :
    (decodeStage s hz f).record = f.record := by
  unfold decodeStage
  split <;> rfl

@[simp] theorem decodeStage_pc (s : State) (hz : Hazard) (f : Snapshot) : (decodeStage s hz f).pc = f.pc := by
  unfold decodeStage
  split <;> rfl

/-- The next cycle of a placed instruction executes it: nothing ahead of it is squashed or redirected (log entry 6). -/
@[simp] theorem executing_placed (s : State) (i : Instr) : executing (placed s i) = i := by
  unfold executing redirect
  rw [placed_exMem, bubble_flushRequired, if_neg (by simp)]
  split <;> simp

theorem withFetchWord_of_decodeWord {w : Word} {i : Instr} (h : decodeWord w = .ok i) (s : State) :
    s.withFetchWord 32 w.toNat = placed s i := by
  have hd : decodeTableWord 32 w.toNat = some i := by
    rw [decodeTableWord, if_pos ⟨Nat.le_refl 32, w.isLt⟩, BitVec.ofNat_toNat, BitVec.setWidth_eq, h]
  simp only [State.withFetchWord, hd]

/-- Settles O16: a step by definition, a fetch by what the slot at the pc holds, a word by where it is placed. -/
theorem stepRunsTheSlot : Obligations.StepRunsTheSlot := by
  refine ⟨fun _ => rfl, fun s r hc hs hr => ?_, fun s hc hs hn => ?_, fun s w i hw => ?_⟩
  · rw [← fetchedAt_of_some hr]
    exact step_fetches hc hs
  · rw [← fetchedAt_of_none hn]
    exact step_fetches hc hs
  · rw [withFetchWord_of_decodeWord hw, step, executing_placed]

/-! ## What each stage fills (10_state R31 to R33) -/

theorem fetchedOnly_bubble (p : Word) : FetchedOnly (bubble p) := rfl

theorem bubbleFields_bubble (p : Word) : BubbleFields (bubble p) := by
  simp [BubbleFields, LateFieldsAbsent, bubble]

theorem idExFields_bubble (p : Word) : IdExFields (bubble p) := bubbleFields_bubble p

theorem fetchedFrom_bubble (s : State) (p : Word) : FetchedFrom s (bubble p) := ⟨rfl, fun h => absurd rfl h⟩

/-- A snapshot's signals are its opcode's, whether Decode copied them or the bubble left them absent (40 R111, R112). -/
theorem signalsOf_of_bubbleFields {e : Snapshot} (hn : e.record.op = .nop) (h : BubbleFields e) :
    signalsOf e = generateSignals .nop := by
  obtain ⟨-, -, -, -, hc | hc, -⟩ := h <;> simp [signalsOf, hc, hn, Instr.opcode]

theorem signalsOf_of_decodedFields {e : Snapshot} (h : DecodedFields e) :
    signalsOf e = generateSignals e.record.op.opcode := by
  obtain ⟨-, -, -, -, hc, -⟩ := h
  simp only [signalsOf, hc]

/-- The redirect phase squashes IF_ID to a bubble or leaves it. -/
theorem redirect_ifId_keeps {P : Snapshot → Prop} {s : State} (hb : ∀ p, P (bubble p)) (hf : P s.ifId) :
    P (redirect s).ifId := by
  unfold redirect
  split
  · exact hb _
  · split
    · exact hb _
    · exact hf

/-- The redirect phase squashes ID_EX to a bubble or leaves it. -/
theorem redirect_idEx_keeps {P : Snapshot → Prop} {s : State} (hb : ∀ p, P (bubble p)) (he : P s.idEx) :
    P (redirect s).idEx := by
  unfold redirect
  split
  · exact hb _
  · split <;> exact he

/-! ### Fetch -/

theorem mem_of_lookup {α : Type} {m : List (Nat × α)} {a : Nat} {v : α} (h : lookup m a = some v) : (a, v) ∈ m := by
  induction m with
  | nil => cases h
  | cons p rest ih =>
    obtain ⟨k, x⟩ := p
    unfold lookup at h
    split at h
    case isTrue hk =>
      cases h
      simp [hk]
    case isFalse => exact List.mem_cons_of_mem _ (ih h)

theorem fetchedOnly_fetchedAt (s : State) (p : Word) : FetchedOnly (fetchedAt s p) := by
  unfold fetchedAt
  split <;> rfl

/-- The record in the slot at a legal address carries that address (30_encoding R80). -/
theorem fetchedFrom_fetchedAt {s : State} {p : Word} (hprog : ProgramOk s) (hp : LegalAddress s.cfg.imemWords p) :
    FetchedFrom s (fetchedAt s p) := by
  cases hr : imemAt s.imem p with
  | none =>
    rw [fetchedAt_of_none hr]
    exact fetchedFrom_bubble s p
  | some r =>
    obtain ⟨-, haddr, hload⟩ := hprog _ (mem_of_lookup hr)
    have hslot : 4 * ((p.toNat / 4 : Nat) : Int) = unsigned p := by
      obtain ⟨haligned, -⟩ := hp
      unfold unsigned
      omega
    rw [fetchedAt_of_some hr]
    refine ⟨?_, fun _ => ⟨hp, hload⟩⟩
    rw [haddr, hslot, wrap_unsigned]

/-! ### Decode -/

/-- A predicted instruction has an immediate, its offset (30_encoding R81). -/
theorem imm_of_isPredicted {i : Instr} (h : isPredicted i.opcode = true) : ∃ n, i.imm = some n := by
  cases i with
  | beq | bne | blt | bge | bltu | bgeu | jal => exact ⟨_, rfl⟩
  | _ => cases h

theorem predictedTakenAt_isSome (s : State) (f : Snapshot) :
    (predictedTakenAt s f).isSome = isPredicted f.record.op.opcode := by
  unfold predictedTakenAt
  split
  case isTrue h => exact h.symm
  case isFalse h => exact (Bool.eq_false_iff.mpr h).symm

/-- A target is predicted exactly when the branch is predicted taken, and it is the branch's own (46 R243). -/
theorem predictedTargetAt_eq {s : State} {f e : Snapshot} (hpc : e.pc = f.pc) (himm : e.imm = immWord f.record.op) :
    predictedTargetAt s f = if predictedTakenAt s f = some true then some (relativeTarget e) else none := by
  unfold predictedTargetAt
  by_cases ht : predictedTakenAt s f = some true
  · have hp : isPredicted f.record.op.opcode = true := by rw [← predictedTakenAt_isSome s f, ht]; rfl
    obtain ⟨n, hn⟩ := imm_of_isPredicted hp
    simp [ht, relativeTarget, immOf, hpc, himm, immWord, hn]
  · rw [if_neg ht, if_neg ht]

/-- Decode of what Fetch left in IF_ID fills ID_EX (44 R193). -/
theorem idExFields_decodeStage (s : State) (hz : Hazard) {f : Snapshot} (h : FetchedOnly f) :
    IdExFields (decodeStage s hz f) := by
  rw [h, IdExFields, decodeStage_record]
  unfold decodeStage
  by_cases hn : f.record.op = .nop
  · simp [hn, BubbleFields, LateFieldsAbsent]
  · rw [if_neg hn, if_neg hn]
    exact ⟨⟨Option.isSome_map, Option.isSome_map, rfl, rfl, rfl, predictedTakenAt_isSome _ _,
      predictedTargetAt_eq rfl rfl⟩, rfl, rfl, rfl, rfl, rfl⟩

/-! ### Execute -/

theorem executeOperand_isSome {k : Option RegNum} {v : Option Word} (h : v.isSome = k.isSome) (s : State) :
    (executeOperand s k v).isSome = k.isSome := by
  cases k with
  | none => exact h
  | some r =>
    simp only [executeOperand]
    split
    · exact h
    · split
      · rfl
      · split
        · rfl
        · exact h

/-- Forwarding at Execute replaces filled operands only (45 R231). -/
theorem idExFields_executeInput (s : State) {e : Snapshot} (h : IdExFields e) : IdExFields (executeInput s e) := by
  unfold executeInput
  split
  case isFalse => exact h
  case isTrue =>
    by_cases hn : e.record.op = .nop
    · simpa [IdExFields, hn, Instr.rs1, Instr.rs2, executeOperand] using h
    · rw [IdExFields, if_neg hn] at h
      obtain ⟨⟨h1, h2, hdec⟩, hlate⟩ := h
      rw [IdExFields, if_neg hn]
      exact ⟨⟨executeOperand_isSome h1 s, executeOperand_isSome h2 s, hdec⟩, hlate⟩

/-- The instruction's own derived fields replace nothing in a slot that Decode filled. -/
theorem holding_of_idExFields {e : Snapshot} (h : IdExFields e) : holding e.record.op e = e := by
  by_cases hn : e.record.op = .nop
  · rw [hn, holding_nop hn]
  · rw [IdExFields, if_neg hn] at h
    obtain ⟨⟨-, -, himm, hrd, hsig, -, -⟩, -⟩ := h
    exact holding_of_decoded ⟨rfl, hrd, hsig⟩ himm

theorem slotOf_executing {s : State} (h : IdExFields (redirect s).idEx) :
    slotOf (executing s) s = executeInput s (redirect s).idEx :=
  congrArg (executeInput s) (holding_of_idExFields h)

/-- The branch signal marks the branches and jumps, the predicted ones among them (40 R111). -/
theorem branch_of_isPredicted {o : Opcode} (h : isPredicted o = true) : (generateSignals o).branch = true := by
  cases o with
  | beq | bne | blt | bge | bltu | bgeu | jal => rfl
  | _ => cases h

theorem executedFields_alu {c : Config} {e : Snapshot} (hsig : signalsOf e = generateSignals e.record.op.opcode)
    (hlate : LateFieldsAbsent e) (hb : (generateSignals e.record.op.opcode).branch = false)
    (hv : ∀ a b pc, ∃ v, alu c.shiftMask (generateSignals e.record.op.opcode).aluOp a b pc = some v) :
    ExecutedFields (executeAlu c e).exMem := by
  obtain ⟨v, hres⟩ := hv (rs1Of e) (aluOperandB e) e.pc
  obtain ⟨-, hbt, hta, hfr, -⟩ := hlate
  have hop : (generateSignals e.record.op.opcode).aluOp ≠ .BRANCH := fun ho => by simp [ho, alu] at hres
  have hnp : isPredicted e.record.op.opcode ≠ true := fun hp => by simp [branch_of_isPredicted hp] at hb
  have hnj : e.record.op.opcode ≠ .jalr := fun ho => by simp [ho, generateSignals, signalsJump] at hb
  rw [← hsig] at hres
  rw [executeAlu_of_alu hres]
  simp [ExecutedFields, hop, hbt, hta, hfr, hb, hnp, hnj]

theorem executedFields_branch {e : Snapshot} (hlate : LateFieldsAbsent e) (taken : Bool)
    (hs : generateSignals e.record.op.opcode = signalsBranch) : ExecutedFields (executeBranch taken e).exMem := by
  obtain ⟨halu, -⟩ := hlate
  have hnj : e.record.op.opcode ≠ .jalr := fun ho => by simp [ho, generateSignals, signalsJump, signalsBranch] at hs
  simp [ExecutedFields, executeBranch, hs, signalsBranch, halu, hnj, flushNeeded]

theorem executedFields_jal {e : Snapshot} (ho : e.record.op.opcode = .jal) : ExecutedFields (executeJal e).exMem := by
  simp [ExecutedFields, executeJal, ho, generateSignals, signalsJump, flushNeeded]

theorem executedFields_jalr {e : Snapshot} (ho : e.record.op.opcode = .jalr) :
    ExecutedFields (executeJalr e).exMem := by
  simp [ExecutedFields, executeJalr, ho, generateSignals, signalsJump, isPredicted]

theorem StageForm.executedFields {c : Config} {i : Instr} {e : Snapshot} {x : Executed} (hx : StageForm c i e x)
    (hi : e.record.op = i) (hn : i ≠ .nop) (hsig : signalsOf e = generateSignals e.record.op.opcode)
    (hlate : LateFieldsAbsent e) : ExecutedFields x.exMem := by
  subst hi
  cases hx with
  | nop h => exact absurd h hn
  | alu hb hv => exact executedFields_alu hsig hlate hb hv
  | branch taken _ hs => exact executedFields_branch hlate taken hs
  | jal ho => exact executedFields_jal ho
  | jalr ho => exact executedFields_jalr ho

/-- Execute of what ID_EX holds fills EX_MEM (44 R196). -/
theorem exMemFields_stageOf (c : Config) {i : Instr} {e : Snapshot} (hi : e.record.op = i) (h : IdExFields e) :
    ExMemFields (stageOf c i e).exMem := by
  by_cases hn : i = .nop
  · rw [IdExFields, if_pos (hi.trans hn)] at h
    subst hn
    exact (if_pos hi).mpr h
  · rw [IdExFields, if_neg (hi ▸ hn)] at h
    obtain ⟨hdec, hlate⟩ := h
    have hex := (stageOf_form c i e).executedFields hi hn (signalsOf_of_decodedFields hdec) hlate
    obtain ⟨v, taken, target, flush, hx⟩ := (stageOf_form c i e).exMem_eq
    obtain ⟨-, -, -, -, hmem⟩ := hlate
    rw [hx] at hex ⊢
    rw [ExMemFields, if_neg (hi ▸ hn)]
    exact ⟨hdec, hex, hmem⟩

/-! ### Memory -/

theorem memoryAfter_memWb_of_load {s : State} (h : (signalsOf s.exMem).memRead = true) :
    (memoryAfter s).memWb = { s.exMem with memData := some (readWord s.dmem (aluResultOf s.exMem).toNat) } :=
  if_pos h

theorem memoryAfter_memWb_of_not_load {s : State} (h : (signalsOf s.exMem).memRead = false) :
    (memoryAfter s).memWb = s.exMem :=
  if_neg (Bool.eq_false_iff.mp h)

/-- Memory fills `mem_data` of a load and passes everything else on (44 R198). -/
theorem memWbFields_memoryAfter {s : State} (h : ExMemFields s.exMem) : MemWbFields (memoryAfter s).memWb := by
  by_cases hn : s.exMem.record.op = .nop
  · rw [ExMemFields, if_pos hn] at h
    have hload : (signalsOf s.exMem).memRead = false := by rw [signalsOf_of_bubbleFields hn h]; rfl
    rw [memoryAfter_memWb_of_not_load hload, MemWbFields, if_pos hn]
    exact h
  · rw [ExMemFields, if_neg hn] at h
    obtain ⟨hdec, hex, hmem⟩ := h
    have hsig := signalsOf_of_decodedFields hdec
    cases hload : (signalsOf s.exMem).memRead with
    | true =>
      rw [memoryAfter_memWb_of_load hload, MemWbFields, if_neg hn, ← hsig, hload]
      exact ⟨hdec, hex, rfl⟩
    | false =>
      rw [memoryAfter_memWb_of_not_load hload, MemWbFields, if_neg hn, ← hsig, hload, hmem]
      exact ⟨hdec, hex, rfl⟩

theorem fetchedFrom_congr {s : State} {e x : Snapshot} (hr : x.record = e.record) (hpc : x.pc = e.pc)
    (h : FetchedFrom s e) : FetchedFrom s x := by
  rwa [FetchedFrom, hr, hpc]

/-! ## The pipeline registers after a step -/

theorem frontAfter_ifId_filled {s : State} {r : Redirect} (hok : FrontEndOk s r) (hprog : ProgramOk s)
    (h : FetchedOnly r.ifId ∧ FetchedFrom s r.ifId) :
    FetchedOnly (frontAfter s r).ifId ∧ FetchedFrom s (frontAfter s r).ifId := by
  unfold frontAfter
  split
  case isTrue => exact h
  case isFalse hs => exact ⟨fetchedOnly_fetchedAt _ _, fetchedFrom_fetchedAt hprog (hok.resolve_left hs)⟩

theorem frontAfter_idEx_filled {s : State} {r : Redirect} (h : FetchedOnly r.ifId ∧ FetchedFrom s r.ifId) :
    IdExFields (frontAfter s r).idEx ∧ FetchedFrom s (frontAfter s r).idEx := by
  obtain ⟨honly, hfrom⟩ := h
  unfold frontAfter
  split
  · exact ⟨idExFields_bubble _, fetchedFrom_bubble _ _⟩
  · exact ⟨idExFields_decodeStage _ _ honly, fetchedFrom_congr (decodeStage_record _ _ _) (decodeStage_pc _ _ _) hfrom⟩

theorem stageOf_exMem_filled {s : State} (h : IdExFields (redirect s).idEx ∧ FetchedFrom s (redirect s).idEx) :
    ExMemFields (stageOf s.cfg (executing s) (slotOf (executing s) s)).exMem ∧
      FetchedFrom s (stageOf s.cfg (executing s) (slotOf (executing s) s)).exMem := by
  obtain ⟨hfields, hfrom⟩ := h
  have hslot : IdExFields (slotOf (executing s) s) := by
    rw [slotOf_executing hfields]
    exact idExFields_executeInput s hfields
  have hslotFrom : FetchedFrom s (slotOf (executing s) s) := by
    rw [slotOf_executing hfields]
    exact fetchedFrom_congr (executeInput_record _ _) (executeInput_pc _ _) hfrom
  refine ⟨exMemFields_stageOf _ (slotOf_op _ _) hslot, ?_⟩
  obtain ⟨v, taken, target, flush, hx⟩ := (stageOf_form s.cfg (executing s) (slotOf (executing s) s)).exMem_eq
  rw [hx]
  exact hslotFrom

theorem pipelineFilled_cycleAfter {s : State} (hprog : ProgramOk s) (h : PipelineFilled s) (hc : StepCommits s) :
    PipelineFilled (cycleAfter (executing s) s) := by
  obtain ⟨hif, hid, hex, -, hifFrom, hidFrom, hexFrom, -⟩ := h
  obtain ⟨-, hfront, -⟩ := hc
  have hif1 : FetchedOnly (redirect s).ifId ∧ FetchedFrom s (redirect s).ifId :=
    redirect_ifId_keeps (P := fun f => FetchedOnly f ∧ FetchedFrom s f)
      (fun p => ⟨fetchedOnly_bubble p, fetchedFrom_bubble s p⟩) ⟨hif, hifFrom⟩
  have hid1 : IdExFields (redirect s).idEx ∧ FetchedFrom s (redirect s).idEx :=
    redirect_idEx_keeps (P := fun e => IdExFields e ∧ FetchedFrom s e)
      (fun p => ⟨idExFields_bubble p, fetchedFrom_bubble s p⟩) ⟨hid, hidFrom⟩
  obtain ⟨hif2, hifFrom2⟩ := frontAfter_ifId_filled hfront hprog hif1
  obtain ⟨hid2, hidFrom2⟩ := frontAfter_idEx_filled (r := slotsFor (executing s) s) hif1
  obtain ⟨hex2, hexFrom2⟩ := stageOf_exMem_filled hid1
  exact ⟨hif2, hid2, hex2, memWbFields_memoryAfter hex, hifFrom2, hidFrom2, hexFrom2,
    fetchedFrom_congr (memoryAfter_record s) (memoryAfter_pc s) hexFrom⟩

/-- Settles O40: register by register, what the producing stage fills. -/
theorem pipelineStaysFilled : Obligations.PipelineStaysFilled := by
  intro s t hprog hfilled h
  exact step_keeps h (fun _ => hfilled) (pipelineFilled_cycleAfter hprog hfilled)

/-! ## The invariant of the core -/

/-- Only the slot's word of the table is trained, and a trained instruction was fetched from a legal address. -/
theorem tableInRange_cycleAfter {s : State} (h : TableInRange s) (hfrom : FetchedFrom s s.idEx) :
    TableInRange (cycleAfter (executing s) s) := by
  intro p hp
  rw [committed_bp] at hp
  obtain hb | ⟨b, ht, -, hb⟩ := trainedTable_cases s (slotsFor (executing s) s).idEx
    (stageOf s.cfg (executing s) (slotOf (executing s) s)).train <;> rw [hb] at hp
  · exact h p hp
  · obtain hkey | hold := key_of_mem_writeAt hp
    · have hne : executing s ≠ .nop := fun hn => by
        have htrained := (stageOf_form _ _ _).isPredicted_of_train ht
        rw [hn] at htrained
        cases htrained
      obtain ⟨-, hlegal⟩ := redirect_idEx_keeps (fetchedFrom_bubble s) hfrom
      obtain ⟨⟨-, hrange⟩, -⟩ := hlegal hne
      rw [hkey, slotsFor_idEx, holding_pc]
      show _ < s.cfg.imemWords
      omega
    · exact h p hold

theorem countersOk_countCycle {m : Metrics} (h : CountersOk m) (memWb e x : Snapshot) :
    CountersOk (countCycle m memWb e x) := by
  obtain ⟨hcorrect, htotal, hretired⟩ := h
  refine ⟨Nat.add_le_add hcorrect ?_, Nat.add_le_add htotal ?_, Nat.add_le_add hretired ?_⟩
  · split
    case isTrue hb => simp [(Bool.and_eq_true_iff.mp hb).1]
    case isFalse => exact Nat.zero_le _
  · split <;> decide
  · split <;> decide

/-- Settles O41: O37, O38 and O40 give the memories, the hardwired cells and the pipeline; the rest is kept here. -/
theorem invariantKept : Obligations.InvariantKept := by
  intro s t hinv h
  obtain ⟨hwf, hmem, hzero, hprog, hnull, htable, hcount, hfilled⟩ := hinv
  have hrest : t.cfg.Wf ∧ ProgramOk t ∧ TableInRange t ∧ CountersOk t.metrics := by
    refine step_keeps (P := fun t => t.cfg.Wf ∧ ProgramOk t ∧ TableInRange t ∧ CountersOk t.metrics) h
      (fun _ => ⟨hwf, hprog, htable, hcount⟩) fun _ => ?_
    obtain ⟨-, -, -, -, -, hfrom, -, -⟩ := hfilled
    exact ⟨hwf, hprog, tableInRange_cycleAfter htable hfrom, countersOk_countCycle hcount _ _ _⟩
  obtain ⟨hwf', hprog', htable', hcount'⟩ := hrest
  obtain ⟨hzero', hnull'⟩ := hardwiredStateStays s t hzero hnull h
  exact ⟨hwf', memoriesStayCanonical s t hmem h, hzero', hprog', hnull', htable', hcount',
    pipelineStaysFilled s t hprog hfilled h⟩

end Sys2Proof.Machine
end

section
/-! SUPPORT. Words of the data memory apart from a stored one, and sums that wrap below 0; then the statements of the
memory (20_memory). -/

namespace Sys2Proof.Machine

/-! ## The data memory's accessors (20_memory R62 to R64) -/

/-- A word that shares no byte with a stored one reads as before. -/
theorem readWord_writeWord_of_disjoint {a b : Nat} (h : b + 4 ≤ a ∨ a + 4 ≤ b) (m : List Host.Cell) (v : Word) :
    readWord (writeWord m a v) b = readWord m b := by
  have hbyte (c : Nat) (hc : b ≤ c ∧ c < b + 4) : readByte (writeWord m a v) c = readByte m c :=
    readByte_writeWord_of_outside (by omega) m v
  rw [readWord, hbyte (b + 3) (by omega), hbyte (b + 2) (by omega), hbyte (b + 1) (by omega), hbyte b (by omega),
    readWord]

/-- Two aligned words at different addresses share no byte. -/
theorem LegalAddress.disjoint {n k : Nat} {a b : Word} (ha : LegalAddress n a) (hb : LegalAddress k b) (h : b ≠ a) :
    b.toNat + 4 ≤ a.toNat ∨ a.toNat + 4 ≤ b.toNat := by
  have hne : b.toNat ≠ a.toNat := fun e => h (BitVec.eq_of_toNat_eq e)
  obtain ⟨haligned, -⟩ := ha
  obtain ⟨hbligned, -⟩ := hb
  omega

/-- Settles O34: a legal store is `writeWord`, and another legal word is disjoint from the stored one. -/
theorem memoryRoundTrip : Obligations.MemoryRoundTrip := by
  intro n m a b v hm
  refine ⟨fun ha => ⟨writeWord m a.toNat v, memWrite_of_legal ha m v, writeWord_wf hm _ _, ?_, fun hne hb => ?_⟩,
    fun ha => ⟨memRead_of_illegal ha m, memWrite_of_illegal ha m v⟩⟩
  · rw [memRead_of_legal ha, readWord_writeWord_self hm]
  · rw [memRead_of_legal hb, memRead_of_legal hb, readWord_writeWord_of_disjoint (ha.disjoint hb hne)]

/-! ## Addresses below 0 (20_memory R63) -/

theorem unsigned_wrap (n : Int) : unsigned (wrap n) = n % 2 ^ 32 := by
  simp only [unsigned, wrap, BitVec.toNat_ofInt]
  omega

/-- Wrapping a summand first does not change a wrapped sum (00_scope R10). -/
theorem wrap_add_unsigned_wrap (x n : Int) : wrap (x + unsigned (wrap n)) = wrap (x + n) := by
  rw [unsigned_wrap]
  apply BitVec.eq_of_toNat_eq
  simp only [wrap, BitVec.toNat_ofInt]
  omega

theorem unsigned_wrap_of_neg {n : Int} (h : n < 0) (hmin : -2 ^ 31 ≤ n) : unsigned (wrap n) = n + 2 ^ 32 := by
  rw [unsigned_wrap]
  omega

/-- Settles O35: the effective address is `wrap` of a negative number not below -2^31. -/
theorem negativeAddresses : Obligations.NegativeAddresses := by
  intro n m base imm hneg himm
  rw [wrap_add_unsigned_wrap]
  have hbase : 0 ≤ unsigned base := Int.natCast_nonneg _
  have hval : unsigned (wrap (unsigned base + imm)) = unsigned base + imm + 2 ^ 32 :=
    unsigned_wrap_of_neg hneg (by omega)
  have hnat : ((wrap (unsigned base + imm)).toNat : Int) = unsigned base + imm + 2 ^ 32 := hval
  have hhigh : 2 ^ 31 ≤ (wrap (unsigned base + imm)).toNat := by omega
  refine ⟨hval, hhigh, fun hn => memRead_of_illegal ?_ m, fun hrange haligned => ?_⟩
  · rintro ⟨-, hlegal⟩
    omega
  · rw [← hnat, Int.toNat_natCast]
    exact memRead_of_legal ⟨by omega, by omega⟩ m

/-! ## Instruction memory (20_memory R74) -/

/-- Settles O36: neither a fatal error nor a commit writes the instruction memory or the configuration. -/
theorem programNeverChanges : Obligations.ProgramNeverChanges := by
  intro s t h
  exact step_keeps (P := fun t => t.imem = s.imem ∧ t.cfg = s.cfg) h (fun _ => ⟨rfl, rfl⟩)
    fun _ => ⟨committed_imem .., committed_cfg ..⟩

end Sys2Proof.Machine
end

section
/-! SUPPORT. A word cut into the fields of its format; then the statements of the informative word decoder and
encoder (30_encoding R95, R96). -/

namespace Sys2Proof

/-! ## Adjacent fields of a word -/

/-- A concatenation is a word exactly when its parts are the word's two fields. -/
theorem append_eq_iff {m k : Nat} {a : BitVec m} {b : BitVec k} {w : BitVec (m + k)} :
    a ++ b = w ↔ w.extractLsb' k m = a ∧ w.extractLsb' 0 k = b := by
  constructor
  · rintro rfl
    exact ⟨BitVec.extractLsb'_append_eq_left, BitVec.extractLsb'_append_eq_right⟩
  · rintro ⟨rfl, rfl⟩
    exact BitVec.extractLsb'_append_extractLsb'

theorem eq_append_iff {m k : Nat} {a : BitVec m} {b : BitVec k} {w : BitVec (m + k)} :
    w = a ++ b ↔ w.extractLsb' k m = a ∧ w.extractLsb' 0 k = b :=
  eq_comm.trans append_eq_iff

theorem extractLsb'_extractLsb' {n a b c d : Nat} (x : BitVec n) (h : c + d ≤ b) :
    (x.extractLsb' a b).extractLsb' c d = x.extractLsb' (a + c) d := by
  ext i hi
  have hin : c + i < b := by omega
  simp [hin, Nat.add_assoc]

theorem extractLsb'_eq_regBits {r : RegNum} {w : Word} {lo : Nat} :
    w.extractLsb' lo 5 = regBits r ↔ regField w lo = r :=
  BitVec.toFin_inj.symm

/-- A field compared as a number is compared as bits. -/
theorem eq_ofNat_of_toNat_eq {k c : Nat} {x : BitVec k} (h : x.toNat = c) : x = BitVec.ofNat k c := by
  rw [← h, BitVec.ofNat_toNat, BitVec.setWidth_eq]

/-! ## The integer a field holds -/

theorem toInt_eq_iff {k : Nat} {x : BitVec (k + 1)} {n : Int} :
    x.toInt = n ↔ fitsSigned (k + 1) n = true ∧ x = BitVec.ofInt (k + 1) n := by
  simp only [fitsSigned, Bool.and_eq_true, decide_eq_true_eq, Nat.add_sub_cancel]
  constructor
  · rintro rfl
    exact ⟨⟨BitVec.le_toInt x, BitVec.toInt_lt⟩, BitVec.ofInt_toInt.symm⟩
  · rintro ⟨⟨hlo, hhi⟩, rfl⟩
    exact BitVec.toInt_ofInt_eq_self (Nat.succ_pos k) hlo hhi

theorem toNat_eq_iff {k : Nat} {x : BitVec k} {n : Int} :
    (x.toNat : Int) = n ↔ fitsUnsigned k n = true ∧ x = BitVec.ofInt k n := by
  simp only [fitsUnsigned, Bool.and_eq_true, decide_eq_true_eq]
  constructor
  · rintro rfl
    exact ⟨⟨Int.natCast_nonneg _, mod_cast x.isLt⟩, by simp⟩
  · rintro ⟨⟨hlo, hhi⟩, rfl⟩
    rw [BitVec.toNat_ofInt]
    push_cast
    rw [Int.emod_eq_of_lt hlo hhi, Int.toNat_of_nonneg hlo]

/-- An offset whose bit 0 has no place in the word is even. -/
theorem zero_eq_lowBit_ofInt {k : Nat} {n : Int} :
    0#1 = (BitVec.ofInt (k + 1) n).extractLsb' 0 1 ↔ n % 2 = 0 := by
  have hdvd : (2 : Int) ∣ ((2 ^ (k + 1) : Nat) : Int) := mod_cast Dvd.intro_left (2 ^ k) rfl
  have hmod : n % ((2 ^ (k + 1) : Nat) : Int) % 2 = n % 2 := Int.emod_emod_of_dvd n hdvd
  have hnonneg : 0 ≤ n % ((2 ^ (k + 1) : Nat) : Int) := Int.emod_nonneg n (by positivity)
  rw [← BitVec.toNat_inj, BitVec.extractLsb'_toNat, BitVec.toNat_ofInt]
  simp only [Nat.shiftRight_zero, BitVec.toNat_ofNat]
  omega

/-! ## The words of each format (30_encoding R95)

One equivalence per format serves both directions: an immediate that fits its field and the word built from it, against
the fields the decoder reads. -/

theorem wordR_eq_iff {f7 : BitVec 7} {rs2 : BitVec 5} {rs1 : RegNum} {f3 : BitVec 3} {rd : RegNum} {op : BitVec 7}
    {w : Word} :
    wordR f7 rs2 rs1 f3 rd op = w ↔
      w.extractLsb' 25 7 = f7 ∧ w.extractLsb' 20 5 = rs2 ∧ regField w 15 = rs1 ∧ w.extractLsb' 12 3 = f3 ∧
        regField w 7 = rd ∧ w.extractLsb' 0 7 = op := by
  rw [wordR, append_eq_iff]
  simp only [eq_append_iff]
  simp (disch := omega) only [extractLsb'_extractLsb', extractLsb'_eq_regBits, Nat.reduceAdd, and_assoc]

theorem wordR_regBits_eq_iff {f7 : BitVec 7} {rs2 rs1 : RegNum} {f3 : BitVec 3} {rd : RegNum} {op : BitVec 7}
    {w : Word} :
    wordR f7 (regBits rs2) rs1 f3 rd op = w ↔
      w.extractLsb' 25 7 = f7 ∧ regField w 20 = rs2 ∧ regField w 15 = rs1 ∧ w.extractLsb' 12 3 = f3 ∧
        regField w 7 = rd ∧ w.extractLsb' 0 7 = op := by
  rw [wordR_eq_iff, extractLsb'_eq_regBits]

theorem wordR_ofInt_eq_iff {f7 : BitVec 7} {n : Int} {rs1 : RegNum} {f3 : BitVec 3} {rd : RegNum} {op : BitVec 7}
    {w : Word} :
    fitsUnsigned 5 n = true ∧ wordR f7 (BitVec.ofInt 5 n) rs1 f3 rd op = w ↔
      w.extractLsb' 25 7 = f7 ∧ immShift w = n ∧ regField w 15 = rs1 ∧ w.extractLsb' 12 3 = f3 ∧
        regField w 7 = rd ∧ w.extractLsb' 0 7 = op := by
  rw [wordR_eq_iff, immShift, toNat_eq_iff]
  tauto

theorem wordI_eq_iff {n : Int} {rs1 : RegNum} {f3 : BitVec 3} {rd : RegNum} {op : BitVec 7} {w : Word} :
    fitsSigned 12 n = true ∧ wordI n rs1 f3 rd op = w ↔
      immI w = n ∧ regField w 15 = rs1 ∧ w.extractLsb' 12 3 = f3 ∧ regField w 7 = rd ∧
        w.extractLsb' 0 7 = op := by
  rw [wordI, immI, toInt_eq_iff, append_eq_iff]
  simp only [eq_append_iff]
  simp (disch := omega) only [extractLsb'_extractLsb', extractLsb'_eq_regBits, Nat.reduceAdd, and_assoc]

theorem wordS_eq_iff {n : Int} {rs2 rs1 : RegNum} {f3 : BitVec 3} {op : BitVec 7} {w : Word} :
    fitsSigned 12 n = true ∧ wordS n rs2 rs1 f3 op = w ↔
      immS w = n ∧ regField w 20 = rs2 ∧ regField w 15 = rs1 ∧ w.extractLsb' 12 3 = f3 ∧
        w.extractLsb' 0 7 = op := by
  rw [wordS, immS, toInt_eq_iff, append_eq_iff, append_eq_iff]
  simp only [eq_append_iff]
  simp (disch := omega) only [extractLsb'_extractLsb', extractLsb'_eq_regBits, Nat.reduceAdd]
  tauto

theorem wordB_eq_iff {n : Int} {rs1 rs2 : RegNum} {f3 : BitVec 3} {w : Word} :
    (fitsSigned 13 n && decide (n % 2 = 0)) = true ∧ wordB n rs1 rs2 f3 = w ↔
      immB w = n ∧ regField w 15 = rs1 ∧ regField w 20 = rs2 ∧ w.extractLsb' 12 3 = f3 ∧
        w.extractLsb' 0 7 = 0x63 := by
  rw [wordB, immB, toInt_eq_iff, append_eq_iff, append_eq_iff, Bool.and_eq_true, decide_eq_true_eq]
  simp only [eq_append_iff]
  simp (disch := omega) only [extractLsb'_extractLsb', extractLsb'_eq_regBits, Nat.reduceAdd,
    eq_comm (a := BitVec.extractLsb' _ _ (BitVec.ofInt _ _)), zero_eq_lowBit_ofInt]
  tauto

theorem wordU_eq_iff {n : Int} {rd : RegNum} {op : BitVec 7} {w : Word} :
    fitsUnsigned 20 n = true ∧ wordU n rd op = w ↔ immU w = n ∧ regField w 7 = rd ∧ w.extractLsb' 0 7 = op := by
  rw [wordU, immU, toNat_eq_iff, append_eq_iff]
  simp only [eq_append_iff]
  simp (disch := omega) only [extractLsb'_extractLsb', extractLsb'_eq_regBits, Nat.reduceAdd, and_assoc]

theorem wordJ_eq_iff {n : Int} {rd : RegNum} {w : Word} :
    (fitsSigned 21 n && decide (n % 2 = 0)) = true ∧ wordJ n rd = w ↔
      immJ w = n ∧ regField w 7 = rd ∧ w.extractLsb' 0 7 = 0x6f := by
  rw [wordJ, immJ, toInt_eq_iff, append_eq_iff, append_eq_iff, Bool.and_eq_true, decide_eq_true_eq]
  simp only [eq_append_iff]
  simp (disch := omega) only [extractLsb'_extractLsb', extractLsb'_eq_regBits, Nat.reduceAdd,
    eq_comm (a := BitVec.extractLsb' _ _ (BitVec.ofInt _ _)), zero_eq_lowBit_ofInt]
  tauto

/-! ## The word decoder answers an instruction exactly from the instruction's word -/

theorem encodeWord_eq_some_iff {i : Instr} {v w : Word} (hbits : i.wordBits = some v) :
    encodeWord i = some w ↔ i.encodable = true ∧ v = w := by
  simp [encodeWord, hbits]

theorem decodeWord_of_encodeWord {i : Instr} {w : Word} (h : encodeWord i = some w) : decodeWord w = .ok i := by
  cases i with
  | add | sub | and | or | xor | slt | sll | srl | sra =>
    obtain ⟨hf7, rfl, rfl, hf3, rfl, hop⟩ := wordR_regBits_eq_iff.mp ((encodeWord_eq_some_iff rfl).mp h).2
    simp [decodeWord, decodeOp, hf7, hf3, hop]
  | slli | srli | srai =>
    obtain ⟨hf7, rfl, rfl, hf3, rfl, hop⟩ := wordR_ofInt_eq_iff.mp ((encodeWord_eq_some_iff rfl).mp h)
    simp [decodeWord, decodeOpImm, hf7, hf3, hop]
  | addi | andi | ori | slti | jalr | lw =>
    obtain ⟨rfl, rfl, hf3, rfl, hop⟩ := wordI_eq_iff.mp ((encodeWord_eq_some_iff rfl).mp h)
    simp [decodeWord, decodeOpImm, hf3, hop]
  | sw =>
    obtain ⟨rfl, rfl, rfl, hf3, hop⟩ := wordS_eq_iff.mp ((encodeWord_eq_some_iff rfl).mp h)
    simp [decodeWord, hf3, hop]
  | beq | bne | blt | bge | bltu | bgeu =>
    obtain ⟨rfl, rfl, rfl, hf3, hop⟩ := wordB_eq_iff.mp ((encodeWord_eq_some_iff rfl).mp h)
    simp [decodeWord, decodeBranch, hf3, hop]
  | lui | auipc =>
    obtain ⟨rfl, rfl, hop⟩ := wordU_eq_iff.mp ((encodeWord_eq_some_iff rfl).mp h)
    simp [decodeWord, hop]
  | jal =>
    obtain ⟨rfl, rfl, hop⟩ := wordJ_eq_iff.mp ((encodeWord_eq_some_iff rfl).mp h)
    simp [decodeWord, hop]
  | nop => cases h

theorem of_ite_eq_ok {ε α : Type} {p : Prop} [Decidable p] {a b : α} {e : ε}
    (h : (if p then Except.ok a else .error e) = .ok b) : p ∧ a = b := by
  split at h
  case isTrue hp => cases h; exact ⟨hp, rfl⟩
  case isFalse => cases h

theorem of_ite_ite_eq_ok {ε α : Type} {p q : Prop} [Decidable p] [Decidable q] {a b c : α} {e : ε}
    (h : (if p then Except.ok a else if q then .ok b else .error e) = .ok c) : p ∧ a = c ∨ q ∧ b = c := by
  split at h
  case isTrue hp => cases h; exact .inl ⟨hp, rfl⟩
  case isFalse => exact .inr (of_ite_eq_ok h)

theorem encodeWord_of_decodeOp {i : Instr} {w : Word} (hop : w.extractLsb' 0 7 = 0x33#7) (h : decodeOp w = .ok i) :
    encodeWord i = some w := by
  unfold decodeOp at h
  split at h <;> cases h
  all_goals
    rename_i hf3 hf7
    exact (encodeWord_eq_some_iff rfl).mpr ⟨rfl, wordR_regBits_eq_iff.mpr
      ⟨eq_ofNat_of_toNat_eq hf7, rfl, rfl, eq_ofNat_of_toNat_eq hf3, rfl, hop⟩⟩

theorem encodeWord_of_decodeOpImm {i : Instr} {w : Word} (hop : w.extractLsb' 0 7 = 0x13#7)
    (h : decodeOpImm w = .ok i) : encodeWord i = some w := by
  unfold decodeOpImm at h
  split at h
  case h_2 hf3 =>
    obtain ⟨hf7, rfl⟩ := of_ite_eq_ok h
    exact (encodeWord_eq_some_iff rfl).mpr (wordR_ofInt_eq_iff.mpr
      ⟨hf7, rfl, rfl, eq_ofNat_of_toNat_eq hf3, rfl, hop⟩)
  case h_4 hf3 =>
    obtain ⟨hf7, rfl⟩ | ⟨hf7, rfl⟩ := of_ite_ite_eq_ok h <;>
      exact (encodeWord_eq_some_iff rfl).mpr (wordR_ofInt_eq_iff.mpr
        ⟨hf7, rfl, rfl, eq_ofNat_of_toNat_eq hf3, rfl, hop⟩)
  case h_7 => cases h
  case h_1 hf3 | h_3 hf3 | h_5 hf3 | h_6 hf3 =>
    cases h
    exact (encodeWord_eq_some_iff rfl).mpr (wordI_eq_iff.mpr ⟨rfl, rfl, eq_ofNat_of_toNat_eq hf3, rfl, hop⟩)

theorem encodeWord_of_decodeBranch {i : Instr} {w : Word} (hop : w.extractLsb' 0 7 = 0x63#7)
    (h : decodeBranch w = .ok i) : encodeWord i = some w := by
  unfold decodeBranch at h
  split at h <;> cases h
  all_goals
    rename_i hf3
    exact (encodeWord_eq_some_iff rfl).mpr (wordB_eq_iff.mpr ⟨rfl, rfl, rfl, eq_ofNat_of_toNat_eq hf3, hop⟩)

theorem encodeWord_of_decodeWord {i : Instr} {w : Word} (h : decodeWord w = .ok i) : encodeWord i = some w := by
  unfold decodeWord at h
  split at h
  case h_1 hop => exact encodeWord_of_decodeOp (eq_ofNat_of_toNat_eq hop) h
  case h_2 hop => exact encodeWord_of_decodeOpImm (eq_ofNat_of_toNat_eq hop) h
  case h_3 hop => exact encodeWord_of_decodeBranch (eq_ofNat_of_toNat_eq hop) h
  case h_4 hop | h_5 hop =>
    cases h
    exact (encodeWord_eq_some_iff rfl).mpr (wordU_eq_iff.mpr ⟨rfl, rfl, eq_ofNat_of_toNat_eq hop⟩)
  case h_6 hop =>
    cases h
    exact (encodeWord_eq_some_iff rfl).mpr (wordJ_eq_iff.mpr ⟨rfl, rfl, eq_ofNat_of_toNat_eq hop⟩)
  case h_7 hop | h_8 hop =>
    obtain ⟨hf3, rfl⟩ := of_ite_eq_ok h
    exact (encodeWord_eq_some_iff rfl).mpr (wordI_eq_iff.mpr ⟨rfl, rfl, hf3, rfl, eq_ofNat_of_toNat_eq hop⟩)
  case h_9 hop =>
    obtain ⟨hf3, rfl⟩ := of_ite_eq_ok h
    exact (encodeWord_eq_some_iff rfl).mpr (wordS_eq_iff.mpr ⟨rfl, rfl, rfl, hf3, eq_ofNat_of_toNat_eq hop⟩)
  case h_10 => cases h

theorem exists_encodeWord_of_encodable {i : Instr} (h : i.encodable = true) : ∃ w, encodeWord i = some w := by
  cases i with
  | nop => cases h
  | _ => exact ⟨_, if_pos h⟩

/-- Settles O48: the word's fields, read off by format, are those the decoder tests. -/
theorem wordRoundTrip : Obligations.WordRoundTrip := by
  intro i h
  obtain ⟨w, hw⟩ := exists_encodeWord_of_encodable h
  exact ⟨w, hw, decodeWord_of_encodeWord hw⟩

/-- Settles O49: every row of the decoder tests all the fields that make up its format's word. -/
theorem wordsHaveOneMeaning : Obligations.WordsHaveOneMeaning := by
  intro w i h
  exact encodeWord_of_decodeWord h

end Sys2Proof
end

section
/-! SUPPORT. A line cut into its pieces and each piece read as its operand; then the statements of the core's line
decoder (30_encoding R80 to R94). -/

namespace Sys2Proof

/-! ## The pieces of a line (30_encoding R82) -/

/-- What `splitLine` leaves in one piece. -/
def IsPiece (t : Text) : Prop := t ≠ [] ∧ ∀ c ∈ t, isSeparator c = false

/-- A text without separators is read into the piece at hand. -/
theorem splitLineFrom_append {t : Text} (h : ∀ c ∈ t, isSeparator c = false) (piece rest : Text) :
    splitLineFrom piece (t ++ rest) = splitLineFrom (t.reverse ++ piece) rest := by
  induction t generalizing piece with
  | nil => rfl
  | cons c t ih =>
    obtain ⟨hc, ht⟩ := List.forall_mem_cons.mp h
    simp [splitLineFrom, hc, ih ht]

theorem splitLine_piece {t : Text} (h : IsPiece t) : splitLine t = [t] := by
  obtain ⟨hne, hsep⟩ := h
  have hsplit := splitLineFrom_append hsep [] []
  simpa [splitLine, splitLineFrom, hne] using hsplit

/-- A separator ends a piece. -/
theorem splitLine_piece_separator {t : Text} (h : IsPiece t) {c : Char} (hc : isSeparator c = true) (rest : Text) :
    splitLine (t ++ c :: rest) = t :: splitLine rest := by
  obtain ⟨hne, hsep⟩ := h
  simp [splitLine, splitLineFrom_append hsep, splitLineFrom, hc, hne]

theorem splitLine_separator {c : Char} (hc : isSeparator c = true) (rest : Text) :
    splitLine (c :: rest) = splitLine rest := by
  simp [splitLine, splitLineFrom, hc]

theorem splitLine_joinOperands {ts : List Text} (h : ∀ t ∈ ts, IsPiece t) : splitLine (joinOperands ts) = ts := by
  induction ts with
  | nil => rfl
  | cons t ts ih =>
    obtain ⟨ht, hts⟩ := List.forall_mem_cons.mp h
    cases ts with
    | nil => exact splitLine_piece ht
    | cons u us =>
      rw [joinOperands, splitLine_piece_separator ht (by decide), splitLine_separator (by decide), ih hts]
      exact List.cons_ne_nil u us

/-! ## Numbers (30_encoding R85) -/

theorem decDigit_digitChar {d : Nat} (h : d < 10) : decDigit d.digitChar = some d := by
  interval_cases d <;> rfl

theorem digitsFrom_append (base : Nat) (digit : Char → Option Nat) (acc : Nat) (s t : Text) :
    digitsFrom base digit acc (s ++ t) = (digitsFrom base digit acc s).bind fun n => digitsFrom base digit n t := by
  induction s generalizing acc with
  | nil => rfl
  | cons c s ih =>
    simp only [List.cons_append, digitsFrom]
    split
    · exact ih _
    · rfl

theorem digitsFrom_toDigits (n : Nat) : digitsFrom 10 decDigit 0 (Nat.toDigits 10 n) = some n := by
  induction n using Nat.strong_induction_on with
  | h n ih =>
    by_cases hn : n < 10
    · simp [Nat.toDigits_of_lt_base hn, digitsFrom, decDigit_digitChar hn]
    · have hdigit := decDigit_digitChar (Nat.mod_lt n (by decide : 0 < 10))
      rw [Nat.toDigits_of_base_le (by decide) (by omega), digitsFrom_append, ih (n / 10) (by omega)]
      simp only [Option.bind_some, digitsFrom, hdigit]
      rw [Nat.div_add_mod']

theorem isDigit_of_mem_toDigits {n : Nat} {c : Char} (h : c ∈ Nat.toDigits 10 n) : c.isDigit = true :=
  Nat.isDigit_of_mem_toDigits (by decide) (by decide) h

theorem parseMagnitude_toDigits (n : Nat) : parseMagnitude (Nat.toDigits 10 n) = some n := by
  have hdec : parseNat 10 decDigit (Nat.toDigits 10 n) = some n := by
    simp [parseNat, Nat.toDigits_ne_nil, digitsFrom_toDigits]
  unfold parseMagnitude
  split
  case h_1 rest h => exact absurd (isDigit_of_mem_toDigits (n := n) (c := 'x') (by simp [h])) (by decide)
  case h_2 => exact hdec

theorem parseInt_immText (n : Int) : parseInt (immText n) = some n := by
  unfold immText
  split
  case isTrue hneg =>
    have hval : -(n.natAbs : Int) = n := by omega
    simp only [parseInt, parseMagnitude_toDigits]
    exact congrArg some hval
  case isFalse hpos =>
    have hval : (n.natAbs : Int) = n := by omega
    unfold parseInt
    split
    case h_1 h => exact absurd (isDigit_of_mem_toDigits (n := n.natAbs) (c := '-') (by simp [h])) (by decide)
    case h_2 h => exact absurd (isDigit_of_mem_toDigits (n := n.natAbs) (c := '+') (by simp [h])) (by decide)
    case h_3 =>
      rw [parseMagnitude_toDigits]
      exact congrArg some hval

@[simp] theorem parseImm_immText {n : Int} (h : immInRange n = true) : parseImm (immText n) = .ok n := by
  simp [parseImm, parseInt_immText, h]

/-! ## Registers and memory operands (30_encoding R84, R87) -/

@[simp] theorem parseReg_text (r : RegNum) : parseReg (RegNum.text r) = .ok r := by
  decide +revert

theorem cutAtParen_append {t : Text} (h : '(' ∉ t) (rest : Text) :
    cutAtParen (t ++ '(' :: rest) = some (t, rest) := by
  induction t with
  | nil => rfl
  | cons c t ih =>
    have hc : '(' ≠ c := List.ne_of_not_mem_cons h
    simp [cutAtParen, ih (List.not_mem_of_not_mem_cons h), hc.symm]

/-- An immediate's text is digits and at most a minus sign. -/
theorem mem_immText {n : Int} {c : Char} (h : c ∈ immText n) : c = '-' ∨ c.isDigit = true := by
  unfold immText at h
  split at h
  · exact (List.mem_cons.mp h).imp_right isDigit_of_mem_toDigits
  · exact .inr (isDigit_of_mem_toDigits h)

theorem mem_regText {r : RegNum} {c : Char} (h : c ∈ RegNum.text r) : c = 'x' ∨ c.isDigit = true :=
  (List.mem_cons.mp h).imp_right isDigit_of_mem_toDigits

@[simp] theorem parseMem_memText {n : Int} (h : immInRange n = true) (r : RegNum) :
    parseMem (memText n r) = .ok (n, r) := by
  have hparen : '(' ∉ immText n := fun hmem => absurd (mem_immText hmem) (by decide)
  simp [parseMem, memText, cutAtParen_append hparen, h]

/-! ## The pieces an instruction is written with -/

theorem isSeparator_of_isDigit {c : Char} (h : c.isDigit = true) : isSeparator c = false := by
  have hne : ∀ d : Char, d.isDigit = false → c ≠ d := fun d hd hcd => by simp [hcd, hd] at h
  simp [isSeparator, hne ',' (by decide), hne ' ' (by decide), hne '\t' (by decide), hne '\n' (by decide),
    hne '\r' (by decide)]

theorem isPiece_regText (r : RegNum) : IsPiece (RegNum.text r) := by
  refine ⟨List.cons_ne_nil _ _, fun c hc => ?_⟩
  obtain rfl | hdigit := mem_regText hc
  · decide
  · exact isSeparator_of_isDigit hdigit

theorem isPiece_immText (n : Int) : IsPiece (immText n) := by
  refine ⟨?_, fun c hc => ?_⟩
  · unfold immText
    split <;> simp [Nat.toDigits_ne_nil]
  · obtain rfl | hdigit := mem_immText hc
    · decide
    · exact isSeparator_of_isDigit hdigit

theorem isPiece_memText (n : Int) (r : RegNum) : IsPiece (memText n r) := by
  obtain ⟨-, himm⟩ := isPiece_immText n
  obtain ⟨-, hreg⟩ := isPiece_regText r
  refine ⟨by simp [memText], fun c hc => ?_⟩
  simp only [memText, List.mem_append, List.mem_cons, List.not_mem_nil, or_false] at hc
  obtain hc | rfl | hc | rfl := hc
  · exact himm c hc
  · decide
  · exact hreg c hc
  · decide

theorem isPiece_opcodeText (o : Opcode) : IsPiece o.text := by
  cases o with
  | _ => simp [IsPiece, Opcode.text, isSeparator]

theorem isPiece_operandTexts {i : Instr} : ∀ t ∈ i.operandTexts, IsPiece t := by
  cases i with
  | _ => simp [Instr.operandTexts, isPiece_regText, isPiece_immText, isPiece_memText]

theorem splitLine_line (i : Instr) : splitLine i.line = i.opcode.text :: i.operandTexts := by
  rw [Instr.line, splitLine_piece_separator (isPiece_opcodeText _) (by decide),
    splitLine_joinOperands isPiece_operandTexts]

theorem parseOpcode_text {o : Opcode} (h : o ≠ .nop) : parseOpcode o.text = some o := by
  cases o with
  | nop => exact absurd rfl h
  | _ => rfl

/-! ## Each form of operands, read and read back (30_encoding R82, R83) -/

section Forms
variable {i : Instr} {args : List Text} {n : Int}

theorem parseRRR_texts (mk : RegNum → RegNum → RegNum → Instr) (a b c : RegNum) :
    parseRRR mk [RegNum.text a, RegNum.text b, RegNum.text c] = .ok (mk a b c) := by
  simp only [parseRRR, parseReg_text]
  rfl

theorem parseRRI_texts (mk : RegNum → RegNum → Int → Instr) (a b : RegNum) (h : immInRange n = true) :
    parseRRI mk [RegNum.text a, RegNum.text b, immText n] = .ok (mk a b n) := by
  simp only [parseRRI, parseReg_text, parseImm_immText h]
  rfl

theorem parseRI_texts (mk : RegNum → Int → Instr) (a : RegNum) (h : immInRange n = true) :
    parseRI mk [RegNum.text a, immText n] = .ok (mk a n) := by
  simp only [parseRI, parseReg_text, parseImm_immText h]
  rfl

theorem parseRM_texts (mk : RegNum → RegNum → Int → Instr) (a b : RegNum) (h : immInRange n = true) :
    parseRM mk [RegNum.text a, memText n b] = .ok (mk a b n) := by
  simp only [parseRM, parseReg_text, parseMem_memText h]
  rfl

theorem immInRange_of_parseImm {t : Text} (h : parseImm t = .ok n) : immInRange n = true := by
  unfold parseImm at h
  split at h
  case h_1 => cases h
  case h_2 =>
    obtain ⟨hrange, rfl⟩ := of_ite_eq_ok h
    exact hrange

theorem immInRange_of_parseMem {t : Text} {m : Int × RegNum} (h : parseMem t = .ok m) : immInRange m.1 = true := by
  unfold parseMem at h
  split at h
  case h_1 => cases h
  case h_2 =>
    split at h
    case h_2 => cases h
    case h_1 =>
      split at h <;> cases h
      rename_i himm hreg
      exact immInRange_of_parseImm himm

theorem of_bind_eq_ok {ε α β : Type} {x : Except ε α} {f : α → Except ε β} {b : β} (h : x >>= f = .ok b) :
    ∃ a, x = .ok a ∧ f a = .ok b := by
  cases x with
  | error => cases h
  | ok a => exact ⟨a, rfl, h⟩

/-! What each form answers, whatever the operands: an immediate in range. -/

theorem of_parseRRR_eq_ok {mk : RegNum → RegNum → RegNum → Instr} (h : parseRRR mk args = .ok i) :
    ∃ a b c, mk a b c = i := by
  unfold parseRRR at h
  split at h
  case h_1 =>
    obtain ⟨a, -, h⟩ := of_bind_eq_ok h
    obtain ⟨b, -, h⟩ := of_bind_eq_ok h
    obtain ⟨c, -, h⟩ := of_bind_eq_ok h
    exact ⟨a, b, c, Except.ok.inj h⟩
  case h_2 => cases h

theorem of_parseRRI_eq_ok {mk : RegNum → RegNum → Int → Instr} (h : parseRRI mk args = .ok i) :
    ∃ a b n, immInRange n = true ∧ mk a b n = i := by
  unfold parseRRI at h
  split at h
  case h_1 =>
    obtain ⟨a, -, h⟩ := of_bind_eq_ok h
    obtain ⟨b, -, h⟩ := of_bind_eq_ok h
    obtain ⟨n, hn, h⟩ := of_bind_eq_ok h
    exact ⟨a, b, n, immInRange_of_parseImm hn, Except.ok.inj h⟩
  case h_2 => cases h

theorem of_parseRI_eq_ok {mk : RegNum → Int → Instr} (h : parseRI mk args = .ok i) :
    ∃ a n, immInRange n = true ∧ mk a n = i := by
  unfold parseRI at h
  split at h
  case h_1 =>
    obtain ⟨a, -, h⟩ := of_bind_eq_ok h
    obtain ⟨n, hn, h⟩ := of_bind_eq_ok h
    exact ⟨a, n, immInRange_of_parseImm hn, Except.ok.inj h⟩
  case h_2 => cases h

theorem of_parseRM_eq_ok {mk : RegNum → RegNum → Int → Instr} (h : parseRM mk args = .ok i) :
    ∃ a b n, immInRange n = true ∧ mk a b n = i := by
  unfold parseRM at h
  split at h
  case h_1 =>
    obtain ⟨a, -, h⟩ := of_bind_eq_ok h
    obtain ⟨m, hm, h⟩ := of_bind_eq_ok h
    exact ⟨a, m.2, m.1, immInRange_of_parseMem hm, Except.ok.inj h⟩
  case h_2 => cases h

theorem of_parseJalr_eq_ok (h : parseJalr args = .ok i) : ∃ a b n, immInRange n = true ∧ Instr.jalr a b n = i := by
  unfold parseJalr at h
  split at h
  case h_1 => exact of_parseRM_eq_ok h
  case h_2 => exact of_parseRRI_eq_ok h

end Forms

/-! ## Lines and instructions -/

theorem loadable_iff {i : Instr} : i.loadable = true ↔ i.wellFormed = true ∧ i ≠ .nop := by
  simp [Instr.loadable]

theorem opcode_eq_nop {i : Instr} : i.opcode = .nop ↔ i = .nop := by
  cases i <;> simp [Instr.opcode]

theorem parseOperands_operandTexts {i : Instr} (hwf : i.wellFormed = true) (hnop : i ≠ .nop) :
    parseOperands i.opcode i.operandTexts = .ok i := by
  cases i with
  | add | sub | and | or | xor | slt | sll | srl | sra => exact parseRRR_texts _ _ _ _
  | addi | andi | ori | slti | slli | srli | srai => exact parseRRI_texts _ _ _ hwf
  | beq | bne | blt | bge | bltu | bgeu => exact parseRRI_texts _ _ _ hwf
  | lui | auipc | jal => exact parseRI_texts _ _ hwf
  | jalr | lw | sw => exact parseRM_texts _ _ _ hwf
  | nop => exact absurd rfl hnop

/-- Settles O50: the line splits into the mnemonic and the operands' texts, and each of them reads back. -/
theorem lineRoundTrip : Obligations.LineRoundTrip := by
  intro i h
  obtain ⟨hwf, hnop⟩ := loadable_iff.mp h
  simp only [decodeLine, splitLine_line, parseOpcode_text (opcode_eq_nop.not.mpr hnop)]
  exact parseOperands_operandTexts hwf hnop

theorem loadable_of_parseOperands {o : Opcode} {args : List Text} {i : Instr} (h : parseOperands o args = .ok i) :
    i.loadable = true := by
  cases o with
  | add | sub | and | or | xor | slt | sll | srl | sra =>
    obtain ⟨a, b, c, rfl⟩ := of_parseRRR_eq_ok h
    rfl
  | addi | andi | ori | slti | slli | srli | srai | beq | bne | blt | bge | bltu | bgeu =>
    obtain ⟨a, b, n, hn, rfl⟩ := of_parseRRI_eq_ok h
    exact loadable_iff.mpr ⟨hn, nofun⟩
  | lui | auipc | jal =>
    obtain ⟨a, n, hn, rfl⟩ := of_parseRI_eq_ok h
    exact loadable_iff.mpr ⟨hn, nofun⟩
  | lw | sw =>
    obtain ⟨a, b, n, hn, rfl⟩ := of_parseRM_eq_ok h
    exact loadable_iff.mpr ⟨hn, nofun⟩
  | jalr =>
    obtain ⟨a, b, n, hn, rfl⟩ := of_parseJalr_eq_ok h
    exact loadable_iff.mpr ⟨hn, nofun⟩
  | nop => cases h

theorem loadable_of_decodeLine {line : Text} {i : Instr} (h : decodeLine line = .ok i) : i.loadable = true := by
  unfold decodeLine at h
  split at h
  case h_1 => cases h
  case h_2 =>
    split at h
    case h_1 => cases h
    case h_2 => exact loadable_of_parseOperands h

theorem isValid_of_ne_nop {i : Instr} (h : i ≠ .nop) : i.isValid = true := by
  cases i with
  | nop => exact absurd rfl h
  | _ => rfl

/-- Settles O51: no form of operands makes a nop, and every immediate has passed `parseImm`. -/
theorem linesDecodeToLoadable : Obligations.LinesDecodeToLoadable := by
  intro line i h
  have hload := loadable_of_decodeLine h
  obtain ⟨-, hnop⟩ := loadable_iff.mp hload
  exact ⟨hload, isValid_of_ne_nop hnop⟩

/-! ## The worked examples (30_encoding R94, R95) -/

theorem decodeLines_singleton {line : Text} {i : Instr} (h : decodeLine line = .ok i) (n : Nat) :
    Machine.decodeLines n [line] = .ok [(n, { address := Machine.wrap (4 * n), op := i })] := by
  simp [Machine.decodeLines, h]

theorem decodeLines_singleton_error {line : Text} {e : LineReject} (h : decodeLine line = .error e) (n : Nat) :
    Machine.decodeLines n [line] = .error (.decodeError n line) := by
  simp [Machine.decodeLines, h]

/-- Settles O46: the five lines evaluated, the first, second, fourth and fifth as one-line programs. -/
theorem decodesExampleLines : Obligations.DecodesExampleLines := by
  have hbeq : decodeLine "beq x1, x2, 8".toList = .ok (.beq 1 2 8) := rfl
  have hlw : decodeLine "lw x1,0(x2)".toList = .ok (.lw 1 2 0) := rfl
  have hsw : decodeLine "sw x5, -4(x3)".toList = .ok (.sw 5 3 (-4)) := rfl
  have hxori : decodeLine "xori x1, x2, 3".toList = .error .unknownOpcode := rfl
  have hspace : decodeLine "lw x1, 4 (x2)".toList = .error .operandCount := rfl
  have hpieces : splitLine "lw x1, 4 (x2)".toList = ["lw".toList, "x1".toList, "4".toList, "(x2)".toList] := rfl
  exact ⟨decodeLines_singleton hbeq 0, rfl, rfl, rfl, rfl, rfl, rfl, decodeLines_singleton hlw 0, rfl, rfl, rfl, rfl,
    rfl, hsw, rfl, rfl, rfl, rfl, rfl, decodeLines_singleton_error hxori 0, hpieces,
    decodeLines_singleton_error hspace 0⟩

/-- Settles O47: the ten words evaluated. -/
theorem decodesExampleWords : Obligations.DecodesExampleWords := by
  exact ⟨rfl, rfl, rfl, rfl, rfl, rfl, rfl, rfl, rfl, rfl⟩

end Sys2Proof
end

section
/-! SUPPORT. What Decode, Memory and Write-Back leave alone when a signal is false, and the direct call of the control
unit by name; then the statements of the control unit (40_control_unit). -/

namespace Sys2Proof.Machine

/-! ## The synthetic nop, stage by stage (40 R112) -/

/-- A nop in IF_ID enters ID_EX as a bubble, whether Decode passes it on or a stall holds it back (44 R193, R203). -/
theorem frontAfter_idEx_of_nop {s : State} {r : Redirect} (hn : r.ifId.record.op = .nop) (h : FetchedOnly r.ifId) :
    (frontAfter s r).idEx.record.op = .nop ∧ BubbleFields (frontAfter s r).idEx := by
  unfold frontAfter
  split
  case isTrue => exact ⟨bubble_op _, bubbleFields_bubble _⟩
  case isFalse =>
    have hop : (decodeStage s (hazardOf s r) r.ifId).record.op = .nop := by rw [decodeStage_record, hn]
    have hfields := idExFields_decodeStage s (hazardOf s r) h
    rw [IdExFields, if_pos hop] at hfields
    exact ⟨hop, hfields⟩

theorem memoryAfter_dmem_of_not_store {s : State} (h : (signalsOf s.exMem).memWrite = false) :
    (memoryAfter s).dmem = s.dmem :=
  if_neg (Bool.eq_false_iff.mp h)

theorem writeBack_of_not_regWrite {w : Snapshot} (h : (signalsOf w).regWrite = false) (regs : Vector Word 32) :
    writeBack regs w = regs :=
  if_neg (Bool.eq_false_iff.mp h)

theorem retires_of_nop {w : Snapshot} (h : w.record.op = .nop) : retires w = false := by
  simp [retires, h]

/-- The branch counter counts the Execute slot's instruction only if it is a B-type or jal (47 R270). -/
theorem countCycle_branchesTotal_of_not_predicted {e : Snapshot} (h : isPredicted e.record.op.opcode = false)
    (m : Metrics) (w x : Snapshot) : (countCycle m w e x).branchesTotal = m.branchesTotal := by
  simp [countCycle, h]

theorem countCycle_instructionsRetired_of_not_retires {w : Snapshot} (h : retires w = false) (m : Metrics)
    (e x : Snapshot) : (countCycle m w e x).instructionsRetired = m.instructionsRetired := by
  simp [countCycle, h]

/-- Settles O9: the signals by evaluation; Decode, Execute, Memory and Write-Back each by what the commit takes from
that stage, whose signals are all false. -/
theorem nopDoesNothing : Obligations.NopDoesNothing := by
  refine ⟨rfl, fun s hc hn hf => ?decode, fun s hc => ?execute, fun s hc hn hb => ?memory,
    fun s hc hn hb => ?writeBack⟩
  case decode => exact ⟨_, step_of_stepCommits hc, frontAfter_idEx_of_nop hn hf⟩
  case execute =>
    have hslot : isPredicted (slotsFor .nop s).idEx.record.op.opcode = false := by
      rw [slotsFor_idEx, holding_op]
      rfl
    exact ⟨_, exec_of_canCommit hc, rfl, rfl, countCycle_branchesTotal_of_not_predicted hslot _ _ _⟩
  case memory =>
    have hsig := signalsOf_of_bubbleFields hn hb
    exact ⟨_, step_of_stepCommits hc, memoryAfter_memWb_of_not_load (by rw [hsig]; rfl),
      memoryAfter_dmem_of_not_store (by rw [hsig]; rfl)⟩
  case writeBack =>
    have hsig := signalsOf_of_bubbleFields hn hb
    exact ⟨_, step_of_stepCommits hc, writeBack_of_not_regWrite (by rw [hsig]; rfl) _,
      countCycle_instructionsRetired_of_not_retires (retires_of_nop hn) _ _ _⟩

/-! ## The direct call by name (40 R113) -/

theorem generateSignalsOf_text (o : Opcode) : generateSignalsOf o.text = .ok (generateSignals o) := by
  cases o with
  | _ => rfl

/-- A text that names no opcode is refused; the info is the text itself (log entry 14). -/
theorem generateSignalsOf_of_not_text {t : Text} (h : ∀ o : Opcode, o.text ≠ t) :
    generateSignalsOf t = .error (.unsupportedOperationError t) := by
  have hnone : (programOpcodes ++ [Opcode.nop]).find? (fun o => o.text == t) = none :=
    List.find?_eq_none.mpr fun o _ => by simp [h o]
  simp only [generateSignalsOf, hnone]

/-- Settles O45: the rows of the table by evaluation, the direct call by `generateSignalsOf_text` and
`generateSignalsOf_of_not_text`. -/
theorem controlTable : Obligations.ControlTable := by
  refine ⟨rfl, rfl, rfl, rfl, ?branches, ?jumps, rfl, fun o => ⟨_, generateSignalsOf_text o, rfl⟩,
    fun t h => ⟨t, generateSignalsOf_of_not_text h⟩⟩
  case branches => decide
  case jumps => decide

end Sys2Proof.Machine
end

section
/-! SUPPORT. The ALU function on words, an ALU instruction in the Execute slot, and what it leaves to Memory and
Write-Back; then the statements of the integer instructions (41_integer_alu). -/

namespace Sys2Proof.Machine

/-! ## Narrowing of sums, differences and multiples (00_scope R10) -/

theorem wrap_add (m n : Int) : wrap (m + n) = wrap m + wrap n := BitVec.ofInt_add m n

theorem wrap_sub (m n : Int) : wrap (m - n) = wrap m - wrap n := by
  rw [Int.sub_eq_add_neg, wrap_add, BitVec.sub_eq_add_neg, wrap, wrap, wrap, BitVec.ofInt_neg]

theorem wrap_mul_two_pow (n : Int) (k : Nat) : wrap (n * 2 ^ k) = wrap n <<< k := by
  have hpow : wrap (2 ^ k) = BitVec.twoPow 32 k := by
    have hcast : (2 ^ k : Int) = (2 ^ k : Nat) := (Nat.cast_pow 2 k).symm
    apply BitVec.eq_of_toNat_eq
    rw [hcast, wrap, BitVec.ofInt_natCast, BitVec.toNat_ofNat, BitVec.toNat_twoPow]
  rw [BitVec.shiftLeft_eq_mul_twoPow, ← hpow]
  exact BitVec.ofInt_mul n (2 ^ k)

/-! ## The ALU function (41 R126) -/

theorem alu_slt (m a b pc : Word) : alu m .SLT a b pc = some (if a.toInt < b.toInt then 1 else 0) := by
  rw [alu, signed_eq_toInt, signed_eq_toInt]

theorem alu_srl (m a b pc : Word) :
    alu m .SRL a b pc = some (BitVec.ofNat 32 (a.toNat / 2 ^ (b &&& m).toNat)) := by
  rw [← BitVec.ofInt_natCast, Int.natCast_ediv, Nat.cast_pow]
  rfl

theorem alu_sra (m a b pc : Word) : alu m .SRA a b pc = some (wrap (a.toInt / 2 ^ (b &&& m).toNat)) := by
  rw [alu, signed_eq_toInt, shiftAmount]

theorem alu_lui (m a b pc : Word) : alu m .LUI a b pc = some (wrap (b.toInt * 2 ^ 12)) := by
  rw [alu, signed_eq_toInt]

theorem alu_auipc (m a b pc : Word) : alu m .AUIPC a b pc = some (wrap (unsigned pc + b.toInt * 2 ^ 12)) := by
  rw [alu, signed_eq_toInt]

/-! ### Shifts under the normative mask (92 D3) -/

theorem toNat_and_normative (b : Word) : (b &&& 31).toNat = b.toNat % 32 :=
  (BitVec.toNat_and b 31).trans (Nat.and_two_pow_sub_one_eq_mod b.toNat 5)

theorem lowFive_eq_mod (b : Word) : lowFive b = b.toNat % 32 := BitVec.extractLsb'_toNat 0 5 b

theorem shiftAmount_normative (b : Word) : shiftAmount 31 b = lowFive b :=
  (toNat_and_normative b).trans (lowFive_eq_mod b).symm

theorem alu_sll_normative {m : Word} (hm : m = 31) (a b pc : Word) :
    alu m .SLL a b pc = some (wrap (unsigned a * 2 ^ lowFive b)) := by
  rw [hm, alu, shiftAmount_normative]

theorem alu_srl_normative {m : Word} (hm : m = 31) (a b pc : Word) :
    alu m .SRL a b pc = some (BitVec.ofNat 32 (a.toNat / 2 ^ lowFive b)) := by
  rw [hm, alu_srl, ← shiftAmount_normative, shiftAmount]

theorem alu_sra_normative {m : Word} (hm : m = 31) (a b pc : Word) :
    alu m .SRA a b pc = some (wrap (a.toInt / 2 ^ lowFive b)) := by
  rw [hm, alu_sra, ← shiftAmount_normative, shiftAmount]

/-! ### Division by a power of two as a shift -/

theorem ofNat_div_two_pow (a : Word) (k : Nat) : BitVec.ofNat 32 (a.toNat / 2 ^ k) = a >>> k := by
  rw [← Nat.shiftRight_eq_div_pow, ← BitVec.toNat_ushiftRight, BitVec.ofNat_toNat, BitVec.setWidth_eq]

theorem wrap_toInt_div_two_pow (a : Word) (k : Nat) : wrap (a.toInt / 2 ^ k) = a.sshiftRight k := by
  rw [BitVec.sshiftRight, Int.shiftRight_eq_div_pow, wrap, Nat.cast_pow, Nat.cast_ofNat]

/-- Settles O10: `wrap` carries sums, differences and powers of two over to words, and a division by a power of two is
a right shift. -/
theorem aluIsWordArithmetic : Obligations.AluIsWordArithmetic := by
  intro a b pc
  refine ⟨?add, ?sub, rfl, rfl, rfl, ?slt, ?sll, ?srl, ?sra, ?lui, ?auipc, rfl, rfl, rfl⟩
  case add => rw [alu, wrap_add, wrap_unsigned, wrap_unsigned]
  case sub => rw [alu, wrap_sub, wrap_unsigned, wrap_unsigned]
  case slt => simp only [alu_slt, BitVec.slt_iff_toInt_lt]
  case sll => rw [alu, wrap_mul_two_pow, wrap_unsigned, shiftAmount, toNat_and_normative]
  case srl => rw [alu_srl, ofNat_div_two_pow, toNat_and_normative]
  case sra => rw [alu_sra, wrap_toInt_div_two_pow, toNat_and_normative]
  case lui => rw [alu, wrap_mul_two_pow, wrap_signed]
  case auipc => rw [alu, wrap_add, wrap_unsigned, wrap_mul_two_pow, wrap_signed]

/-! ## The Execute slot of an ALU instruction (44 R196, 41 R125) -/

theorem ne_nop_of_rd {i : Instr} {rd : RegNum} (h : i.rd = some rd) : i ≠ .nop := by
  rintro rfl
  cases h

theorem ne_nop_of_imm {i : Instr} {n : Int} (h : i.imm = some n) : i ≠ .nop := by
  rintro rfl
  cases h

theorem signalsOf_slotOf {i : Instr} (hn : i ≠ .nop) (s : State) : signalsOf (slotOf i s) = generateSignals i.opcode := by
  obtain ⟨hsig, -, -⟩ := slotOf_signals hn s
  simp only [signalsOf, hsig]

theorem immOf_slotOf {i : Instr} {n : Int} (hn : i ≠ .nop) (hi : i.imm = some n) (s : State) :
    immOf (slotOf i s) = wrap n := by
  obtain ⟨-, himm, -⟩ := slotOf_signals hn s
  simp only [immOf, himm, immWord, hi, Option.map_some, Option.getD_some]

theorem aluOperandB_slotOf_of_register {i : Instr} (hn : i ≠ .nop) (hsrc : (generateSignals i.opcode).aluSrc = false)
    (s : State) : aluOperandB (slotOf i s) = rs2Of (slotOf i s) := by
  simp only [aluOperandB, signalsOf_slotOf hn, hsrc, Bool.false_eq_true, if_false]

theorem aluOperandB_slotOf_of_immediate {i : Instr} {n : Int} (hn : i ≠ .nop)
    (hsrc : (generateSignals i.opcode).aluSrc = true) (hi : i.imm = some n) (s : State) :
    aluOperandB (slotOf i s) = wrap n := by
  simp only [aluOperandB, signalsOf_slotOf hn, hsrc, if_true, immOf_slotOf hn hi]

/-- An instruction that is neither a branch nor a jump nor a nop executes in the ALU (40 R111, 44 R196). -/
theorem stageOf_of_not_branch {i : Instr} (hn : i ≠ .nop) (hb : (generateSignals i.opcode).branch = false) (c : Config)
    (e : Snapshot) : stageOf c i e = executeAlu c e := by
  cases i with
  | nop => exact absurd rfl hn
  | beq | bne | blt | bge | bltu | bgeu | jal | jalr => cases hb
  | _ => rfl

/-- An ALU instruction completes with what the ALU answers for its slot. -/
theorem executesAlu_of_alu {ok : State → Prop} {i : Instr} {v : Snapshot → Word} (hn : i ≠ .nop)
    (hb : (generateSignals i.opcode).branch = false)
    (hv : ∀ s, ok s → alu s.cfg.shiftMask (generateSignals i.opcode).aluOp (rs1Of (slotOf i s))
      (aluOperandB (slotOf i s)) (slotOf i s).pc = some (v (slotOf i s))) : ExecutesAlu ok i v := by
  intro s hok hc
  have ⟨hrunning, _, _⟩ := hc
  have halu := hv s hok
  rw [← signalsOf_slotOf hn s] at halu
  refine ⟨cycleAfter i s, exec_of_canCommit hc, ?_, hrunning⟩
  rw [committed_exMem, stageOf_of_not_branch hn hb, executeAlu_of_alu halu]

/-- An ALU instruction on two registers. -/
theorem executesAlu_of_register {ok : State → Prop} {i : Instr} {v : Snapshot → Word} (hn : i ≠ .nop)
    (hb : (generateSignals i.opcode).branch = false) (hsrc : (generateSignals i.opcode).aluSrc = false)
    (hv : ∀ s e, ok s →
      alu s.cfg.shiftMask (generateSignals i.opcode).aluOp (rs1Of e) (rs2Of e) e.pc = some (v e)) :
    ExecutesAlu ok i v :=
  executesAlu_of_alu hn hb fun s hok => by rw [aluOperandB_slotOf_of_register hn hsrc, hv s _ hok]

/-- An ALU instruction with the immediate word as second operand. -/
theorem executesAlu_of_immediate {ok : State → Prop} {i : Instr} {n : Int} {v : Snapshot → Word} (hi : i.imm = some n)
    (hb : (generateSignals i.opcode).branch = false) (hsrc : (generateSignals i.opcode).aluSrc = true)
    (hv : ∀ s e, ok s →
      alu s.cfg.shiftMask (generateSignals i.opcode).aluOp (rs1Of e) (wrap n) e.pc = some (v e)) :
    ExecutesAlu ok i v :=
  have hn := ne_nop_of_imm hi
  executesAlu_of_alu hn hb fun s hok => by rw [aluOperandB_slotOf_of_immediate hn hsrc hi, hv s _ hok]

/-! ## Memory and Write-Back of a decoded instruction (44 R198, R200) -/

theorem signalsOf_of_holdsDecoded {i : Instr} {x : Snapshot} (h : HoldsDecoded i x) :
    signalsOf x = generateSignals i.opcode := by
  obtain ⟨-, -, hsig⟩ := h
  simp only [signalsOf, hsig]

/-- An instruction whose signals ask for no access passes through Memory. -/
theorem passesMemory_of_signals {i : Instr} (hread : (generateSignals i.opcode).memRead = false)
    (hwrite : (generateSignals i.opcode).memWrite = false) : PassesMemory i := by
  intro s hc hi
  have hsig := signalsOf_of_holdsDecoded hi
  exact ⟨_, step_of_stepCommits hc, memoryAfter_memWb_of_not_load (by rw [hsig, hread]),
    memoryAfter_dmem_of_not_store (by rw [hsig, hwrite])⟩

theorem readReg_writeReg (regs : Vector Word 32) (q r : RegNum) (v : Word) :
    readReg (writeReg regs q v) r = if r = q ∧ r ≠ 0 then v else readReg regs r := by
  by_cases hq : r = q
  · subst hq
    by_cases h0 : r = 0 <;> simp [h0]
  · simp [hq, readReg_writeReg_of_ne hq]

theorem writeBack_of_regWrite {w : Snapshot} {rd : RegNum} (h : (signalsOf w).regWrite = true) (hrd : w.rd = some rd)
    (regs : Vector Word 32) : writeBack regs w = writeReg regs rd (wbval w) := by
  simp only [writeBack, h, hrd, if_true]

theorem wbval_of_aluResult {w : Snapshot} {v : Word} (h : (signalsOf w).memToReg = false)
    (hv : w.aluResult = some v) : wbval w = v := by
  simp [wbval, h, aluResultOf, hv]

theorem countCycle_instructionsRetired_of_retires {w : Snapshot} (h : retires w = true) (m : Metrics) (e x : Snapshot) :
    (countCycle m w e x).instructionsRetired = m.instructionsRetired + 1 := by
  simp [countCycle, h]

/-- A decoded instruction with a destination writes its write-back value there, and retires. -/
theorem step_writesBack {i : Instr} {rd : RegNum} {s : State} (hrd : i.rd = some rd)
    (hwrite : (generateSignals i.opcode).regWrite = true) (hc : StepCommits s) (hi : HoldsDecoded i s.memWb) :
    ∃ t, step s = .next t ∧
      (∀ r, readReg t.regs r = if r = rd ∧ r ≠ 0 then wbval s.memWb else readReg s.regs r) ∧
      t.metrics.instructionsRetired = s.metrics.instructionsRetired + 1 := by
  have hsig : (signalsOf s.memWb).regWrite = true := by rw [signalsOf_of_holdsDecoded hi, hwrite]
  obtain ⟨hop, hdst, -⟩ := hi
  have hretires : retires s.memWb = true := decide_eq_true (hop.trans_ne (ne_nop_of_rd hrd))
  refine ⟨_, step_of_stepCommits hc, fun r => ?_, countCycle_instructionsRetired_of_retires hretires _ _ _⟩
  rw [committed_regs, writeBack_of_regWrite hsig (hdst.trans hrd), readReg_writeReg]

theorem writesBackAlu_of_signals {i : Instr} {rd : RegNum} (hrd : i.rd = some rd)
    (hwrite : (generateSignals i.opcode).regWrite = true) (hmem : (generateSignals i.opcode).memToReg = false) :
    WritesBackAlu i rd := by
  intro s v hc hi hv
  rw [← wbval_of_aluResult (by rw [signalsOf_of_holdsDecoded hi, hmem]) hv]
  exact step_writesBack hrd hwrite hc hi

/-! ## The whole path (41 R130 to R151) -/

/-- The path of an instruction with the signals of an R-type row (40 R111). -/
theorem aluPath_of_signalsR {ok : State → Prop} {i : Instr} {rd : RegNum} {op : ALUOp} {v : Snapshot → Word}
    (hsig : generateSignals i.opcode = signalsR op) (hrd : i.rd = some rd)
    (hv : ∀ s e, ok s → alu s.cfg.shiftMask op (rs1Of e) (rs2Of e) e.pc = some (v e)) : AluPath ok i rd v := by
  refine ⟨executesAlu_of_register (ne_nop_of_rd hrd) ?branch ?src ?alu, passesMemory_of_signals ?read ?write,
    writesBackAlu_of_signals hrd ?regWrite ?memToReg⟩ <;> rw [hsig]
  case alu => exact hv
  all_goals rfl

/-- The path of an instruction with the signals of an I-type arithmetic or U-type row (40 R111). -/
theorem aluPath_of_signalsImm {ok : State → Prop} {i : Instr} {rd : RegNum} {n : Int} {op : ALUOp}
    {v : Snapshot → Word} (hsig : generateSignals i.opcode = signalsImm op) (hrd : i.rd = some rd)
    (hi : i.imm = some n) (hv : ∀ s e, ok s → alu s.cfg.shiftMask op (rs1Of e) (wrap n) e.pc = some (v e)) :
    AluPath ok i rd v := by
  refine ⟨executesAlu_of_immediate hi ?branch ?src ?alu, passesMemory_of_signals ?read ?write,
    writesBackAlu_of_signals hrd ?regWrite ?memToReg⟩ <;> rw [hsig]
  case alu => exact hv
  all_goals rfl

/-- Settles O1: each row of the table is an R-type row, and the ALU answers the stated word. -/
theorem rTypeResults : Obligations.RTypeResults := by
  intro rd rs1 rs2
  refine ⟨?add, ?sub, ?and, ?or, ?xor, ?slt, ?sll, ?srl, ?sra⟩
  case add | sub | and | or | xor => exact aluPath_of_signalsR rfl rfl fun _ _ _ => rfl
  case slt => exact aluPath_of_signalsR rfl rfl fun _ _ _ => alu_slt _ _ _ _
  case sll => exact aluPath_of_signalsR rfl rfl fun _ _ hm => alu_sll_normative hm _ _ _
  case srl => exact aluPath_of_signalsR rfl rfl fun _ _ hm => alu_srl_normative hm _ _ _
  case sra => exact aluPath_of_signalsR rfl rfl fun _ _ hm => alu_sra_normative hm _ _ _

/-- Settles O2: each row of the table is an immediate row, and the ALU answers the stated word. -/
theorem iTypeResults : Obligations.ITypeResults := by
  intro rd rs1 imm
  refine ⟨?addi, ?andi, ?ori, ?slti, ?slli, ?srli, ?srai⟩
  case addi | andi | ori => exact aluPath_of_signalsImm rfl rfl rfl fun _ _ _ => rfl
  case slti => exact aluPath_of_signalsImm rfl rfl rfl fun _ _ _ => alu_slt _ _ _ _
  case slli => exact aluPath_of_signalsImm rfl rfl rfl fun _ _ hm => alu_sll_normative hm _ _ _
  case srli => exact aluPath_of_signalsImm rfl rfl rfl fun _ _ hm => alu_srl_normative hm _ _ _
  case srai => exact aluPath_of_signalsImm rfl rfl rfl fun _ _ hm => alu_sra_normative hm _ _ _

/-- Settles O3: as O2, the ALU shifting the immediate left by 12. -/
theorem uTypeResults : Obligations.UTypeResults := fun _ _ =>
  ⟨aluPath_of_signalsImm rfl rfl rfl fun _ _ _ => alu_lui _ _ _ _,
    aluPath_of_signalsImm rfl rfl rfl fun _ _ _ => alu_auipc _ _ _ _⟩

/-- Settles O4: the ALU takes its amount under the configuration's mask. -/
theorem shiftsUnderAnyMask : Obligations.ShiftsUnderAnyMask := by
  refine ⟨shiftAmount_normative, fun m rd rs1 rs2 imm => ⟨?sll, ?srl, ?sra, ?slli, ?srli, ?srai⟩⟩
  case sll => exact executesAlu_of_register nofun rfl rfl fun _ _ hm => hm ▸ rfl
  case srl => exact executesAlu_of_register nofun rfl rfl fun _ _ hm => hm ▸ alu_srl _ _ _ _
  case sra => exact executesAlu_of_register nofun rfl rfl fun _ _ hm => hm ▸ alu_sra _ _ _ _
  case slli => exact executesAlu_of_immediate rfl rfl rfl fun _ _ hm => hm ▸ rfl
  case srli => exact executesAlu_of_immediate rfl rfl rfl fun _ _ hm => hm ▸ alu_srl _ _ _ _
  case srai => exact executesAlu_of_immediate rfl rfl rfl fun _ _ hm => hm ▸ alu_sra _ _ _ _

end Sys2Proof.Machine
end

section
/-! SUPPORT. The branch comparisons on words, a branch and a jump in the Execute slot, and an instruction that writes no
register; then the statements of control transfer (42_control_transfer). -/

namespace Sys2Proof.Machine

/-! ## The branch comparisons (42 R162 to R165) -/

theorem condLt_eq_toInt (a b : Word) : condLt a b = decide (a.toInt < b.toInt) := by
  simp only [condLt, signed_eq_toInt]

theorem condGe_eq_toInt (a b : Word) : condGe a b = decide (a.toInt ≥ b.toInt) := by
  simp only [condGe, signed_eq_toInt, ge_iff_le]

theorem condLtu_eq_toNat (a b : Word) : condLtu a b = decide (a.toNat < b.toNat) := by
  simp only [condLtu, unsigned, Int.ofNat_lt]

theorem condGeu_eq_toNat (a b : Word) : condGeu a b = decide (a.toNat ≥ b.toNat) := by
  simp only [condGeu, unsigned, Int.ofNat_le, ge_iff_le]

/-! ## Targets and training in the Execute slot (42 R168, 46 R247) -/

theorem relativeTarget_slotOf {i : Instr} {n : Int} (hi : i.imm = some n) (s : State) :
    relativeTarget (slotOf i s) = wrap (unsigned (slotOf i s).pc + unsigned (wrap n)) := by
  rw [relativeTarget, immOf_slotOf (ne_nop_of_imm hi) hi]

theorem registerTarget_slotOf {i : Instr} {n : Int} (hi : i.imm = some n) (s : State) :
    registerTarget (slotOf i s) = wrap (unsigned (rs1Of (slotOf i s)) + unsigned (wrap n)) &&& 0xFFFFFFFE := by
  rw [registerTarget, immOf_slotOf (ne_nop_of_imm hi) hi]

/-- The predictor trains at the pc of the snapshot that Execute works on. -/
theorem cycleAfter_bp (i : Instr) (s : State) :
    (cycleAfter i s).bp = trainedTable s (slotOf i s) (stageOf s.cfg i (slotOf i s)).train := by
  have hpc : (slotsFor i s).idEx.pc = (slotOf i s).pc := (executeInput_pc s _).symm
  simp only [committed_bp, trainedTable, hpc]

/-! ## Write-Back of an instruction without a destination (44 R200) -/

theorem writesBackNothing_of_signals {i : Instr} (hn : i ≠ .nop)
    (hwrite : (generateSignals i.opcode).regWrite = false) : WritesBackNothing i := by
  intro s hc hi
  have hsig : (signalsOf s.memWb).regWrite = false := by rw [signalsOf_of_holdsDecoded hi, hwrite]
  obtain ⟨hop, -, -⟩ := hi
  have hretires : retires s.memWb = true := decide_eq_true (hop.trans_ne hn)
  exact ⟨_, step_of_stepCommits hc, writeBack_of_not_regWrite hsig _,
    countCycle_instructionsRetired_of_retires hretires _ _ _⟩

/-! ## Conditional branches (42 R160 to R165) -/

/-- The path of an instruction with the signals of a B-type row (40 R111) whose condition is `cond`. -/
theorem branchPath_of_cond {i : Instr} {n : Int} {taken : Snapshot → Bool} (cond : Word → Word → Bool)
    (hsig : generateSignals i.opcode = signalsBranch) (hi : i.imm = some n)
    (hstage : ∀ c e, stageOf c i e = executeBranch (cond (rs1Of e) (rs2Of e)) e)
    (htaken : ∀ e, cond (rs1Of e) (rs2Of e) = taken e) : BranchPath i n taken := by
  refine ⟨fun s hc => ⟨_, exec_of_canCommit hc, ?execute⟩, passesMemory_of_signals ?read ?write,
    writesBackNothing_of_signals (ne_nop_of_imm hi) ?regWrite⟩
  case execute =>
    rw [committed_exMem, hstage, htaken, ← relativeTarget_slotOf hi]
    rfl
  all_goals
    rw [hsig]
    rfl

/-- Settles O5: each branch is a B-type row, and its condition is the stated comparison. -/
theorem branchOutcomes : Obligations.BranchOutcomes := by
  intro rs1 rs2 imm
  refine ⟨?beq, ?bne, ?blt, ?bge, ?bltu, ?bgeu⟩
  case beq => exact branchPath_of_cond condEq rfl rfl (fun _ _ => rfl) fun _ => rfl
  case bne => exact branchPath_of_cond condNe rfl rfl (fun _ _ => rfl) fun _ => rfl
  case blt => exact branchPath_of_cond condLt rfl rfl (fun _ _ => rfl) fun _ => condLt_eq_toInt _ _
  case bge => exact branchPath_of_cond condGe rfl rfl (fun _ _ => rfl) fun _ => condGe_eq_toInt _ _
  case bltu => exact branchPath_of_cond condLtu rfl rfl (fun _ _ => rfl) fun _ => condLtu_eq_toNat _ _
  case bgeu => exact branchPath_of_cond condGeu rfl rfl (fun _ _ => rfl) fun _ => condGeu_eq_toNat _ _

/-! ## Jumps (42 R166, R167) -/

/-- Settles O6: Execute by the target of the slot and the training at its pc; jal and jalr have the signals of the jump
row (40 R111), so Memory makes no access and Write-Back writes the ALU result. -/
theorem jumpsLinkAndRedirect : Obligations.JumpsLinkAndRedirect := by
  refine ⟨fun rd imm => ⟨fun s hc => ⟨_, exec_of_canCommit hc, ?jalSlot, ?jalTable⟩,
      passesMemory_of_signals rfl rfl, writesBackAlu_of_signals rfl rfl rfl⟩,
    fun rd rs1 imm => ⟨fun s hc => ⟨_, exec_of_canCommit hc, ?jalrSlot, ?jalrTable⟩,
      passesMemory_of_signals rfl rfl, writesBackAlu_of_signals rfl rfl rfl⟩⟩
  case jalSlot =>
    rw [committed_exMem, ← relativeTarget_slotOf rfl]
    rfl
  case jalTable => exact cycleAfter_bp _ s
  case jalrSlot =>
    rw [committed_exMem, ← registerTarget_slotOf rfl]
    rfl
  case jalrTable => exact cycleAfter_bp _ s

end Sys2Proof.Machine
end

section
/-! SUPPORT. The Memory stage of a load and of a store, the load-use stall, and an instruction that passes through an
otherwise empty pipeline; then the statements of the load and the store (43_load_store). -/

namespace Sys2Proof.Machine

/-! ## The Memory stage of an access (44 R198, 20_memory R62) -/

theorem aluResultOf_of_eq_some {x : Snapshot} {v : Word} (h : x.aluResult = some v) : aluResultOf x = v := by
  simp only [aluResultOf, h, Option.getD_some]

theorem memoryAfter_dmem_of_store {s : State} (h : (signalsOf s.exMem).memWrite = true) :
    (memoryAfter s).dmem = writeWord s.dmem (aluResultOf s.exMem).toNat (rs2Of s.exMem) :=
  if_pos h

/-- An illegal access fails the cycle, unless its fetch has failed before (60 R305). -/
theorem exec_of_illegal_access {i : Instr} {s : State} (hrun : s.status = .running)
    (hfront : FrontEndOk s (slotsFor i s))
    (haccess : (signalsOf s.exMem).memRead = true ∨ (signalsOf s.exMem).memWrite = true)
    (hillegal : ¬ LegalAddress s.cfg.dmemWords (aluResultOf s.exMem)) :
    exec i s = .next (raiseFatal s (.memoryAccessError (aluResultOf s.exMem))) := by
  have hmem : ¬ MemoryOk s := fun h => hillegal (h haccess)
  simp only [exec_eq_commit, commit, hrun, frontEnd_of_ok hfront, memoryStage_of_not_ok hmem]

/-- The fatal error of a load or store in EX_MEM (43 R180, R181). -/
theorem step_of_illegal_access {i : Instr} {s : State} {ea : Word} (hrun : s.status = .running)
    (hfront : FrontEndOk s (slotsFor (executing s) s)) (hi : HoldsDecoded i s.exMem)
    (haccess : (generateSignals i.opcode).memRead = true ∨ (generateSignals i.opcode).memWrite = true)
    (hea : s.exMem.aluResult = some ea) (hillegal : ¬ LegalAddress s.cfg.dmemWords ea) :
    step s = .next (raiseFatal s (.memoryAccessError ea)) := by
  rw [← signalsOf_of_holdsDecoded hi] at haccess
  rw [← aluResultOf_of_eq_some hea] at hillegal ⊢
  exact exec_of_illegal_access hrun hfront haccess hillegal

theorem wbval_of_memData {w : Snapshot} {v : Word} (h : (signalsOf w).memToReg = true) (hv : w.memData = some v) :
    wbval w = v := by
  simp only [wbval, h, memDataOf, hv, if_true, Option.getD_some]

/-! ## The load-use stall (45 R222, 44 R203) -/

theorem opcode_eq_lw {i : Instr} : i.opcode = .lw ↔ ∃ rd rs1 n, i = .lw rd rs1 n := by
  cases i with
  | lw rd rs1 n => exact ⟨fun _ => ⟨rd, rs1, n, rfl⟩, fun _ => rfl⟩
  | _ => exact ⟨nofun, nofun⟩

theorem isSource_iff {f : Snapshot} {r : RegNum} :
    isSource f r = true ↔ r ≠ 0 ∧ (f.record.op.rs1 = some r ∨ f.record.op.rs2 = some r) := by
  simp only [isSource, Bool.and_eq_true, Bool.or_eq_true, decide_eq_true_eq]

theorem dst_of_load {e : Snapshot} {rd rs1 : RegNum} {n : Int} (he : e.record.op = .lw rd rs1 n) (h0 : rd ≠ 0) :
    dst e = some rd :=
  dst_eq_some.mpr ⟨by rw [he]; rfl, h0⟩

/-- The stall, exactly: a load ahead of a reader of its destination. -/
theorem loadUseStall_iff {f e : Snapshot} :
    loadUseStall f e = true ↔ ∃ rd rs1 n, e.record.op = .lw rd rs1 n ∧ rd ≠ 0 ∧
      (f.record.op.rs1 = some rd ∨ f.record.op.rs2 = some rd) := by
  rw [loadUseStall, Bool.and_eq_true, decide_eq_true_eq, opcode_eq_lw]
  constructor
  · rintro ⟨⟨rd, rs1, n, he⟩, hstall⟩
    split at hstall
    case h_2 => cases hstall
    case h_1 r hr =>
      obtain ⟨hrd, h0⟩ := dst_eq_some.mp hr
      obtain ⟨-, hsrc⟩ := isSource_iff.mp hstall
      rw [he] at hrd
      cases hrd
      exact ⟨rd, rs1, n, he, h0, hsrc⟩
  · rintro ⟨rd, rs1, n, he, h0, hsrc⟩
    rw [dst_of_load he h0]
    exact ⟨⟨rd, rs1, n, he⟩, isSource_iff.mpr ⟨h0, hsrc⟩⟩

theorem hazardOf_stall {s : State} {r : Redirect} :
    (hazardOf s r).stall = (s.cfg.hasHazardUnit && loadUseStall r.ifId r.idEx) := by
  unfold hazardOf
  cases s.cfg.hasHazardUnit <;> rfl

theorem frontAfter_of_stall {s : State} {r : Redirect} (h : (hazardOf s r).stall = true) :
    frontAfter s r = stalled r :=
  if_pos h

theorem frontAfter_of_not_stall {s : State} {r : Redirect} (h : (hazardOf s r).stall = false) :
    frontAfter s r =
      { pc := wrap (unsigned r.pc + 4), ifId := fetchedAt s r.pc, idEx := decodeStage s (hazardOf s r) r.ifId } :=
  if_neg (Bool.eq_false_iff.mp h)

/-! ## The load and the store, stage by stage -/

/-- Settles O7: Execute adds base and offset, Memory reads the word or fails the cycle, Write-Back takes `mem_data`, and
the hazard unit stalls a reader of rd. -/
theorem loadResult : Obligations.LoadResult := by
  intro rd rs1 imm
  refine ⟨executesAlu_of_immediate rfl rfl rfl fun _ _ _ => rfl, fun s ea hc hi hea => ?memory,
    fun s ea hrun hfront hi hea hillegal => ?illegal, fun s v hc hi hv => ?writeBack,
    fun s hunit hc h0 hsrc => ?stall⟩
  case memory =>
    have hsig := signalsOf_of_holdsDecoded hi
    refine ⟨_, step_of_stepCommits hc, ?_, memoryAfter_dmem_of_not_store (by rw [hsig]; rfl)⟩
    rw [committed_memWb, memoryAfter_memWb_of_load (by rw [hsig]; rfl), aluResultOf_of_eq_some hea]
  case illegal => exact step_of_illegal_access hrun hfront hi (.inl rfl) hea hillegal
  case writeBack =>
    have hval : wbval s.memWb = v := wbval_of_memData (by rw [signalsOf_of_holdsDecoded hi]; rfl) hv
    rw [← hval]
    exact step_writesBack rfl rfl hc hi
  case stall =>
    have hload : loadUseStall (redirect s).ifId (slotsFor (.lw rd rs1 imm) s).idEx = true :=
      loadUseStall_iff.mpr ⟨rd, rs1, imm, holding_op _ _, h0, hsrc⟩
    have hstall : (hazardOf s (slotsFor (.lw rd rs1 imm) s)).stall = true := by
      rw [hazardOf_stall, hunit, slotsFor_ifId, hload, Bool.and_self]
    refine ⟨_, exec_of_canCommit hc, ?_⟩
    rw [frontAfter_of_stall hstall]
    exact ⟨rfl, rfl, rfl⟩

/-- Settles O8: Execute adds base and offset, Memory writes the word or fails the cycle, and Write-Back has no signal
to write. -/
theorem storeResult : Obligations.StoreResult := by
  intro rs2 rs1 imm
  refine ⟨executesAlu_of_immediate rfl rfl rfl fun _ _ _ => rfl, fun s ea v hc hwf hi hea hv => ?memory,
    fun s ea hrun hfront hi hea hillegal => step_of_illegal_access hrun hfront hi (.inr rfl) hea hillegal,
    writesBackNothing_of_signals nofun rfl⟩
  have hsig := signalsOf_of_holdsDecoded hi
  have hwrite : (signalsOf s.exMem).memWrite = true := by rw [hsig]; rfl
  have ⟨_, _, hmemory⟩ := hc
  have hlegal : LegalAddress s.cfg.dmemWords ea := aluResultOf_of_eq_some hea ▸ hmemory (.inr hwrite)
  have hstored : (memoryAfter s).dmem = writeWord s.dmem ea.toNat v := by
    rw [memoryAfter_dmem_of_store hwrite, aluResultOf_of_eq_some hea, rs2Of, hv, Option.getD_some]
  refine ⟨_, step_of_stepCommits hc, ?_, fun b hb => ?_, memoryAfter_memWb_of_not_load (by rw [hsig]; rfl)⟩
  · rw [committed_dmem, hstored, memRead_of_legal hlegal, readWord_writeWord_self hwf]
  · rw [committed_dmem, hstored, readByte_writeWord_of_outside hb]

/-! ## A cycle that nothing disturbs (44 R206) -/

/-- No cycle error, no stall, no redirect, no branch and no forwarding in Execute: wherever an instruction could meet
another, one of the two is a bubble. -/
structure Undisturbed (t : State) : Prop where
  running  : t.status = .running
  fetch    : LegalAddress t.cfg.imemWords t.pc
  decode   : t.ifId.record.op = .nop ∨ t.idEx.record.op = .nop
  execute  : t.idEx.record.op = .nop ∨ t.exMem.record.op = .nop ∧ t.memWb.record.op = .nop
  filled   : IdExFields t.idEx
  straight : (generateSignals t.idEx.record.op.opcode).branch = false
  noFlush  : t.exMem.flushRequired = none
  memory   : MemoryOk t

/-- The metrics after one more cycle, in which no branch executed (47 R270). -/
def countStraight (m : Metrics) (w : Snapshot) : Metrics :=
  { m with
    cyclesTotal := m.cyclesTotal + 1
    instructionsRetired := m.instructionsRetired + (if retires w then 1 else 0) }

/-- The state after an undisturbed cycle of `t`. -/
def shifted (t : State) : State :=
  { t with
    regs := writeBack t.regs t.memWb
    pc := t.pc + 4
    ifId := fetchedAt t t.pc
    idEx := decodeStage t (hazardOf t ⟨t.pc, t.ifId, t.idEx⟩) t.ifId
    exMem := (stageOf t.cfg t.idEx.record.op t.idEx).exMem
    memWb := (memoryAfter t).memWb
    dmem := (memoryAfter t).dmem
    metrics := countStraight t.metrics t.memWb }

theorem isPredicted_of_not_branch {o : Opcode} (h : (generateSignals o).branch = false) : isPredicted o = false :=
  Bool.eq_false_iff.mpr fun hp => by simp [branch_of_isPredicted hp] at h

/-- Only what is predicted carries a prediction (46 R243). -/
theorem predictedTaken_of_not_branch {e : Snapshot} (h : IdExFields e)
    (hb : (generateSignals e.record.op.opcode).branch = false) : e.predictedTaken = none := by
  by_cases hn : e.record.op = .nop
  · rw [IdExFields, if_pos hn] at h
    obtain ⟨-, -, -, -, -, hpred, -⟩ := h
    exact hpred
  · rw [IdExFields, if_neg hn] at h
    obtain ⟨⟨-, -, -, -, -, hpred, -⟩, -⟩ := h
    rw [isPredicted_of_not_branch hb] at hpred
    exact Option.not_isSome_iff_eq_none.mp (Bool.eq_false_iff.mp hpred)

theorem train_of_not_branch {i : Instr} (h : (generateSignals i.opcode).branch = false) (c : Config) (e : Snapshot) :
    (stageOf c i e).train = none := by
  by_cases hn : i = .nop
  · rw [hn]
    rfl
  · rw [stageOf_of_not_branch hn h, executeAlu_train]

theorem countCycle_of_not_branch {e : Snapshot} (h : (generateSignals e.record.op.opcode).branch = false) (m : Metrics)
    (w x : Snapshot) : countCycle m w e x = countStraight m w := by
  simp [countCycle, countStraight, isPredicted_of_not_branch h]

theorem redirect_of_none {t : State} (hflush : t.exMem.flushRequired = none) (hpred : t.idEx.predictedTaken = none) :
    redirect t = ⟨t.pc, t.ifId, t.idEx⟩ := by
  simp [redirect, hflush, hpred]

theorem dst_of_nop {e : Snapshot} (h : e.record.op = .nop) : dst e = none := by
  rw [dst, h]
  rfl

theorem loadUseStall_of_nop {f e : Snapshot} (h : f.record.op = .nop ∨ e.record.op = .nop) :
    loadUseStall f e = false := by
  refine Bool.eq_false_iff.mpr fun hstall => ?_
  obtain ⟨rd, rs1, n, he, -, hsrc⟩ := loadUseStall_iff.mp hstall
  obtain hn | hn := h
  · rw [hn] at hsrc
    obtain hsrc | hsrc := hsrc <;> cases hsrc
  · rw [hn] at he
    cases he

/-- Execute forwards nothing to a bubble and nothing from one (45 R231). -/
theorem executeInput_eq_self {t : State} {e : Snapshot}
    (h : e.record.op = .nop ∨ t.exMem.record.op = .nop ∧ t.memWb.record.op = .nop) : executeInput t e = e := by
  have hoperands : executeOperand t e.record.op.rs1 e.rs1Val = e.rs1Val ∧
      executeOperand t e.record.op.rs2 e.rs2Val = e.rs2Val := by
    obtain hn | ⟨hx, hw⟩ := h
    · rw [hn]
      exact ⟨rfl, rfl⟩
    · have hkeep (k : Option RegNum) (v : Option Word) : executeOperand t k v = v := by
        cases k with
        | none => rfl
        | some r => simp [executeOperand, dst_of_nop hx, dst_of_nop hw]
      exact ⟨hkeep _ _, hkeep _ _⟩
  obtain ⟨h1, h2⟩ := hoperands
  unfold executeInput
  split
  · rw [h1, h2]
  · rfl

/-- An undisturbed cycle shifts the pipeline by one stage. -/
theorem step_of_undisturbed {t : State} (h : Undisturbed t) : step t = .next (shifted t) := by
  have hredirect : redirect t = ⟨t.pc, t.ifId, t.idEx⟩ :=
    redirect_of_none h.noFlush (predictedTaken_of_not_branch h.filled h.straight)
  have hexec : executing t = t.idEx.record.op := by rw [executing, hredirect]
  have hslots : slotsFor (executing t) t = ⟨t.pc, t.ifId, t.idEx⟩ := by
    rw [slotsFor, hredirect, hexec, holding_of_idExFields h.filled]
  have hslot : slotOf (executing t) t = t.idEx := by
    rw [slotOf, hslots, executeInput_eq_self h.execute]
  have hcommits : StepCommits t := ⟨h.running, .inr (by rw [hslots]; exact h.fetch), h.memory⟩
  have hstall : (hazardOf t ⟨t.pc, t.ifId, t.idEx⟩).stall = false := by
    rw [hazardOf_stall, loadUseStall_of_nop h.decode, Bool.and_false]
  have hpc : wrap (unsigned t.pc + 4) = t.pc + 4 := wrap_unsigned_add t.pc 4
  rw [step_of_stepCommits hcommits, hslot, hslots, hexec, frontAfter_of_not_stall hstall]
  simp only [committed, shifted, trainedTable, train_of_not_branch h.straight, countCycle_of_not_branch h.straight,
    hpc]

theorem run_of_undisturbed {k : Nat} {s : State} (h : ∀ j < k, Undisturbed (shifted^[j] s)) :
    Host.Core.run Sys2Proof.core k s = .next (shifted^[k] s) := by
  induction k generalizing s with
  | zero => rfl
  | succ k ih =>
    have hstep : Sys2Proof.core.step s = .next (shifted s) := step_of_undisturbed (h 0 k.succ_pos)
    simp only [Host.Core.run, hstep]
    exact ih fun j hj => h (j + 1) (Nat.succ_lt_succ hj)

theorem iterate_shifted_succ (k : Nat) (s : State) : shifted^[k + 1] s = shifted (shifted^[k] s) :=
  Function.iterate_succ_apply' shifted k s

/-- What undisturbed cycles leave alone, and the pc. -/
theorem iterate_shifted_frame (s : State) (k : Nat) :
    (shifted^[k] s).cfg = s.cfg ∧ (shifted^[k] s).imem = s.imem ∧ (shifted^[k] s).bp = s.bp ∧
      (shifted^[k] s).status = s.status ∧ (shifted^[k] s).pc = s.pc + BitVec.ofNat 32 (4 * k) := by
  induction k with
  | zero => exact ⟨rfl, rfl, rfl, rfl, (BitVec.add_zero _).symm⟩
  | succ k ih =>
    obtain ⟨hcfg, himem, hbp, hstatus, hpc⟩ := ih
    rw [iterate_shifted_succ]
    refine ⟨hcfg, himem, hbp, hstatus, ?_⟩
    have hnext : (shifted (shifted^[k] s)).pc = (shifted^[k] s).pc + BitVec.ofNat 32 4 := rfl
    rw [hnext, hpc, BitVec.add_assoc, Nat.mul_succ, BitVec.ofNat_add]

/-! ## Bubbles, stage by stage (10_state R33, 44 R190) -/

/-- A bubble in ID_EX or further on. -/
abbrev IsBubble (e : Snapshot) : Prop := e.record.op = .nop ∧ BubbleFields e

theorem isBubble_decodeStage {f : Snapshot} (hn : f.record.op = .nop) (hf : FetchedOnly f) (s : State) (hz : Hazard) :
    IsBubble (decodeStage s hz f) := by
  have hop : (decodeStage s hz f).record.op = .nop := by rw [decodeStage_record, hn]
  have hfields := idExFields_decodeStage s hz hf
  rw [IdExFields, if_pos hop] at hfields
  exact ⟨hop, hfields⟩

theorem stageOf_exMem_of_nop {i : Instr} (h : i = .nop) (c : Config) (e : Snapshot) : (stageOf c i e).exMem = e := by
  rw [h]
  rfl

section Bubble

variable {e : Snapshot} (h : IsBubble e)
include h

theorem IsBubble.signals : signalsOf e = generateSignals .nop := signalsOf_of_bubbleFields h.1 h.2

theorem IsBubble.idExFields : IdExFields e := (if_pos h.1).mpr h.2

theorem IsBubble.flushRequired : e.flushRequired = none := by
  obtain ⟨-, -, -, -, -, -, -, -, -, -, -, hflush, -⟩ := h
  exact hflush

theorem IsBubble.writeBack (regs : Vector Word 32) : writeBack regs e = regs :=
  writeBack_of_not_regWrite (by rw [h.signals]; rfl) regs

theorem IsBubble.countStraight (m : Metrics) : countStraight m e = { m with cyclesTotal := m.cyclesTotal + 1 } := by
  simp [Machine.countStraight, retires_of_nop h.1]

end Bubble

section EmptyMemoryStage

variable {s : State} (h : IsBubble s.exMem)
include h

theorem memoryOk_of_isBubble : MemoryOk s := by
  rw [MemoryOk, h.signals]
  rintro (hread | hwrite)
  · cases hread
  · cases hwrite

theorem memoryAfter_memWb_of_isBubble : (memoryAfter s).memWb = s.exMem :=
  memoryAfter_memWb_of_not_load (by rw [h.signals]; rfl)

theorem memoryAfter_dmem_of_isBubble : (memoryAfter s).dmem = s.dmem :=
  memoryAfter_dmem_of_not_store (by rw [h.signals]; rfl)

end EmptyMemoryStage

theorem memoryAfter_congr {s t : State} (hx : s.exMem = t.exMem) (hm : s.dmem = t.dmem) :
    memoryAfter s = memoryAfter t := by
  simp only [memoryAfter, hx, hm]

/-- Behind bubbles there is no hazard (45 R222, R223). -/
theorem hazardOf_of_bubbles {t : State} {r : Redirect} (he : r.idEx.record.op = .nop) (hx : t.exMem.record.op = .nop)
    (hw : t.memWb.record.op = .nop) : hazardOf t r = noHazard := by
  have htag (k : Option RegNum) : forwardTag k t.exMem t.memWb = .none := by
    cases k with
    | none => rfl
    | some q => simp [forwardTag, dst_of_nop hx, dst_of_nop hw]
  simp only [hazardOf, hazard, htag, loadUseStall_of_nop (.inr he), noHazard, ite_self]

/-- Behind a bubble, Decode without a hazard reads the register file (44 R194, 45 R231). -/
theorem decodeOperand_of_bubble {t : State} (hw : t.memWb.record.op = .nop) (r : RegNum) :
    decodeOperand t r .none = readReg t.regs r := by
  simp only [decodeOperand, bypassedRead, dst_of_nop hw, operand, reduceCtorEq, if_false, ite_self]

/-! ## A lone instruction in the pipeline (44 R206, 47 R267) -/

/-- What Decode makes of the lone instruction `i` at the pc of `s`. -/
def decodedAlone (s : State) (i : Instr) : Snapshot :=
  { record := { address := s.pc, op := i }
    pc := s.pc
    rs1Val := i.rs1.map (readReg s.regs)
    rs2Val := i.rs2.map (readReg s.regs)
    imm := immWord i
    rd := i.rd
    controlSignals := some (generateSignals i.opcode) }

/-- The memories and registers of `s`, with the lone instruction `i` executed to `v` in EX_MEM. -/
def executedAlone (s : State) (i : Instr) (v : Word) : State :=
  { s with exMem := { decodedAlone s i with aluResult := some v } }

theorem decodeStage_of_bubbles {s t : State} {i : Instr} (hn : i ≠ .nop)
    (hb : (generateSignals i.opcode).branch = false) (hw : t.memWb.record.op = .nop) (hregs : t.regs = s.regs) :
    decodeStage t noHazard { record := { address := s.pc, op := i }, pc := s.pc } = decodedAlone s i := by
  simp [decodeStage, hn, noHazard, decodeOperand_of_bubble hw, hregs, predictedTargetAt, predictedTakenAt,
    isPredicted_of_not_branch hb, decodedAlone]

/-- Each cycle fetches from the next slot. -/
theorem iterate_shifted_ifId (s : State) (k : Nat) :
    (shifted^[k + 1] s).ifId = fetchedAt s (s.pc + BitVec.ofNat 32 (4 * k)) := by
  obtain ⟨-, himem, -, -, hpc⟩ := iterate_shifted_frame s k
  have hnext : (shifted (shifted^[k] s)).ifId = fetchedAt (shifted^[k] s) (shifted^[k] s).pc := rfl
  rw [iterate_shifted_succ, hnext, hpc]
  simp only [fetchedAt, himem]

section Alone

variable {s : State} {i : Instr} (h : AloneAtPc s i)
include h

theorem AloneAtPc.fetch {k : Nat} (hk : k < 5) :
    LegalAddress s.cfg.imemWords (s.pc + BitVec.ofNat 32 (4 * k)) := by
  obtain ⟨⟨-, hwords, -, -⟩, -, haligned, hroom, -⟩ := h
  have hnat : (s.pc + BitVec.ofNat 32 (4 * k)).toNat = s.pc.toNat + 4 * k := by
    rw [BitVec.toNat_add, BitVec.toNat_ofNat]
    omega
  exact ⟨by omega, by omega⟩

theorem AloneAtPc.empty {k : Nat} (h0 : k ≠ 0) (hk : k < 5) :
    imemAt s.imem (s.pc + BitVec.ofNat 32 (4 * k)) = none := by
  obtain ⟨-, -, -, -, -, h1, h2, h3, h4⟩ := h
  interval_cases k
  · exact absurd rfl h0
  · exact h1
  · exact h2
  · exact h3
  · exact h4

/-! ### Where the instruction is not -/

theorem AloneAtPc.fetchedOnly (k : Nat) : FetchedOnly (shifted^[k] s).ifId := by
  cases k with
  | zero =>
    obtain ⟨-, ⟨-, -, honly, -⟩, -⟩ := h
    exact honly
  | succ k =>
    rw [iterate_shifted_ifId]
    exact fetchedOnly_fetchedAt _ _

theorem AloneAtPc.startsEmpty : s.ifId.record.op = .nop ∧ IsBubble s.idEx ∧ IsBubble s.exMem ∧ IsBubble s.memWb := by
  obtain ⟨-, ⟨-, hdrained, -, hidEx, hexMem, hmemWb⟩, -⟩ := h
  simp only [drained, Bool.and_eq_true, decide_eq_true_eq] at hdrained
  obtain ⟨⟨⟨hifOp, hidOp⟩, hexOp⟩, hmemOp⟩ := hdrained
  exact ⟨hifOp, ⟨hidOp, hidEx⟩, ⟨hexOp, hexMem⟩, ⟨hmemOp, hmemWb⟩⟩

theorem AloneAtPc.ifId_nop {k : Nat} (hk : k ≤ 5) (hne : k ≠ 1) : (shifted^[k] s).ifId.record.op = .nop := by
  cases k with
  | zero =>
    obtain ⟨hf, -⟩ := h.startsEmpty
    exact hf
  | succ k =>
    rw [iterate_shifted_ifId, fetchedAt_of_none (h.empty (by omega) (by omega)), bubble_op]

theorem AloneAtPc.idEx_bubble {k : Nat} (hk : k ≤ 5) (hne : k ≠ 2) : IsBubble (shifted^[k] s).idEx := by
  cases k with
  | zero =>
    obtain ⟨-, he, -⟩ := h.startsEmpty
    exact he
  | succ k =>
    rw [iterate_shifted_succ]
    exact isBubble_decodeStage (h.ifId_nop (by omega) (by omega)) (h.fetchedOnly k) _ _

theorem AloneAtPc.exMem_bubble {k : Nat} (hk : k ≤ 5) (hne : k ≠ 3) : IsBubble (shifted^[k] s).exMem := by
  cases k with
  | zero =>
    obtain ⟨-, -, hx, -⟩ := h.startsEmpty
    exact hx
  | succ k =>
    have hprev : IsBubble (shifted^[k] s).idEx := h.idEx_bubble (by omega) (by omega)
    have hnext : (shifted (shifted^[k] s)).exMem = (shifted^[k] s).idEx := stageOf_exMem_of_nop hprev.1 _ _
    rwa [iterate_shifted_succ, hnext]

theorem AloneAtPc.memWb_bubble {k : Nat} (hk : k ≤ 5) (hne : k ≠ 4) : IsBubble (shifted^[k] s).memWb := by
  cases k with
  | zero =>
    obtain ⟨-, -, -, hw⟩ := h.startsEmpty
    exact hw
  | succ k =>
    have hprev : IsBubble (shifted^[k] s).exMem := h.exMem_bubble (by omega) (by omega)
    have hnext : (shifted (shifted^[k] s)).memWb = (shifted^[k] s).exMem := memoryAfter_memWb_of_isBubble hprev
    rwa [iterate_shifted_succ, hnext]

theorem AloneAtPc.idExFields (k : Nat) : IdExFields (shifted^[k] s).idEx := by
  cases k with
  | zero =>
    obtain ⟨-, he, -⟩ := h.startsEmpty
    exact he.idExFields
  | succ k =>
    rw [iterate_shifted_succ]
    exact idExFields_decodeStage _ _ (h.fetchedOnly k)

theorem AloneAtPc.running (k : Nat) : (shifted^[k] s).status = .running := by
  obtain ⟨-, -, -, hstatus, -⟩ := iterate_shifted_frame s k
  obtain ⟨-, ⟨hrun, -⟩, -⟩ := h
  exact hstatus.trans hrun

theorem AloneAtPc.quiescent_five : Quiescent (shifted^[5] s) := by
  have hf := h.ifId_nop (k := 5) (by decide) (by decide)
  obtain ⟨heOp, he⟩ := h.idEx_bubble (k := 5) (by decide) (by decide)
  obtain ⟨hxOp, hx⟩ := h.exMem_bubble (k := 5) (by decide) (by decide)
  obtain ⟨hwOp, hw⟩ := h.memWb_bubble (k := 5) (by decide) (by decide)
  refine ⟨h.running 5, ?_, h.fetchedOnly 5, he, hx, hw⟩
  simp only [drained, hf, heOp, hxOp, hwOp, decide_true, Bool.and_self]

/-! ### What the instruction does on its way -/

/-- Until the instruction is in Write-Back no register is written, and it alone retires. -/
theorem AloneAtPc.regs_metrics {k : Nat} (hk : k ≤ 4) :
    (shifted^[k] s).regs = s.regs ∧
      (shifted^[k] s).metrics = { s.metrics with cyclesTotal := s.metrics.cyclesTotal + k } := by
  induction k with
  | zero => exact ⟨rfl, rfl⟩
  | succ k ih =>
    obtain ⟨hregs, hmetrics⟩ := ih (by omega)
    have hw : IsBubble (shifted^[k] s).memWb := h.memWb_bubble (by omega) (by omega)
    rw [iterate_shifted_succ]
    refine ⟨(hw.writeBack _).trans hregs, (hw.countStraight _).trans ?_⟩
    rw [hmetrics]
    rfl

theorem AloneAtPc.dmem {k : Nat} (hk : k ≤ 3) : (shifted^[k] s).dmem = s.dmem := by
  induction k with
  | zero => rfl
  | succ k ih =>
    rw [iterate_shifted_succ]
    exact (memoryAfter_dmem_of_isBubble (h.exMem_bubble (by omega) (by omega))).trans (ih (by omega))

theorem AloneAtPc.ifId_one : (shifted^[1] s).ifId = { record := { address := s.pc, op := i }, pc := s.pc } := by
  obtain ⟨-, -, -, -, hslot, -⟩ := h
  rw [iterate_shifted_ifId, Nat.mul_zero, BitVec.add_zero, fetchedAt_of_some hslot]

variable (hn : i ≠ .nop) (hb : (generateSignals i.opcode).branch = false)
include hn hb

theorem AloneAtPc.idEx_two : (shifted^[2] s).idEx = decodedAlone s i := by
  have he := h.idEx_bubble (k := 1) (by decide) (by decide)
  have hx := h.exMem_bubble (k := 1) (by decide) (by decide)
  have hw := h.memWb_bubble (k := 1) (by decide) (by decide)
  obtain ⟨hregs, -⟩ := h.regs_metrics (k := 1) (by decide)
  have hnext : (shifted^[2] s).idEx = decodeStage (shifted^[1] s)
      (hazardOf (shifted^[1] s) ⟨(shifted^[1] s).pc, (shifted^[1] s).ifId, (shifted^[1] s).idEx⟩)
      (shifted^[1] s).ifId := rfl
  rw [hnext, hazardOf_of_bubbles he.1 hx.1 hw.1, h.ifId_one, decodeStage_of_bubbles hn hb hw.1 hregs]

variable {v : Word} (hv : alu s.cfg.shiftMask (generateSignals i.opcode).aluOp (rs1Of (decodedAlone s i))
  (aluOperandB (decodedAlone s i)) s.pc = some v)
include hv

theorem AloneAtPc.exMem_three : (shifted^[3] s).exMem = (executedAlone s i v).exMem := by
  have hnext : (shifted^[3] s).exMem = (stageOf s.cfg (shifted^[2] s).idEx.record.op (shifted^[2] s).idEx).exMem := rfl
  have hstage : stageOf s.cfg i (decodedAlone s i) = executeAlu s.cfg (decodedAlone s i) :=
    stageOf_of_not_branch hn hb _ _
  rw [hnext, h.idEx_two hn hb]
  exact congrArg Executed.exMem (hstage.trans (executeAlu_of_alu hv))

theorem AloneAtPc.memoryAfter_three : memoryAfter (shifted^[3] s) = memoryAfter (executedAlone s i v) :=
  memoryAfter_congr (h.exMem_three hn hb hv) (h.dmem (by decide))

theorem AloneAtPc.undisturbed {k : Nat} (hk : k < 5)
    (hlegal : (generateSignals i.opcode).memRead = true ∨ (generateSignals i.opcode).memWrite = true →
      LegalAddress s.cfg.dmemWords v) : Undisturbed (shifted^[k] s) := by
  obtain ⟨hcfg, -, -, -, hpc⟩ := iterate_shifted_frame s k
  refine ⟨h.running k, ?fetch, ?decode, ?execute, h.idExFields k, ?straight, ?noFlush, ?memory⟩
  case fetch =>
    rw [hcfg, hpc]
    exact h.fetch hk
  case decode =>
    by_cases h1 : k = 1
    · exact .inr (h.idEx_bubble (by omega) (by omega)).1
    · exact .inl (h.ifId_nop (by omega) h1)
  case execute =>
    by_cases h2 : k = 2
    · exact .inr ⟨(h.exMem_bubble (by omega) (by omega)).1, (h.memWb_bubble (by omega) (by omega)).1⟩
    · exact .inl (h.idEx_bubble (by omega) h2).1
  case straight =>
    by_cases h2 : k = 2
    · rw [h2, h.idEx_two hn hb]
      exact hb
    · rw [(h.idEx_bubble (by omega) h2).1]
      rfl
  case noFlush =>
    by_cases h3 : k = 3
    · rw [h3, h.exMem_three hn hb hv]
      rfl
    · exact (h.exMem_bubble (by omega) h3).flushRequired
  case memory =>
    by_cases h3 : k = 3
    · rw [MemoryOk, h3, h.exMem_three hn hb hv, ← h3, hcfg]
      exact hlegal
    · exact memoryOk_of_isBubble (h.exMem_bubble (by omega) h3)

/-- The whole passage of a lone instruction that Execute sends through the ALU: registers and memory take what the
Memory stage and Write-Back make of it, and nothing else has changed five cycles after its fetch. -/
theorem AloneAtPc.passage
    (hlegal : (generateSignals i.opcode).memRead = true ∨ (generateSignals i.opcode).memWrite = true →
      LegalAddress s.cfg.dmemWords v) :
    ∃ t, Host.Core.run Sys2Proof.core 5 s = .next t ∧
      t.regs = writeBack s.regs (memoryAfter (executedAlone s i v)).memWb ∧
      t.dmem = (memoryAfter (executedAlone s i v)).dmem ∧
      t.imem = s.imem ∧ t.bp = s.bp ∧ t.cfg = s.cfg ∧
      t.pc = s.pc + 20 ∧ t.metrics = oneRetired s.metrics 5 ∧ Quiescent t := by
  obtain ⟨hcfg, himem, hbp, -, hpc⟩ := iterate_shifted_frame s 5
  obtain ⟨hregs, hmetrics⟩ := h.regs_metrics (k := 4) (by decide)
  have hmem := h.memoryAfter_three hn hb hv
  have hw : (shifted^[4] s).memWb = (memoryAfter (executedAlone s i v)).memWb := congrArg MemoryResult.memWb hmem
  have hretires : retires (memoryAfter (executedAlone s i v)).memWb = true :=
    decide_eq_true (by rw [memoryAfter_record]; exact hn)
  refine ⟨shifted^[5] s, run_of_undisturbed fun j hj => h.undisturbed hn hb hv hj hlegal, ?regs, ?dmem, himem, hbp,
    hcfg, hpc, ?metrics, ?quiescent⟩
  case regs =>
    have hlast : (shifted^[5] s).regs = writeBack (shifted^[4] s).regs (shifted^[4] s).memWb := rfl
    rw [hlast, hregs, hw]
  case dmem =>
    have hlast : (shifted^[5] s).dmem = (memoryAfter (shifted^[4] s)).dmem := rfl
    rw [hlast, memoryAfter_dmem_of_isBubble (h.exMem_bubble (by decide) (by decide))]
    exact congrArg MemoryResult.dmem hmem
  case metrics =>
    have hlast : (shifted^[5] s).metrics = countStraight (shifted^[4] s).metrics (shifted^[4] s).memWb := rfl
    rw [hlast, hmetrics, hw, countStraight, hretires]
    rfl
  case quiescent => exact h.quiescent_five

end Alone

theorem alu_add (m a b pc : Word) : alu m .ADD a b pc = some (a + b) := by
  rw [alu, wrap_add, wrap_unsigned, wrap_unsigned]

/-- Settles O14: the passage of a lone instruction, whose Memory stage fills `mem_data` with the word to write back. -/
theorem loneLoadPassage : Obligations.LoneLoadPassage := by
  intro s rd rs1 imm h hlegal
  obtain ⟨t, hrun, hregs, hdmem, hrest⟩ := h.passage nofun rfl (alu_add _ _ _ _) fun _ => hlegal
  refine ⟨t, hrun, ?regs, hdmem.trans (memoryAfter_dmem_of_not_store rfl), hrest⟩
  rw [hregs, memoryAfter_memWb_of_load rfl, writeBack_of_regWrite rfl rfl, wbval_of_memData rfl rfl]
  rfl

/-- Settles O15: the passage of a lone instruction, whose Memory stage stores the word and whose Write-Back has no
signal to write. -/
theorem loneStorePassage : Obligations.LoneStorePassage := by
  intro s rs2 rs1 imm h hlegal
  obtain ⟨t, hrun, hregs, hdmem, hrest⟩ := h.passage nofun rfl (alu_add _ _ _ _) fun _ => hlegal
  refine ⟨t, hrun, ?regs, hdmem.trans (memoryAfter_dmem_of_store rfl), hrest⟩
  rw [hregs, memoryAfter_memWb_of_not_load rfl, writeBack_of_not_regWrite rfl]

end Sys2Proof.Machine
end

section
/-! SUPPORT. What one cycle takes from the redirect phase, from Decode and from the Execute slot, and the front end of a
lone instruction of any kind; then the statements of the stages (44_pipeline_stages, 70 R340, R342). -/

namespace Sys2Proof.Machine

/-! ## The pc and a flush (44 R204, R205; 46 R246) -/

theorem frontAfter_pc (s : State) (r : Redirect) :
    (frontAfter s r).pc = if (hazardOf s r).stall then r.pc else wrap (unsigned r.pc + 4) := by
  unfold frontAfter
  split <;> rfl

/-- Settles O20: the pc of the commit is the front end's. -/
theorem pcAfterCycle : Obligations.PcAfterCycle :=
  fun s hc => ⟨_, step_of_stepCommits hc, frontAfter_pc s (slotsFor (executing s) s)⟩

theorem redirect_of_flush {s : State} (h : s.exMem.flushRequired = some true) :
    redirect s = { pc := flushTarget s.exMem, ifId := bubble s.ifId.pc, idEx := bubble s.idEx.pc } :=
  if_pos h

theorem flushTarget_eq {x : Snapshot} {target : Word}
    (htaken : x.branchTaken = some true → x.targetAddress = some target)
    (hnot : x.branchTaken ≠ some true → target = wrap (unsigned x.pc + 4)) : flushTarget x = target := by
  unfold flushTarget
  split
  case isTrue h => rw [htaken h, Option.getD_some]
  case isFalse h => exact (hnot h).symm

/-- Settles O22: the redirect phase leaves bubbles in IF_ID and in the Execute slot, so Decode passes one on, Execute
passes the other on and trains nothing, and Fetch is not stalled. -/
theorem flushSquashesYounger : Obligations.FlushSquashesYounger := by
  intro s target hc hflush htaken hnot
  have hredirect : redirect s = ⟨target, bubble s.ifId.pc, bubble s.idEx.pc⟩ := by
    rw [redirect_of_flush hflush, flushTarget_eq htaken hnot]
  have hexec : executing s = .nop := by rw [executing, hredirect, bubble_op]
  have hslots : slotsFor (executing s) s = ⟨target, bubble s.ifId.pc, bubble s.idEx.pc⟩ := by
    rw [slotsFor, hredirect, hexec, holding_nop (bubble_op _)]
  have hslot : slotOf (executing s) s = bubble s.idEx.pc := by
    rw [slotOf, hslots, executeInput_eq_self (.inl (bubble_op _))]
  have hstall : (hazardOf s ⟨target, bubble s.ifId.pc, bubble s.idEx.pc⟩).stall = false := by
    rw [hazardOf_stall, loadUseStall_of_nop (.inl (bubble_op _)), Bool.and_false]
  have hstep := step_of_stepCommits hc
  rw [hslot, hslots, hexec, frontAfter_of_not_stall hstall] at hstep
  obtain ⟨hop, hfields⟩ := isBubble_decodeStage (bubble_op s.ifId.pc) (fetchedOnly_bubble _) s
    (hazardOf s ⟨target, bubble s.ifId.pc, bubble s.idEx.pc⟩)
  exact ⟨_, hstep, fun _ hr => fetchedAt_of_some hr, fetchedAt_of_none, hop, hfields, rfl, memoryAfter_record s, rfl,
    rfl, countCycle_branchesTotal_of_not_predicted rfl _ _ _⟩

/-! ## The shift from stage to stage (44 R206) -/

/-- A running state that a step answers is that of a committed cycle. -/
theorem eq_cycleAfter_of_step {s t : State} (h : step s = .next t) (ht : t.status = .running) :
    t = cycleAfter (executing s) s :=
  eq_cycleAfter_of_exec h ht

/-- Only a flush takes the instruction in ID_EX out of the Execute slot (46 R246). -/
theorem redirect_idEx_of_no_flush {s : State} (h : s.exMem.flushRequired ≠ some true) : (redirect s).idEx = s.idEx := by
  rw [redirect, if_neg h]
  split <;> rfl

theorem redirect_ifId_of_undirected {s : State} (hflush : s.exMem.flushRequired ≠ some true)
    (hpred : s.idEx.predictedTaken ≠ some true) : (redirect s).ifId = s.ifId := by
  rw [redirect, if_neg hflush, if_neg hpred]

/-- ID_EX after a cycle without a stall: what Decode makes of IF_ID after the redirect phase. -/
theorem cycleAfter_idEx {i : Instr} {s : State} (h : (hazardOf s (slotsFor i s)).stall = false) :
    (cycleAfter i s).idEx = decodeStage s (hazardOf s (slotsFor i s)) (redirect s).ifId := by
  rw [committed_idEx, frontAfter_of_not_stall h, slotsFor_ifId]

/-- Decode passes on the record and the pc that it found. -/
theorem cycleAfter_idEx_identity {i : Instr} {s : State} (h : (hazardOf s (slotsFor i s)).stall = false) :
    (cycleAfter i s).idEx.record = (redirect s).ifId.record ∧ (cycleAfter i s).idEx.pc = (redirect s).ifId.pc := by
  rw [cycleAfter_idEx h]
  exact ⟨decodeStage_record _ _ _, decodeStage_pc _ _ _⟩

/-- Execute passes on the record and the pc of its slot. -/
theorem cycleAfter_exMem_identity (s : State) :
    (cycleAfter (executing s) s).exMem.record = (redirect s).idEx.record ∧
      (cycleAfter (executing s) s).exMem.pc = (redirect s).idEx.pc := by
  have hrecord : (slotOf (executing s) s).record = (redirect s).idEx.record := by
    rw [slotOf, executeInput_record, slotsFor_idEx, holding_executing_record]
  obtain ⟨v, taken, target, flush, hx⟩ := (stageOf_form s.cfg (executing s) (slotOf (executing s) s)).exMem_eq
  rw [committed_exMem, hx]
  exact ⟨hrecord, slotOf_pc _ _⟩

/-- Settles O23: Decode, Execute and Memory each pass the record and the pc on; a stall or a redirect could hold the
instruction back in the first cycle, and only a flush in the second. -/
theorem fifoShift : Obligations.FifoShift := by
  intro s0 s1 s2 s3 h01 h12 h23 hrun1 hrun2 hrun3 hstall hflush0 hpred0 hflush1
  have hdecode := cycleAfter_idEx_identity hstall
  rw [← eq_cycleAfter_of_step h01 hrun1, redirect_ifId_of_undirected hflush0 hpred0] at hdecode
  obtain ⟨hrecord1, hpc1⟩ := hdecode
  have hexecute := cycleAfter_exMem_identity s1
  rw [← eq_cycleAfter_of_step h12 hrun2, redirect_idEx_of_no_flush hflush1, hrecord1, hpc1] at hexecute
  obtain ⟨hrecord2, hpc2⟩ := hexecute
  have hmemory : s3.memWb = (memoryAfter s2).memWb := congrArg State.memWb (eq_cycleAfter_of_step h23 hrun3)
  rw [hmemory, memoryAfter_record, memoryAfter_pc]
  exact ⟨hrecord1, hpc1, hrecord2, hpc2, hrecord2, hpc2⟩

/-! ## What Decode reads (44 R194, 45 R223, R226) -/

theorem decodeStage_rs1Val {f : Snapshot} {r : RegNum} (h : f.record.op.rs1 = some r) (s : State) (hz : Hazard) :
    (decodeStage s hz f).rs1Val = some (decodeOperand s r hz.rs1Source) := by
  have hn : f.record.op ≠ .nop := fun hop => by simp [hop, Instr.rs1] at h
  simp [decodeStage, hn, h]

theorem decodeStage_rs2Val {f : Snapshot} {r : RegNum} (h : f.record.op.rs2 = some r) (s : State) (hz : Hazard) :
    (decodeStage s hz f).rs2Val = some (decodeOperand s r hz.rs2Source) := by
  have hn : f.record.op ≠ .nop := fun hop => by simp [hop, Instr.rs2] at h
  simp [decodeStage, hn, h]

theorem hazardOf_of_unit {s : State} (h : s.cfg.hasHazardUnit = true) (r : Redirect) :
    hazardOf s r = hazard r.ifId r.idEx s.exMem s.memWb :=
  if_pos h

theorem hazardOf_of_no_unit {s : State} (h : s.cfg.hasHazardUnit = false) (r : Redirect) : hazardOf s r = noHazard :=
  if_neg (Bool.eq_false_iff.mp h)

theorem decodeOperand_of_decode {s : State} (h : forwardsAtExecute s.cfg = false) (r : RegNum) (src : ForwardSource) :
    decodeOperand s r src = operand s r src :=
  if_neg (Bool.eq_false_iff.mp h)

theorem forwardTag_of_ne_zero {r : RegNum} (h : r ≠ 0) (x w : Snapshot) :
    forwardTag (some r) x w =
      if x.record.op.rd = some r then .ex else if w.record.op.rd = some r then .mem else .none := by
  simp [forwardTag, dst_eq_some, h]

/-- The loads are the instructions that write back what Memory read (40 R111). -/
theorem memToReg_eq_memRead (o : Opcode) : (generateSignals o).memToReg = (generateSignals o).memRead := by
  cases o <;> rfl

/-- What is forwarded from EX_MEM is what the instruction there will write back (45 R226, 70 R340). -/
theorem fwdEx_eq_wbval {i : Instr} {s : State} (hm : MemoryOk s) (hi : HoldsDecoded i s.exMem) :
    fwdEx s = wbval (memoryAfter s).memWb := by
  have hsame : (signalsOf s.exMem).memToReg = (signalsOf s.exMem).memRead := by
    rw [signalsOf_of_holdsDecoded hi, memToReg_eq_memRead]
  cases hload : (signalsOf s.exMem).memRead with
  | true =>
    rw [hload] at hsame
    have hval : wbval (memoryAfter s).memWb = readWord s.dmem (aluResultOf s.exMem).toNat := by
      rw [memoryAfter_memWb_of_load hload]
      exact wbval_of_memData hsame rfl
    simp only [fwdEx, hsame, if_true, memRead_of_legal (hm (.inl hload)), hval]
  | false =>
    rw [hload] at hsame
    rw [memoryAfter_memWb_of_not_load hload]
    simp only [fwdEx, wbval, hsame, Bool.false_eq_true, if_false]

/-- What Decode reads of a source through its forwarding tag. -/
theorem operand_forwardTag {s : State} (hm : MemoryOk s)
    (hx : s.exMem.record.op = .nop ∨ HoldsDecoded s.exMem.record.op s.exMem) (r : RegNum) :
    operand s r (forwardTag (some r) s.exMem s.memWb) =
      if r = 0 then 0
      else if s.exMem.record.op.rd = some r then wbval (memoryAfter s).memWb
      else if s.memWb.record.op.rd = some r then wbval s.memWb else readReg s.regs r := by
  by_cases h0 : r = 0
  · subst h0
    rfl
  · rw [forwardTag_of_ne_zero h0, if_neg h0]
    by_cases hex : s.exMem.record.op.rd = some r
    · have hi := hx.resolve_left (ne_nop_of_rd hex)
      rw [if_pos hex, if_pos hex]
      exact fwdEx_eq_wbval hm hi
    · rw [if_neg hex, if_neg hex]
      split <;> rfl

/-- Settles O30: Decode reads each source through its tag. -/
theorem operandsWithHazardUnit : Obligations.OperandsWithHazardUnit := by
  intro s r hc hunit hpoint hstall hx
  have ⟨_, _, hm⟩ := hc
  have hread := operand_forwardTag hm hx r
  rw [← decodeOperand_of_decode (by simp [forwardsAtExecute, hpoint])] at hread
  refine ⟨_, step_of_stepCommits hc, fun h1 => ?rs1, fun h2 => ?rs2⟩ <;>
    rw [cycleAfter_idEx hstall, hazardOf_of_unit hunit, committed_memWb, ← hread]
  case rs1 => rw [decodeStage_rs1Val h1, hazard, slotsFor_ifId, h1]
  case rs2 => rw [decodeStage_rs2Val h2, hazard, slotsFor_ifId, h2]

/-- Settles O31: without the unit there is neither a stall nor a tag. -/
theorem operandsWithoutHazardUnit : Obligations.OperandsWithoutHazardUnit := by
  intro s r hc hunit
  have hhazard : hazardOf s (slotsFor (executing s) s) = noHazard := hazardOf_of_no_unit hunit _
  have hstall : (hazardOf s (slotsFor (executing s) s)).stall = false := by rw [hhazard]; rfl
  have hread : decodeOperand s r .none = readReg s.regs r :=
    decodeOperand_of_decode (by simp [forwardsAtExecute, hunit]) r .none
  refine ⟨hstall, _, step_of_stepCommits hc, fun h1 => ?rs1, fun h2 => ?rs2⟩ <;>
    rw [cycleAfter_idEx hstall, hhazard, ← hread]
  case rs1 => exact decodeStage_rs1Val h1 s noHazard
  case rs2 => exact decodeStage_rs2Val h2 s noHazard

/-! ## A lone instruction in the front end (44 R206; log entry 6) -/

/-- Without a hazard and behind a bubble in MEM_WB, Decode depends on the registers, the predictor table and the
configuration only. -/
theorem decodeStage_congr {s t : State} (hcfg : t.cfg = s.cfg) (hbp : t.bp = s.bp) (hregs : t.regs = s.regs)
    (ht : t.memWb.record.op = .nop) (hs : s.memWb.record.op = .nop) (f : Snapshot) :
    decodeStage t noHazard f = decodeStage s noHazard f := by
  have hread (r : RegNum) : decodeOperand t r .none = decodeOperand s r .none := by
    rw [decodeOperand_of_bubble ht, decodeOperand_of_bubble hs, hregs]
  have htaken : predictedTakenAt t f = predictedTakenAt s f := by simp only [predictedTakenAt, hcfg, hbp]
  have htarget : predictedTargetAt t f = predictedTargetAt s f := by simp only [predictedTargetAt, htaken]
  simp only [decodeStage, noHazard, hread, htaken, htarget]

section Alone

variable {s : State} {i : Instr} (h : AloneAtPc s i)
include h

/-- The second cycle decodes the instruction, whatever it is. -/
theorem AloneAtPc.idEx_placed : (shifted^[2] s).idEx = (placed s i).idEx := by
  have he := h.idEx_bubble (k := 1) (by decide) (by decide)
  have hx := h.exMem_bubble (k := 1) (by decide) (by decide)
  have hw := h.memWb_bubble (k := 1) (by decide) (by decide)
  obtain ⟨-, -, -, hw0⟩ := h.startsEmpty
  obtain ⟨hcfg, -, hbp, -, -⟩ := iterate_shifted_frame s 1
  obtain ⟨hregs, -⟩ := h.regs_metrics (k := 1) (by decide)
  have hnext : (shifted^[2] s).idEx = decodeStage (shifted^[1] s)
      (hazardOf (shifted^[1] s) ⟨(shifted^[1] s).pc, (shifted^[1] s).ifId, (shifted^[1] s).idEx⟩)
      (shifted^[1] s).ifId := rfl
  rw [hnext, hazardOf_of_bubbles he.1 hx.1 hw.1, h.ifId_one, placed_idEx]
  exact decodeStage_congr hcfg hbp hregs hw.1 hw0.1 _

/-- While the instruction is in the front end, only bubbles are ahead of it. -/
theorem AloneAtPc.undisturbed_front {k : Nat} (hk : k < 2) : Undisturbed (shifted^[k] s) := by
  obtain ⟨hcfg, -, -, -, hpc⟩ := iterate_shifted_frame s k
  have he := h.idEx_bubble (k := k) (by omega) (by omega)
  have hx := h.exMem_bubble (k := k) (by omega) (by omega)
  refine ⟨h.running k, ?fetch, .inr he.1, .inl he.1, he.idExFields, ?straight, hx.flushRequired,
    memoryOk_of_isBubble hx⟩
  case fetch =>
    rw [hcfg, hpc]
    exact h.fetch (by omega)
  case straight =>
    rw [he.1]
    rfl

end Alone

/-- Settles O17: two undisturbed cycles fetch and decode the instruction and fetch the empty slot behind it. -/
theorem placedIsTwoFrontCycles : Obligations.PlacedIsTwoFrontCycles := by
  intro s i h _
  obtain ⟨-, -, hbp, -, hpc⟩ := iterate_shifted_frame s 2
  obtain ⟨hregs, -⟩ := h.regs_metrics (k := 2) (by decide)
  refine ⟨shifted^[2] s, run_of_undisturbed fun _ hj => h.undisturbed_front hj, ?pc, ?ifId, h.idEx_placed, hregs,
    h.dmem (by decide), hbp⟩
  case pc =>
    rw [hpc, placed_pc]
    exact (wrap_unsigned_add s.pc 8).symm
  case ifId =>
    rw [iterate_shifted_ifId, fetchedAt_of_none (h.empty (by decide) (by decide)), placed_ifId]
    exact congrArg bubble (wrap_unsigned_add s.pc 4).symm

/-! ## A lone ALU instruction (41 R125, 47 R267) -/

/-- Only an instruction that is neither a branch nor a jump has an ALU result (40 R111, 41 R126). -/
theorem not_branch_of_alu {i : Instr} {m a b pc v : Word}
    (h : alu m (generateSignals i.opcode).aluOp a b pc = some v) : (generateSignals i.opcode).branch = false := by
  cases i with
  | beq | bne | blt | bge | bltu | bgeu | jal | jalr => cases h
  | _ => rfl

/-- The signals of an instruction with a destination: it writes its register and stores nothing (40 R111). -/
theorem signals_of_rd {i : Instr} {rd : RegNum} (h : i.rd = some rd) :
    (generateSignals i.opcode).regWrite = true ∧ (generateSignals i.opcode).memWrite = false := by
  cases i with
  | beq | bne | blt | bge | bltu | bgeu | sw | nop => cases h
  | _ => exact ⟨rfl, rfl⟩

/-- The ALU's answer for a decoded instruction with a destination, from its source registers and its immediate; a source
that it lacks is one that its operation does not use. -/
theorem alu_decodedAlone {i : Instr} {rd : RegNum} (h : i.rd = some rd) (m : Word) (s : State) :
    alu m (generateSignals i.opcode).aluOp (rs1Of (decodedAlone s i)) (aluOperandB (decodedAlone s i)) s.pc =
      alu m (generateSignals i.opcode).aluOp ((i.rs1.map (readReg s.regs)).getD 0)
        ((i.imm.map wrap).getD ((i.rs2.map (readReg s.regs)).getD 0)) s.pc := by
  cases i with
  | beq | bne | blt | bge | bltu | bgeu | sw | nop => cases h
  | _ => rfl

/-- Settles O13: the passage of a lone instruction, whose Memory stage does nothing and whose Write-Back writes the ALU
result. -/
theorem loneAluPassage : Obligations.LoneAluPassage := by
  intro s i rd v h hrd halu hread
  obtain ⟨hregWrite, hstore⟩ := signals_of_rd hrd
  have hv := (alu_decodedAlone hrd s.cfg.shiftMask s).trans halu
  obtain ⟨t, hrun, hregs, hdmem, hrest⟩ := h.passage (ne_nop_of_rd hrd) (not_branch_of_alu halu) hv
    (by simp [hread, hstore])
  refine ⟨t, hrun, ?regs, hdmem.trans (memoryAfter_dmem_of_not_store hstore), hrest⟩
  have hval : wbval (executedAlone s i v).exMem = v :=
    wbval_of_aluResult ((memToReg_eq_memRead i.opcode).trans hread) rfl
  have hwrite : writeBack s.regs (executedAlone s i v).exMem = writeReg s.regs rd (wbval (executedAlone s i v).exMem) :=
    writeBack_of_regWrite (w := (executedAlone s i v).exMem) hregWrite hrd s.regs
  rw [hregs, memoryAfter_memWb_of_not_load (s := executedAlone s i v) hread, hwrite, hval]

end Sys2Proof.Machine
end

section
/-! SUPPORT. A source's tag in each case, the operands in the Execute slot and where each is taken from; then the
statements of the hazard unit and of forwarding in Execute (45_hazard_forwarding). -/

namespace Sys2Proof.Machine

/-! ## The stall and the tags (45 R222, R223) -/

/-- Settles O28: the unit's stall is the load-use stall of the slots, and a stalled front end keeps pc and IF_ID. -/
theorem loadUseStall_iff_and_effect : Obligations.LoadUseStall := by
  refine fun s => ⟨?iff, fun hc hstall => ⟨_, step_of_stepCommits hc, ?effect⟩⟩
  case iff =>
    rw [hazardOf_stall, Bool.and_eq_true, loadUseStall_iff, slotsFor_ifId, slotsFor_idEx, holding_op]
  case effect =>
    rw [frontAfter_of_stall hstall]
    exact ⟨rfl, rfl, rfl⟩

@[simp] theorem forwardTag_none (x w : Snapshot) : forwardTag none x w = .none := rfl

@[simp] theorem forwardTag_zero (x w : Snapshot) : forwardTag (some 0) x w = .none := rfl

/-- Settles O29: an absent source and x0 have no tag; any other source has the tag of the closest producer. -/
theorem forwardingTags : Obligations.ForwardingTags := by
  intro k x w
  cases k with
  | none => simp
  | some r =>
    by_cases h0 : r = 0
    · simp [h0]
    · rw [forwardTag_of_ne_zero h0]
      by_cases hx : x.record.op.rd = some r
      · simp [hx, h0]
      · by_cases hw : w.record.op.rd = some r <;> simp [hx, hw, h0]

/-! ## Forwarding in Execute (45 R231) -/

theorem forwardsAtExecute_of_point {c : Config} (hunit : c.hasHazardUnit = true) (hpoint : c.fwdPoint = .execute) :
    forwardsAtExecute c = true := by
  simp [forwardsAtExecute, hunit, hpoint]

/-- Decode's read: MEM_WB's write-back value bypasses the register file, whatever the tag. -/
theorem decodeOperand_of_execute {s : State} (h : forwardsAtExecute s.cfg = true) (r : RegNum) (src : ForwardSource) :
    decodeOperand s r src =
      if r = 0 then 0 else if s.memWb.record.op.rd = some r then wbval s.memWb else readReg s.regs r := by
  rw [decodeOperand, if_pos h, bypassedRead]
  by_cases h0 : r = 0 <;> simp [h0, dst_eq_some]

/-- A present operand's replacement: the closest producer's value, else the decoded one. -/
theorem executeOperand_some (s : State) (r : RegNum) (v : Word) :
    executeOperand s (some r) (some v) =
      some (if r = 0 then v
        else if s.exMem.record.op.rd = some r then aluResultOf s.exMem
        else if s.memWb.record.op.rd = some r then wbval s.memWb else v) := by
  by_cases h0 : r = 0
  · simp [executeOperand, h0]
  · simp only [executeOperand, dst_eq_some, h0, ne_eq, not_false_eq_true, and_true, if_false, apply_ite some]

/-- The slot, seen as holding an instruction, keeps its operands. -/
theorem holding_operands {i : Instr} (hn : i ≠ .nop) (e : Snapshot) :
    (holding i e).rs1Val = e.rs1Val ∧ (holding i e).rs2Val = e.rs2Val := by
  cases i with
  | nop => exact absurd rfl hn
  | _ => exact ⟨rfl, rfl⟩

/-- The operands that Execute works on: those in ID_EX, each replaced. -/
theorem slotOf_operands {s : State} (h : forwardsAtExecute s.cfg = true) {i : Instr} (hn : i ≠ .nop) :
    (slotOf i s).rs1Val = executeOperand s i.rs1 (redirect s).idEx.rs1Val ∧
      (slotOf i s).rs2Val = executeOperand s i.rs2 (redirect s).idEx.rs2Val := by
  obtain ⟨h1, h2⟩ := holding_operands hn (redirect s).idEx
  rw [slotOf, executeInput, if_pos h, slotsFor_idEx, holding_op, h1, h2]
  exact ⟨rfl, rfl⟩

/-- Settles O32: Decode's read bypasses MEM_WB's write-back, and Execute replaces each operand of its slot. -/
theorem forwardingAtExecute : Obligations.ForwardingAtExecute := by
  intro s r hunit hpoint
  have hexecute := forwardsAtExecute_of_point hunit hpoint
  refine ⟨fun hc hstall => ⟨_, step_of_stepCommits hc, fun h1 => ?decode1, fun h2 => ?decode2⟩,
    fun i v hn => ?execute⟩
  case decode1 => rw [cycleAfter_idEx hstall, decodeStage_rs1Val h1, decodeOperand_of_execute hexecute]
  case decode2 => rw [cycleAfter_idEx hstall, decodeStage_rs2Val h2, decodeOperand_of_execute hexecute]
  case execute =>
    obtain ⟨hrs1, hrs2⟩ := slotOf_operands hexecute hn
    refine ⟨fun h1 hv => ?_, fun h2 hv => ?_⟩
    · rw [rs1Of, hrs1, h1, hv, executeOperand_some, Option.getD_some]
    · rw [rs2Of, hrs2, h2, hv, executeOperand_some, Option.getD_some]

end Sys2Proof.Machine
end

section
/-! SUPPORT. The prediction check in Execute, the two predictors, the prediction at Decode and the cases of the redirect
phase, each followed by its statement (46_branch_prediction). -/

namespace Sys2Proof.Machine

/-! ## The prediction check in Execute (46 R247 to R249) -/

/-- What is predicted trains with the outcome it leaves in EX_MEM, and is checked against that outcome. -/
theorem StageForm.check_of_isPredicted {c : Config} {i : Instr} {e : Snapshot} {x : Executed} (hx : StageForm c i e x)
    (h : isPredicted i.opcode = true) :
    x.train = some (x.exMem.branchTaken.getD false) ∧
      x.exMem.flushRequired = some (flushNeeded e.predictedTaken (x.exMem.branchTaken.getD false)) := by
  cases hx with
  | branch | jal => exact ⟨rfl, rfl⟩
  | nop hi => rw [hi] at h; cases h
  | alu hb => rw [isPredicted_of_not_branch hb] at h; cases h
  | jalr ho => rw [ho] at h; cases h

theorem StageForm.train_of_not_predicted {c : Config} {i : Instr} {e : Snapshot} {x : Executed}
    (hx : StageForm c i e x) (h : isPredicted i.opcode = false) : x.train = none :=
  Option.eq_none_iff_forall_ne_some.mpr fun _ ht => by simp [hx.isPredicted_of_train ht] at h

theorem flushRequired_stageOf_of_jalr {i : Instr} (h : i.opcode = .jalr) (c : Config) (e : Snapshot) :
    (stageOf c i e).exMem.flushRequired = some true := by
  cases i with
  | jalr => rfl
  | _ => cases h

theorem executeAlu_flushRequired (c : Config) (e : Snapshot) :
    (executeAlu c e).exMem.flushRequired = e.flushRequired := by
  unfold executeAlu
  split <;> rfl

theorem flushRequired_stageOf_of_not_branch {i : Instr} (h : (generateSignals i.opcode).branch = false) (c : Config)
    (e : Snapshot) : (stageOf c i e).exMem.flushRequired = e.flushRequired := by
  by_cases hn : i = .nop
  · rw [stageOf_exMem_of_nop hn]
  · rw [stageOf_of_not_branch hn h, executeAlu_flushRequired]

/-- The prediction is checked by comparing it with the outcome, an absent one as false (46 R243, R244). -/
theorem flushNeeded_eq_decide (predicted : Option Bool) (taken : Bool) :
    flushNeeded predicted taken = decide (predicted.getD false ≠ taken) := by
  rw [flushNeeded, bne, Bool.beq_eq_decide_eq, decide_not]

/-- Settles O25: the table is trained by the outcome of the Execute stage, and each form of the stage says what it does
to the flush requirement. -/
theorem predictionCheck : Obligations.PredictionCheck := by
  intro i s hc
  have hform := stageOf_form s.cfg i (slotOf i s)
  refine ⟨cycleAfter i s, exec_of_canCommit hc, fun hp => ?predicted, fun hp => ?unpredicted,
    fun hj => flushRequired_stageOf_of_jalr hj _ _, fun hb => flushRequired_stageOf_of_not_branch hb _ _⟩
  case predicted =>
    obtain ⟨htrain, hflush⟩ := hform.check_of_isPredicted hp
    rw [cycleAfter_bp, htrain, committed_exMem, hflush, flushNeeded_eq_decide]
    exact ⟨rfl, rfl⟩
  case unpredicted =>
    rw [cycleAfter_bp, hform.train_of_not_predicted hp]
    rfl

/-! ## The predictor (46 R241, R242) -/

theorem predict_of_real {c : Config} (h : c.realPredictor = true) (bp : List (Nat × Bool)) (p : Word) :
    predict c bp p = bpBit bp p := by
  rw [predict, h, Bool.true_and]

theorem predict_of_null {c : Config} (h : c.realPredictor = false) (bp : List (Nat × Bool)) (p : Word) :
    predict c bp p = false := by
  rw [predict, h, Bool.false_and]

theorem updatePredictor_of_real {c : Config} (h : c.realPredictor = true) (bp : List (Nat × Bool)) (p : Word)
    (b : Bool) : updatePredictor c bp p b = bpSet bp p b := if_pos h

theorem updatePredictor_of_null {c : Config} (h : c.realPredictor = false) (bp : List (Nat × Bool)) (p : Word)
    (b : Bool) : updatePredictor c bp p b = bp := if_neg (Bool.eq_false_iff.mp h)

/-- Settles O26: with the real predictor an update is one write to the table, with the null one it is none. -/
theorem predictorRemembersLastOutcome : Obligations.PredictorRemembersLastOutcome := by
  intro c bp p q b hbp
  have ⟨hrise, _⟩ := hbp
  cases hr : c.realPredictor with
  | true =>
    simp only [predict_of_real hr, updatePredictor_of_real hr]
    exact ⟨fun _ => readAt_writeAt_self hrise _ b, fun hne => readAt_writeAt_of_ne hne _ _ b, nofun,
      canonical_writeAt hbp _ b⟩
  | false =>
    rw [updatePredictor_of_null hr]
    exact ⟨nofun, fun _ => rfl, fun _ => ⟨predict_of_null hr bp p, rfl⟩, hbp⟩

/-! ## The prediction at Decode (46 R243) -/

theorem predictedTakenAt_of_isPredicted {f : Snapshot} (h : isPredicted f.record.op.opcode = true) (s : State) :
    predictedTakenAt s f = some (predict s.cfg s.bp f.pc) := if_pos h

theorem predictedTakenAt_of_not_predicted {f : Snapshot} (h : isPredicted f.record.op.opcode = false) (s : State) :
    predictedTakenAt s f = none := if_neg (Bool.eq_false_iff.mp h)

theorem predictedTargetAt_of_isPredicted {f : Snapshot} {n : Int} (h : isPredicted f.record.op.opcode = true)
    (hi : f.record.op.imm = some n) (s : State) :
    predictedTargetAt s f =
      if predict s.cfg s.bp f.pc then some (wrap (unsigned f.pc + unsigned (wrap n))) else none := by
  simp only [predictedTargetAt, predictedTakenAt_of_isPredicted h, immWord, hi, Option.map_some, Option.some.injEq]

theorem predictedTargetAt_of_not_predicted {f : Snapshot} (h : isPredicted f.record.op.opcode = false) (s : State) :
    predictedTargetAt s f = none := by
  rw [predictedTargetAt, predictedTakenAt_of_not_predicted h]
  rfl

/-- Decode of an instruction asks the predictor about it. -/
theorem decodeStage_prediction {f : Snapshot} (hn : f.record.op ≠ .nop) (s : State) (hz : Hazard) :
    (decodeStage s hz f).predictedTaken = predictedTakenAt s f ∧
      (decodeStage s hz f).predictedTarget = predictedTargetAt s f := by
  rw [decodeStage, if_neg hn]
  exact ⟨rfl, rfl⟩

/-- Decode leaves the prediction absent for what is not predicted: an instruction by the predictor's answer, a bubble as
Fetch left it. -/
theorem decodeStage_prediction_of_not_predicted {f : Snapshot} (h : isPredicted f.record.op.opcode = false)
    (hf : FetchedOnly f) (s : State) (hz : Hazard) :
    (decodeStage s hz f).predictedTaken = none ∧ (decodeStage s hz f).predictedTarget = none := by
  by_cases hn : f.record.op = .nop
  · obtain ⟨-, -, -, -, -, -, htaken, htarget, -⟩ := isBubble_decodeStage hn hf s hz
    exact ⟨htaken, htarget⟩
  · obtain ⟨htaken, htarget⟩ := decodeStage_prediction hn s hz
    rw [htaken, htarget]
    exact ⟨predictedTakenAt_of_not_predicted h s, predictedTargetAt_of_not_predicted h s⟩

/-- Settles O27: without a stall ID_EX holds Decode of IF_ID, whose prediction is read from the table of the state that
the cycle started from. -/
theorem predictionAtDecode : Obligations.PredictionAtDecode := by
  intro s hc hstall hfetched
  refine ⟨_, step_of_stepCommits hc, fun n hp hn => ?predicted, fun hp => ?unpredicted⟩ <;>
    rw [cycleAfter_idEx hstall]
  case predicted =>
    obtain ⟨htaken, htarget⟩ := decodeStage_prediction (ne_nop_of_imm hn) s _
    rw [htaken, htarget]
    exact ⟨predictedTakenAt_of_isPredicted hp s, predictedTargetAt_of_isPredicted hp hn s⟩
  case unpredicted => exact decodeStage_prediction_of_not_predicted hp hfetched s _

/-! ## The redirect phase (46 R246, R251) -/

theorem redirect_of_predicted {s : State} (hflush : s.exMem.flushRequired ≠ some true)
    (hpred : s.idEx.predictedTaken = some true) :
    redirect s =
      { pc := s.idEx.predictedTarget.getD (Config.absentWord .predictedTarget)
        ifId := bubble s.ifId.pc, idEx := s.idEx } := by
  rw [redirect, if_neg hflush, if_pos hpred]

theorem redirect_of_undirected {s : State} (hflush : s.exMem.flushRequired ≠ some true)
    (hpred : s.idEx.predictedTaken ≠ some true) : redirect s = { pc := s.pc, ifId := s.ifId, idEx := s.idEx } := by
  rw [redirect, if_neg hflush, if_neg hpred]

/-- A flush goes to the target of a taken branch, and past one that was not taken (46 R246). -/
theorem flushTarget_of_target {x : Snapshot} {target : Word}
    (h : x.branchTaken = some true → x.targetAddress = some target) :
    flushTarget x = if x.branchTaken = some true then target else wrap (unsigned x.pc + 4) := by
  refine flushTarget_eq (fun htaken => ?_) fun hnot => if_neg hnot
  rw [if_pos htaken, h htaken]

/-- Settles O21: a flush, a predicted-taken redirect without one, and neither. -/
theorem redirectPhase : Obligations.RedirectPhase := by
  refine ⟨fun s target hflush htarget => ?flush, fun s target hflush hpred htarget => ?predicted,
    fun s hflush hpred => redirect_of_undirected hflush hpred⟩
  case flush => rw [redirect_of_flush hflush, flushTarget_of_target htarget]
  case predicted => rw [redirect_of_predicted hflush hpred, htarget, Option.getD_some]

end Sys2Proof.Machine
end

section
/-! SUPPORT. The two ways in which a cycle can fail, what a committed cycle counts, and how a run goes on from its first
cycle; then the statements of the cycle and of a bounded run (47_cycle_and_configs). -/

namespace Sys2Proof.Machine

/-! ## A cycle that fails (47 R263, 60 R305) -/

theorem illegal_fetch_of_not_frontEndOk {s : State} {r : Redirect} (h : ¬ FrontEndOk s r) :
    ¬ LegalAddress s.cfg.imemWords r.pc := fun hlegal => h (.inr hlegal)

theorem illegal_access_of_not_memoryOk {s : State} (h : ¬ MemoryOk s) :
    ((signalsOf s.exMem).memRead = true ∨ (signalsOf s.exMem).memWrite = true) ∧
      ¬ LegalAddress s.cfg.dmemWords (aluResultOf s.exMem) := Classical.not_imp.mp h

/-- An illegal fetch fails the cycle, whatever the Memory stage would do. -/
theorem exec_of_not_frontEndOk {i : Instr} {s : State} (hrun : s.status = .running)
    (h : ¬ FrontEndOk s (slotsFor i s)) : exec i s = .next (raiseFatal s (.memoryAccessError (redirect s).pc)) := by
  simp only [exec_eq_commit, commit, hrun, frontEnd_of_not_ok h, slotsFor_pc]

theorem exec_of_faulted {i : Instr} {s : State} {e : FatalError} (h : s.status = .faulted e) :
    exec i s = .fault (.halted e) := by
  simp only [exec_eq_commit, commit, h]

/-- Settles O12: of the cases of a commit, the committed one keeps the status, and each failing one has the illegal
address of its stage. -/
theorem failingCycleFrame : Obligations.FailingCycleFrame := by
  intro i s t h hfailed
  rw [exec_eq_commit] at h
  obtain ⟨hrun, ⟨-, -, rfl⟩ | ⟨hfront, rfl⟩ | ⟨-, hmemory, rfl⟩⟩ := commit_cases h
  · exact absurd hrun hfailed
  · exact ⟨_, rfl, .inl (illegal_fetch_of_not_frontEndOk hfront)⟩
  · obtain ⟨-, hillegal⟩ := illegal_access_of_not_memoryOk hmemory
    exact ⟨_, rfl, .inr hillegal⟩

/-- Settles O18: a cycle fails in Fetch, or else in Memory, or commits. -/
theorem stepAlwaysAnswers : Obligations.StepAlwaysAnswers := by
  intro s hrun
  by_cases hfront : FrontEndOk s (slotsFor (executing s) s)
  · by_cases hmemory : MemoryOk s
    · exact ⟨_, step_of_stepCommits ⟨hrun, hfront, hmemory⟩, .inl hrun⟩
    · obtain ⟨haccess, hillegal⟩ := illegal_access_of_not_memoryOk hmemory
      exact ⟨_, exec_of_illegal_access hrun hfront haccess hillegal, .inr ⟨_, rfl⟩⟩
  · exact ⟨_, exec_of_not_frontEndOk hrun hfront, .inr ⟨_, rfl⟩⟩

/-- Settles O19: an illegal fetch fails with no word about Memory, an illegal access only where the front end does not,
and a faulted status leaves no cycle. -/
theorem fatalErrorStopsTheRun : Obligations.FatalErrorStopsTheRun := by
  refine ⟨fun i s hrun hstall hillegal => ?fetch, fun i s ea hrun hfront haccess hea hillegal => ?memory,
    fun i s e => exec_of_faulted⟩
  case fetch =>
    refine exec_of_not_frontEndOk hrun ?_
    rintro (hstalled | hlegal)
    · rw [hstall] at hstalled
      cases hstalled
    · exact hillegal hlegal
  case memory =>
    rw [← aluResultOf_of_eq_some hea] at hillegal ⊢
    exact exec_of_illegal_access hrun hfront haccess hillegal

/-! ## What a cycle counts (47 R270, R271) -/

/-- The branches that the metrics count, listed: B-type and jal, not jalr (47 R270). -/
theorem isPredicted_iff_mem (o : Opcode) :
    isPredicted o = true ↔ o ∈ [Opcode.beq, .bne, .blt, .bge, .bltu, .bgeu, .jal] := by
  cases o <;> decide

theorem retires_iff {w : Snapshot} : retires w = true ↔ w.record.op.opcode ≠ .nop := by
  rw [retires, decide_eq_true_iff, ne_eq, ne_eq, opcode_eq_nop]

/-- Settles O24: a committed step counts by the instruction in the Execute slot and the one in MEM_WB. -/
theorem metricsCount : Obligations.MetricsCount := by
  intro s hc
  have hslot : (slotsFor (executing s) s).idEx.record.op = (redirect s).idEx.record.op := by
    rw [slotsFor_idEx, holding_op, executing]
  refine ⟨_, step_of_stepCommits hc, rfl, congrArg _ (if_congr retires_iff rfl rfl),
    congrArg _ (if_congr ?total rfl rfl), congrArg _ (if_congr ?correct rfl rfl)⟩
  case total => rw [hslot, isPredicted_iff_mem]
  case correct => rw [hslot, Bool.and_eq_true, decide_eq_true_iff, isPredicted_iff_mem, committed_exMem]

/-- A counted cycle lowers no counter. -/
theorem le_countCycle (m : Metrics) (w e x : Snapshot) :
    m.cyclesTotal ≤ (countCycle m w e x).cyclesTotal ∧
      m.instructionsRetired ≤ (countCycle m w e x).instructionsRetired ∧
      m.branchesTotal ≤ (countCycle m w e x).branchesTotal ∧
      m.branchesCorrect ≤ (countCycle m w e x).branchesCorrect :=
  ⟨Nat.le_add_right _ _, Nat.le_add_right _ _, Nat.le_add_right _ _, Nat.le_add_right _ _⟩

/-- A branch is counted as correct only in the cycle that counts it. -/
theorem branchesCorrect_le_countCycle {m : Metrics} (h : m.branchesCorrect ≤ m.branchesTotal) (w e x : Snapshot) :
    (countCycle m w e x).branchesCorrect ≤ (countCycle m w e x).branchesTotal := by
  refine Nat.add_le_add h ?_
  split
  case isTrue hcorrect => simp [(Bool.and_eq_true_iff.mp hcorrect).1]
  case isFalse => exact Nat.zero_le _

theorem cpi_of_pos {m : Metrics} (h : 0 < m.instructionsRetired) :
    cpi m = some ((m.cyclesTotal : Rat) / m.instructionsRetired) := by
  rw [cpi, if_neg h.ne', Rat.mkRat_eq_div, Int.cast_natCast]

theorem branchAccuracy_of_pos {m : Metrics} (h : 0 < m.branchesTotal) :
    branchAccuracy m = some ((m.branchesCorrect : Rat) / m.branchesTotal) := by
  rw [branchAccuracy, if_neg h.ne', Rat.mkRat_eq_div, Int.cast_natCast]

/-- Settles O39: the ratios by their two cases; a fatal error keeps the counters and a committed cycle adds to them. -/
theorem derivedMetrics : Obligations.DerivedMetrics := by
  refine ⟨fun m => ⟨cpi_of_pos, fun h => if_pos h, branchAccuracy_of_pos, fun h => if_pos h⟩,
    fun s t h => ⟨fun hle => ?correct, ?grow⟩⟩
  case correct =>
    exact step_keeps (P := fun t => t.metrics.branchesCorrect ≤ t.metrics.branchesTotal) h (fun _ => hle)
      fun _ => branchesCorrect_le_countCycle hle _ _ _
  case grow =>
    exact step_keeps
      (P := fun t => s.metrics.cyclesTotal ≤ t.metrics.cyclesTotal ∧
        s.metrics.instructionsRetired ≤ t.metrics.instructionsRetired ∧
        s.metrics.branchesTotal ≤ t.metrics.branchesTotal ∧ s.metrics.branchesCorrect ≤ t.metrics.branchesCorrect)
      h (fun _ => ⟨le_rfl, le_rfl, le_rfl, le_rfl⟩) fun _ => le_countCycle _ _ _ _

/-! ## The cycle after reset (47 R268) -/

/-- Right after reset the pipeline is empty and the pc is legal, so nothing disturbs the first cycle. -/
theorem undisturbed_resetWith {c : Config} (h : c.Wf) : Undisturbed (State.resetWith c) := by
  obtain ⟨hwords, -⟩ := h
  exact
    { running := rfl
      fetch := ⟨rfl, Nat.mul_pos (by decide) hwords⟩
      decode := .inl rfl
      execute := .inl rfl
      filled := idExFields_bubble 0
      straight := rfl
      noFlush := rfl
      memory := memoryOk_of_isBubble ⟨rfl, bubbleFields_bubble 0⟩ }

/-- Settles O44: the first cycle is undisturbed, and shifts bubbles through an empty pipeline. -/
theorem cycleOnResetState : Obligations.CycleOnResetState := by
  intro c hc
  refine ⟨_, step_of_undisturbed (undisturbed_resetWith hc), rfl, rfl, rfl, rfl, rfl⟩

/-! ## A bounded run (47 R266) -/

theorem cyclesTotal_of_step {s t : State} (h : step s = .next t) (ht : t.status = .running) :
    t.metrics.cyclesTotal = s.metrics.cyclesTotal + 1 := by
  rw [eq_cycleAfter_of_step h ht]
  rfl

theorem run_succ_of_step {s t : State} (h : step s = .next t) (k : Nat) :
    Host.Core.run Sys2Proof.core (k + 1) s = Host.Core.run Sys2Proof.core k t := by
  have hstep : Sys2Proof.core.step s = .next t := h
  simp only [Host.Core.run, hstep]

/-- A run that ends drained has run some cycles, at most the bound, and committed each. -/
theorem exists_run_of_runBounded_drained {n : Nat} {s t : State} (h : runBounded n s = .drained t) :
    drained t = true ∧ t.status = .running ∧
      ∃ k, 1 ≤ k ∧ k ≤ n ∧ Host.Core.run Sys2Proof.core k s = .next t ∧
        t.metrics.cyclesTotal = s.metrics.cyclesTotal + k := by
  fun_induction runBounded n s with
  | case1 | case2 | case3 | case4 => cases h
  | case5 n s u hstep hrun hdrained =>
    cases h
    exact ⟨hdrained, hrun, 1, le_rfl, Nat.succ_pos n, run_succ_of_step hstep 0, cyclesTotal_of_step hstep hrun⟩
  | case6 n s u hstep hrun _ ih =>
    obtain ⟨hdrained, hrunning, k, hpos, hle, hk, hcycles⟩ := ih h
    refine ⟨hdrained, hrunning, k + 1, Nat.succ_pos k, Nat.succ_le_succ hle, ?_, ?_⟩
    · rw [run_succ_of_step hstep, hk]
    · rw [hcycles, cyclesTotal_of_step hstep hrun, Nat.add_assoc, Nat.add_comm 1]

theorem status_of_runBounded_failed {n : Nat} {s t : State} {e : FatalError} (h : runBounded n s = .failed e t) :
    t.status = .faulted e := by
  fun_induction runBounded n s with
  | case1 | case2 | case3 | case5 => cases h
  | case4 n s u hstep e hfaulted =>
    cases h
    exact hfaulted
  | case6 n s u hstep hrun _ ih => exact ih h

/-- Settles O55: by induction on the bound, along the recursion of the run. -/
theorem runEndsDrained : Obligations.RunEndsDrained :=
  ⟨fun _ _ _ => exists_run_of_runBounded_drained, fun _ _ _ _ => status_of_runBounded_failed⟩

end Sys2Proof.Machine
end

section
/-! SUPPORT. The host's loads and preloads, each by what the list it is given makes of the memory or the registers; then
the statements of the host interface (47 R280 to R282). -/

namespace Sys2Proof.Machine

/-! ## load_program (47 R280) -/

/-- The slots from number `n` on that hold the instructions `is`, each with its slot's address. -/
def programSlots (n : Nat) : List Instr → List (Nat × Record)
  | [] => []
  | i :: rest => (n, { address := wrap (4 * n), op := i }) :: programSlots (n + 1) rest

theorem decodeLines_of_map {lines : List Text} {is : List Instr} (h : lines.map decodeLine = is.map Except.ok)
    (n : Nat) : decodeLines n lines = .ok (programSlots n is) := by
  induction lines generalizing is n with
  | nil =>
    cases is with
    | nil => rfl
    | cons => cases h
  | cons line lines ih =>
    cases is with
    | nil => cases h
    | cons i is =>
      obtain ⟨hline, hrest⟩ := List.cons.inj h
      simp only [decodeLines, hline, ih hrest, programSlots]

/-- What a refused list of lines names: a line of it that is no instruction, by its number. -/
theorem of_decodeLines_eq_error {n : Nat} {lines : List Text} {e : FatalError} (h : decodeLines n lines = .error e) :
    ∃ (k : Nat) (line : Text) (e' : LineReject),
      lines[k]? = some line ∧ decodeLine line = .error e' ∧ e = .decodeError (n + k) line := by
  fun_induction decodeLines n lines with
  | case1 | case4 => cases h
  | case2 n line rest e' hline =>
    cases h
    exact ⟨0, line, e', rfl, hline, rfl⟩
  | case3 n line rest i _ e' hrest ih =>
    cases h
    obtain ⟨k, bad, e'', hk, hbad, rfl⟩ := ih hrest
    exact ⟨k + 1, bad, e'', hk, hbad, by rw [Nat.add_right_comm, Nat.add_assoc]⟩

theorem decodeLine_of_decodeLines_eq_ok {n : Nat} {lines : List Text} {slots : List (Nat × Record)}
    (h : decodeLines n lines = .ok slots) {line : Text} (hmem : line ∈ lines) : ∃ i, decodeLine line = .ok i := by
  fun_induction decodeLines n lines generalizing slots with
  | case1 => cases hmem
  | case2 | case3 => cases h
  | case4 n first rest i hfirst slots' hrest ih =>
    obtain rfl | hmem := List.mem_cons.mp hmem
    · exact ⟨i, hfirst⟩
    · exact ih hrest hmem

theorem le_of_mem_programSlots {n : Nat} {is : List Instr} {p : Nat × Record} (h : p ∈ programSlots n is) :
    n ≤ p.1 := by
  induction is generalizing n with
  | nil => cases h
  | cons i is ih =>
    obtain rfl | h := List.mem_cons.mp h
    · exact le_rfl
    · exact Nat.le_of_succ_le (ih h)

theorem keysRise_programSlots (n : Nat) (is : List Instr) : KeysRise (programSlots n is) := by
  induction is generalizing n with
  | nil => exact .nil
  | cons i is ih => exact .cons (fun _ hp => le_of_mem_programSlots hp) (ih (n + 1))

theorem lookup_programSlots (n k : Nat) (is : List Instr) :
    lookup (programSlots n is) (n + k) = (is[k]?).map fun i => { address := wrap (4 * (n + k : Nat)), op := i } := by
  induction is generalizing n k with
  | nil => rfl
  | cons i is ih =>
    cases k with
    | zero => simp [programSlots, lookup]
    | succ k =>
      have hne : n ≠ n + (k + 1) := by omega
      have hnext : n + (k + 1) = n + 1 + k := by omega
      rw [programSlots, lookup, if_neg hne, hnext, ih, List.getElem?_cons_succ]

theorem loadProgram_of_error {s : State} (hboot : inBoot s = true) {lines : List Text} {e : FatalError}
    (h : decodeLines 0 lines = .error e) : loadProgram lines s = .fault (.hostCallFailed e) := by
  simp only [loadProgram, hboot, h, if_true]

theorem loadProgram_of_fits {s : State} (hboot : inBoot s = true) {lines : List Text} {slots : List (Nat × Record)}
    (h : decodeLines 0 lines = .ok slots) (hfits : lines.length ≤ s.cfg.imemWords) :
    loadProgram lines s = .next { s with imem := slots } := by
  simp only [loadProgram, hboot, h, if_true, firstLineOver, List.getElem?_eq_none hfits]

theorem loadProgram_of_too_long {s : State} (hboot : inBoot s = true) {lines : List Text}
    {slots : List (Nat × Record)} (h : decodeLines 0 lines = .ok slots) {line : Text}
    (hover : lines[s.cfg.imemWords]? = some line) :
    loadProgram lines s = .fault (.hostCallFailed (.decodeError s.cfg.imemWords line)) := by
  simp only [loadProgram, hboot, h, if_true, firstLineOver, hover]

/-- Settles O52: lines that decode make the slots of their instructions; a list of lines that is refused names one that
does not decode, and one that is not but is too long names the first without a slot. -/
theorem loadProgram_loads_or_fails : Obligations.LoadProgram := by
  refine ⟨fun s lines is hboot hlines hfits => ?loads, fun s lines bad e hboot hmem hbad _ => ?badLine,
    fun s lines hboot hlong => ?tooLong⟩
  case loads =>
    refine ⟨_, loadProgram_of_fits hboot (decodeLines_of_map hlines 0) hfits, rfl, keysRise_programSlots 0 is,
      fun k => ?_⟩
    have hslot := lookup_programSlots 0 k is
    rwa [Nat.zero_add] at hslot
  case badLine =>
    cases hdec : decodeLines 0 lines with
    | ok slots =>
      obtain ⟨i, hi⟩ := decodeLine_of_decodeLines_eq_ok hdec hmem
      rw [hbad] at hi
      cases hi
    | error e =>
      obtain ⟨k, line, e', hk, hline, rfl⟩ := of_decodeLines_eq_error hdec
      rw [Nat.zero_add] at hdec
      exact ⟨k, line, e', hk, hline, loadProgram_of_error hboot hdec⟩
  case tooLong =>
    cases hdec : decodeLines 0 lines with
    | ok slots => exact ⟨_, _, loadProgram_of_too_long hboot hdec (List.getElem?_eq_getElem hlong)⟩
    | error e =>
      obtain ⟨k, line, e', -, -, rfl⟩ := of_decodeLines_eq_error hdec
      exact ⟨_, _, loadProgram_of_error hboot hdec⟩

/-! ## Register names (30_encoding R84) -/

/-- A character that is read as a decimal digit is the one that the digit is written as. -/
theorem decDigit_eq_some {c : Char} {d : Nat} (h : decDigit c = some d) : d < 10 ∧ c = d.digitChar := by
  unfold decDigit at h
  split at h
  case isFalse => cases h
  case isTrue hc =>
    cases h
    have hlo : 48 ≤ c.toNat := hc.1
    have hhi : c.toNat ≤ 57 := hc.2
    have hlt : c.toNat - 48 < 10 := by omega
    have hcode : (c.toNat - 48).digitChar.toNat = c.toNat := by
      rw [Nat.toNat_digitChar_of_lt_ten hlt, Nat.add_sub_of_le hlo]
    exact ⟨hlt, (Char.toNat_inj.mp hcode).symm⟩

/-- The text of a register number from 10 on: its two digits. -/
theorem toDigits_two {m n : Nat} (hm0 : m ≠ 0) (hm : m < 10) (hn : n < 10) :
    Nat.toDigits 10 (10 * m + n) = [m.digitChar, n.digitChar] := by
  have hdiv : (10 * m + n) / 10 = m := by omega
  have hmod : (10 * m + n) % 10 = n := by omega
  rw [Nat.toDigits_of_base_le (by decide) (by omega), hdiv, hmod, Nat.toDigits_of_lt_base hm]
  rfl

theorem eq_text_of_parseReg {name : Text} {r : RegNum} (h : parseReg name = .ok r) : name = RegNum.text r := by
  unfold parseReg at h
  split at h
  case h_1 d =>
    split at h
    case h_2 => cases h
    case h_1 n hd =>
      obtain ⟨hn, rfl⟩ := decDigit_eq_some hd
      split at h <;> cases h
      rw [RegNum.text, Nat.toDigits_of_lt_base hn]
  case h_2 d e =>
    split at h
    case h_2 => cases h
    case h_1 m n hd he =>
      obtain ⟨hm, rfl⟩ := decDigit_eq_some hd
      obtain ⟨hn, rfl⟩ := decDigit_eq_some he
      split at h
      case isTrue => cases h
      case isFalse hm0 =>
        split at h <;> cases h
        rw [RegNum.text, toDigits_two hm0 hm hn]
  case h_3 => cases h

/-- A register has one name. -/
theorem parseReg_eq_ok_iff {name : Text} {r : RegNum} : parseReg name = .ok r ↔ name = RegNum.text r :=
  ⟨eq_text_of_parseReg, fun h => h ▸ parseReg_text r⟩

/-! ## preload_registers (47 R281) -/

theorem preloadable_iff {v : Int} : preloadable v = true ↔ -2 ^ 31 ≤ v ∧ v ≤ 2 ^ 32 - 1 := by
  rw [preloadable, Bool.and_eq_true, decide_eq_true_iff, decide_eq_true_iff]

theorem not_preloadable_iff {v : Int} : ¬ preloadable v = true ↔ v < -2 ^ 31 ∨ 2 ^ 32 - 1 < v := by
  rw [preloadable_iff, not_and_or, not_le, not_le]

/-- A pair of a preload map whose name is a register and whose value is in range. -/
def ValidPair (p : Text × Int) : Prop := (∃ r, parseReg p.1 = .ok r) ∧ preloadable p.2 = true

theorem validPair_iff {p : Text × Int} :
    ValidPair p ↔ (∃ r, parseReg p.1 = .ok r) ∧ -2 ^ 31 ≤ p.2 ∧ p.2 ≤ 2 ^ 32 - 1 := by
  rw [ValidPair, preloadable_iff]

theorem not_validPair_iff {p : Text × Int} :
    ¬ ValidPair p ↔ (∀ r : RegNum, parseReg p.1 ≠ .ok r) ∨ p.2 < -2 ^ 31 ∨ 2 ^ 32 - 1 < p.2 := by
  rw [ValidPair, not_and_or, not_exists, not_preloadable_iff]

/-- What a refused list of pairs names: the register of a pair of it that is not valid. -/
theorem of_preloadedRegs_eq_error {regs : Vector Word 32} {values : List (Text × Int)} {e : FatalError}
    (h : preloadedRegs regs values = .error e) : ∃ q ∈ values, ¬ ValidPair q ∧ e = .registerError q.1 := by
  fun_induction preloadedRegs regs values with
  | case1 => cases h
  | case2 regs name v rest r hname hv ih =>
    obtain ⟨q, hq, hbad⟩ := ih h
    exact ⟨q, List.mem_cons_of_mem _ hq, hbad⟩
  | case3 regs name v rest r hname hv =>
    cases h
    exact ⟨_, List.mem_cons_self, fun hvalid => hv hvalid.2, rfl⟩
  | case4 regs name v rest e' hname =>
    cases h
    refine ⟨_, List.mem_cons_self, fun hvalid => ?_, rfl⟩
    obtain ⟨⟨r, hr⟩, -⟩ := hvalid
    rw [hname] at hr
    cases hr

section Preloaded

variable {regs regs' : Vector Word 32} {values : List (Text × Int)} (h : preloadedRegs regs values = .ok regs')
include h

theorem validPair_of_preloadedRegs {p : Text × Int} (hp : p ∈ values) : ValidPair p := by
  fun_induction preloadedRegs regs values with
  | case1 => cases hp
  | case2 regs name v rest r hname hv ih =>
    obtain rfl | hp := List.mem_cons.mp hp
    · exact ⟨⟨r, hname⟩, hv⟩
    · exact ih h hp
  | case3 | case4 => cases h

theorem readReg_preloadedRegs_of_unnamed {r : RegNum} (hr : ∀ p ∈ values, parseReg p.1 ≠ .ok r) :
    readReg regs' r = readReg regs r := by
  fun_induction preloadedRegs regs values with
  | case1 =>
    cases h
    rfl
  | case2 regs name v rest q hname hv ih =>
    obtain ⟨hhead, hrest⟩ := List.forall_mem_cons.mp hr
    have hne : r ≠ q := fun e => hhead (e ▸ hname)
    rw [ih h hrest, readReg_writeReg_of_ne hne]
  | case3 | case4 => cases h

/-- Where no two pairs have one name, no later pair writes a register again. -/
theorem readReg_preloadedRegs_of_named (hdistinct : values.Pairwise fun p q => p.1 ≠ q.1) {p : Text × Int}
    (hp : p ∈ values) {r : RegNum} (hr : parseReg p.1 = .ok r) : readReg regs' r = if r = 0 then 0 else wrap p.2 := by
  fun_induction preloadedRegs regs values with
  | case1 => cases hp
  | case2 regs name v rest q hname hv ih =>
    obtain ⟨hhead, hrest⟩ := List.pairwise_cons.mp hdistinct
    obtain rfl | hp := List.mem_cons.mp hp
    · obtain rfl : q = r := Except.ok.inj (hname.symm.trans hr)
      have hunnamed : ∀ p ∈ rest, parseReg p.1 ≠ .ok q := fun p hp hpq =>
        hhead p hp ((eq_text_of_parseReg hname).trans (eq_text_of_parseReg hpq).symm)
      rw [readReg_preloadedRegs_of_unnamed h hunnamed]
      by_cases h0 : q = 0
      · rw [h0, readReg_zero, if_pos rfl]
      · rw [readReg_writeReg_self h0, if_neg h0]
    · exact ih h hrest hp
  | case3 | case4 => cases h

end Preloaded

theorem preloadRegisters_of_ok {s : State} (hboot : inBoot s = true) {values : List (Text × Int)}
    {regs : Vector Word 32} (h : preloadedRegs s.regs values = .ok regs) :
    preloadRegisters values s = .next { s with regs := regs } := by
  simp only [preloadRegisters, hboot, h, if_true]

theorem preloadRegisters_of_error {s : State} (hboot : inBoot s = true) {values : List (Text × Int)}
    {e : FatalError} (h : preloadedRegs s.regs values = .error e) :
    preloadRegisters values s = .fault (.hostCallFailed e) := by
  simp only [preloadRegisters, hboot, h, if_true]

/-- Settles O53: a list of pairs is refused exactly where one of them is not valid; else distinct names are distinct
registers, each written once. -/
theorem preloadRegisters_writes_or_fails : Obligations.PreloadRegisters := by
  refine ⟨fun s values hboot hdistinct hvalues => ?preloads, fun s values p hboot hp hbad => ?refuses,
    fun name r => parseReg_eq_ok_iff⟩
  case preloads =>
    cases hregs : preloadedRegs s.regs values with
    | error e =>
      obtain ⟨q, hq, hbad, -⟩ := of_preloadedRegs_eq_error hregs
      exact absurd (validPair_iff.mpr (hvalues q hq)) hbad
    | ok regs =>
      exact ⟨_, preloadRegisters_of_ok hboot hregs, rfl,
        fun p r hp hr => readReg_preloadedRegs_of_named hregs hdistinct hp hr,
        fun r hr => readReg_preloadedRegs_of_unnamed hregs hr⟩
  case refuses =>
    cases hregs : preloadedRegs s.regs values with
    | error e =>
      obtain ⟨q, hq, hinvalid, rfl⟩ := of_preloadedRegs_eq_error hregs
      exact ⟨q, hq, not_validPair_iff.mp hinvalid, preloadRegisters_of_error hboot hregs⟩
    | ok regs => exact absurd (validPair_of_preloadedRegs hregs hp) (not_validPair_iff.mpr hbad)

/-! ## preload_data_memory (47 R282) -/

theorem preloadedMem_cons_of_legal {words : Nat} {a : Word} {v : Int} (ha : LegalAddress words a)
    (hv : preloadable v = true) (m : List Host.Cell) (rest : List (Word × Int)) :
    preloadedMem words m ((a, v) :: rest) = preloadedMem words (writeWord m a.toNat (wrap v)) rest := by
  simp only [preloadedMem, hv, memWrite_of_legal ha, if_true]

theorem preloadedMem_cons_of_bad {words : Nat} {a : Word} {v : Int}
    (h : ¬ LegalAddress words a ∨ ¬ preloadable v = true) (m : List Host.Cell) (rest : List (Word × Int)) :
    preloadedMem words m ((a, v) :: rest) = .error (.memoryAccessError a) := by
  by_cases hv : preloadable v = true
  · have ha := h.resolve_right (not_not_intro hv)
    simp only [preloadedMem, hv, memWrite_of_illegal ha, if_true]
  · rw [preloadedMem, if_neg hv]

/-- Two preloads that give the same data memory give the same state. -/
theorem preloadDataMemory_congr {s : State} {m : List Host.Cell} {values rest : List (Word × Int)}
    (h : preloadedMem s.cfg.dmemWords s.dmem values = preloadedMem s.cfg.dmemWords m rest) :
    preloadDataMemory values s = preloadDataMemory rest { s with dmem := m } := by
  unfold preloadDataMemory
  rw [h]
  rfl

theorem preloadDataMemory_of_error {s : State} (hboot : inBoot s = true) {values : List (Word × Int)}
    {e : FatalError} (h : preloadedMem s.cfg.dmemWords s.dmem values = .error e) :
    preloadDataMemory values s = .fault (.hostCallFailed e) := by
  simp only [preloadDataMemory, hboot, h, if_true]

/-- Settles O54: the first pair is written before the rest is looked at, or refused. -/
theorem preloadDataMemory_writes_or_fails : Obligations.PreloadDataMemory := by
  refine ⟨fun s hboot => if_pos hboot, fun s a v rest _ ha hmin hmax => ?writes, fun s a v rest hboot hbad => ?refuses⟩
  case writes => exact preloadDataMemory_congr (preloadedMem_cons_of_legal ha (preloadable_iff.mpr ⟨hmin, hmax⟩) _ _)
  case refuses =>
    exact preloadDataMemory_of_error hboot (preloadedMem_cons_of_bad (hbad.imp_right not_preloadable_iff.mpr) _ _)

end Sys2Proof.Machine
end

section
/-! SUPPORT. The empty memories that reset leaves, and what the host's loads and preloads do with the first line or pair
they refuse; then the statements of reset (70 R330, R331) and of the model's choices in what a failure names (log
entries 7 and 14). -/

namespace Sys2Proof.Machine

/-! ## Reset (70 R330) -/

theorem readReg_replicate_zero (r : RegNum) : readReg (Vector.replicate 32 0) r = 0 := by
  by_cases h : r = 0
  · rw [h, readReg_zero]
  · rw [readReg_of_ne h]
    exact Vector.getElem_replicate r.isLt

@[simp] theorem bpBit_nil (p : Word) : bpBit [] p = false := rfl

@[simp] theorem imemAt_nil (p : Word) : imemAt [] p = none := rfl

@[simp] theorem readByte_nil (a : Nat) : readByte [] a = 0 := rfl

theorem readWord_nil (a : Nat) : readWord [] a = 0 := by
  simp only [readWord, readByte_nil]
  decide

theorem canonical_nil {α : Type} (d : α) : Canonical d [] := ⟨.nil, List.forall_mem_nil _⟩

/-- Bubbles everywhere: the pipeline of an empty machine is filled as its stages fill it (10_state R33). -/
theorem pipelineFilled_of_bubbles {s : State} {p q r t : Word} (hf : s.ifId = bubble p) (he : s.idEx = bubble q)
    (hx : s.exMem = bubble r) (hw : s.memWb = bubble t) : PipelineFilled s := by
  rw [PipelineFilled, hf, he, hx, hw]
  exact ⟨fetchedOnly_bubble p, idExFields_bubble q, bubbleFields_bubble r, bubbleFields_bubble t,
    fetchedFrom_bubble s p, fetchedFrom_bubble s q, fetchedFrom_bubble s r, fetchedFrom_bubble s t⟩

/-- Settles O42: reset leaves empty memories, zero counters and bubbles, whatever the configuration. -/
theorem invariantAtReset : Obligations.InvariantAtReset := by
  intro c hc
  have hmemories : MemoriesCanonical (State.resetWith c) :=
    ⟨canonical_nil _, List.forall_mem_nil _, canonical_nil _, .nil⟩
  have hzero : ZeroCell (State.resetWith c) := rfl
  have hcounters : CountersOk (State.resetWith c).metrics := ⟨le_rfl, le_rfl, le_rfl⟩
  exact ⟨hc, hmemories, hzero, List.forall_mem_nil _, fun _ => rfl, List.forall_mem_nil _, hcounters,
    pipelineFilled_of_bubbles rfl rfl rfl rfl⟩

/-- Settles O43: each accessor of the empty register file, table or memory reads the reset value. -/
theorem resetValues : Obligations.ResetValues :=
  ⟨fun _ => ⟨readReg_replicate_zero, rfl, rfl, rfl, rfl, rfl, bpBit_nil, imemAt_nil, readWord_nil, rfl, rfl, rfl⟩,
    fun _ => rfl⟩

/-! ## The line that a failing load names (log entry 7) -/

/-- Behind lines that decode, a line that does not is the one refused, whatever follows it. -/
theorem decodeLines_append_cons_of_error {good : List Text} {is : List Instr}
    (hgood : good.map decodeLine = is.map Except.ok) {bad : Text} {e : LineReject} (hbad : decodeLine bad = .error e)
    (n : Nat) (rest : List Text) :
    decodeLines n (good ++ bad :: rest) = .error (.decodeError (n + good.length) bad) := by
  induction good generalizing is n with
  | nil => simp only [List.nil_append, decodeLines, hbad, List.length_nil, Nat.add_zero]
  | cons line good ih =>
    cases is with
    | nil => cases hgood
    | cons i is =>
      obtain ⟨hline, hgood⟩ := List.cons.inj hgood
      have hnumber : n + 1 + good.length = n + (line :: good).length := by
        rw [List.length_cons, Nat.add_right_comm, Nat.add_assoc]
      simp only [List.cons_append, decodeLines, hline, ih hgood, hnumber]

/-- Settles O56: the lines are decoded in turn up to the first that is no instruction; only a program that decodes as a
whole is measured against the memory. -/
theorem loadNamesFirstFailure : Obligations.LoadNamesFirstFailure := by
  refine ⟨fun s good bad rest is e hboot hgood hbad => ?badLine, fun s lines is line hboot hlines hover => ?tooLong⟩
  case badLine =>
    have hdec := decodeLines_append_cons_of_error hgood hbad 0 rest
    rw [Nat.zero_add] at hdec
    exact loadProgram_of_error hboot hdec
  case tooLong => exact loadProgram_of_too_long hboot (decodeLines_of_map hlines 0) hover

/-! ## The pair that a failing preload names (log entry 7) -/

theorem preloadedRegs_cons_of_valid {name : Text} {r : RegNum} {v : Int} (hname : parseReg name = .ok r)
    (hv : preloadable v = true) (regs : Vector Word 32) (rest : List (Text × Int)) :
    preloadedRegs regs ((name, v) :: rest) = preloadedRegs (writeReg regs r (wrap v)) rest := by
  simp only [preloadedRegs, hname, hv, if_true]

theorem preloadedRegs_cons_of_bad {name : Text} {v : Int} (h : ¬ ValidPair (name, v)) (regs : Vector Word 32)
    (rest : List (Text × Int)) : preloadedRegs regs ((name, v) :: rest) = .error (.registerError name) := by
  cases hname : parseReg name with
  | error => simp only [preloadedRegs, hname]
  | ok r =>
    have hv : ¬ preloadable v = true := fun hv => h ⟨⟨r, hname⟩, hv⟩
    simp only [preloadedRegs, hname, if_neg hv]

/-- Two preloads that give the same register file give the same state. -/
theorem preloadRegisters_congr {s : State} {regs : Vector Word 32} {values rest : List (Text × Int)}
    (h : preloadedRegs s.regs values = preloadedRegs regs rest) :
    preloadRegisters values s = preloadRegisters rest { s with regs := regs } := by
  unfold preloadRegisters
  rw [h]
  rfl

/-- Settles O57: the first pair is written before the rest is looked at, or refused. -/
theorem preloadTakesPairsInTurn : Obligations.PreloadTakesPairsInTurn := by
  refine ⟨fun s hboot => preloadRegisters_of_ok hboot rfl, fun s name v rest r _ hname hmin hmax => ?writes,
    fun s name v rest hboot hbad => ?refuses⟩
  case writes => exact preloadRegisters_congr (preloadedRegs_cons_of_valid hname (preloadable_iff.mpr ⟨hmin, hmax⟩) _ _)
  case refuses =>
    exact preloadRegisters_of_error hboot (preloadedRegs_cons_of_bad (not_validPair_iff.mpr hbad) _ _)

/-! ## The info of a refused direct call (log entry 14) -/

/-- Settles O58: the lemma behind the last row of the control table names the info. -/
theorem unsupportedOperationInfo : Obligations.UnsupportedOperationInfo :=
  fun _ => generateSignalsOf_of_not_text

end Sys2Proof.Machine
end
